-- ==== Sys2Proof/Word.lean ====
section
/-! DEFINITION. The word types of huffman_block and the bit strings of its notation
(spec/00_scope.md R6, R10, R11). -/

namespace Sys2Proof

/-- One bus word, DATA_W = 32 bits (00_scope.md R6). -/
abbrev Word := BitVec 32

/-- A bus byte address, ADDR_W = 16 bits (00_scope.md R6). -/
abbrev Addr := BitVec 16

/-- One decoded byte (10_state.md R41). -/
abbrev Byte := BitVec 8

/-- A symbol of the 256-symbol byte alphabet (00_scope.md R6, glossary). -/
abbrev Symbol := BitVec 8

/-- A node identifier, NODE_ID_W = 9 bits (00_scope.md R6; 41_tree_builder.md R120). -/
abbrev NodeId := BitVec 9

/-- A node weight, NODEW_W = 40 bits (00_scope.md R6; 41_tree_builder.md R126). -/
abbrev NodeWeight := BitVec 40

/-- A bit string in reading order: its head is the first bit (00_scope.md R11). -/
abbrev BitString := List Bool

end Sys2Proof
end

