-- ==== Sys2Proof/Syntax.lean ====
section
/-! DEFINITION. The command set (spec/30_encoding.md R80 to R85), the host program's statements (R90), and the
assembler-level lines that expand to them (R86 to R89). -/

namespace Sys2Proof

/-- The twelve commands of 30_encoding.md R82. Every operand is exactly the field of the word that holds it, the
ignored fields of R83 included, so that no bit of an encoding is lost. -/
inductive Instr where
  /-- NOP (40_command_control.md R106); IMM16 is ignored. -/
  | nop (unused : BitVec 16)
  /-- CLEAR_WEIGHTS (41_tree_builder.md R121); IMM16 is ignored. -/
  | clearWeights (unused : BitVec 16)
  /-- BUILD_TREE (41_tree_builder.md R122); IMM16 is ignored. -/
  | buildTree (unused : BitVec 16)
  /-- NODE_READ id (41_tree_builder.md R125); id is the whole IMM16. -/
  | nodeRead (id : BitVec 16)
  /-- TABLE_CLEAR (42_code_table_rom.md R140); IMM16 is ignored. -/
  | tableClear (unused : BitVec 16)
  /-- GEN_TABLE (42_code_table_rom.md R141); IMM16 is ignored. -/
  | genTable (unused : BitVec 16)
  /-- TABLE_WRITE sym, len (42_code_table_rom.md R144). -/
  | tableWrite (sym : Symbol) (len : BitVec 8)
  /-- TABLE_DELETE sym (42_code_table_rom.md R145); IMM16[15:8] is ignored. -/
  | tableDelete (sym : Symbol) (unused : BitVec 8)
  /-- TABLE_READ sym (42_code_table_rom.md R146); IMM16[15:8] is ignored. -/
  | tableRead (sym : Symbol) (unused : BitVec 8)
  /-- BITBUF_CLEAR (43_decoder_fsm.md R160); IMM16 is ignored. -/
  | bitbufClear (unused : BitVec 16)
  /-- BITBUF_APPEND n (43_decoder_fsm.md R161); n is the whole IMM16. -/
  | bitbufAppend (n : BitVec 16)
  /-- DECODE (43_decoder_fsm.md R162); IMM16 is ignored. -/
  | decode (unused : BitVec 16)
  deriving DecidableEq, Repr

/-- The statements of a host program (30_encoding.md R90). The variable that `read <addr> -> x` binds is not named:
the values read are kept in order. -/
inductive HostStmt where
  /-- `write <addr>, <v>`: one MemWrite(addr, 4, v). -/
  | write (addr : Addr) (v : Word)
  /-- `read <addr> -> x`: one MemRead(addr, 4). -/
  | read (addr : Addr)
  /-- `wait`: repeat `read STATUS -> t` until t[0] = 0. -/
  | wait
  deriving DecidableEq, Repr

/-- A command line of the assembler, its operands numbers not yet checked (30_encoding.md R86). -/
inductive AsmCmd where
  | nop
  | clearWeights
  | buildTree
  | nodeRead (id : Nat)
  | tableClear
  | genTable
  | tableWrite (sym len : Nat)
  | tableDelete (sym : Nat)
  | tableRead (sym : Nat)
  | bitbufClear
  | bitbufAppend (n : Nat)
  | decode
  deriving DecidableEq, Repr

/-- The names that stand for offsets in a host program (30_encoding.md R89; 20_memory.md R62). -/
inductive RegName where
  | id | ctrl | status | cmd | arg0 | res0 | res1 | tree | maxlen | bitLen | outLen | arenaUsed | param0 | param1
  | codeStage (k : Nat)
  | codeOut (k : Nat)
  | w (s : Nat)
  | bitbuf (j : Nat)
  | outbuf (j : Nat)
  deriving DecidableEq, Repr

/-- An address in a host program: a number or a register name (30_encoding.md R89, R90). -/
inductive AddrExpr where
  | num (n : Nat)
  | reg (r : RegName)
  deriving DecidableEq, Repr

/-- A line of a host program: a mnemonic line, a bare `issue`, a pseudo-instruction, or a statement
(30_encoding.md R87, R88, R90). -/
inductive HostLine where
  | command (c : AsmCmd)
  | issue (c : AsmCmd)
  | setw (sym v : Nat)
  | stage (bits : BitString)
  | loadcode (sym : Nat) (bits : BitString)
  | append (bits : BitString)
  | setctrl (v : Nat)
  | ack
  | write (a : AddrExpr) (v : Nat)
  | read (a : AddrExpr)
  | wait
  deriving DecidableEq, Repr

end Sys2Proof
end

