-- ==== Sys2Proof/Decode.lean ====
section
/-! DEFINITION. The decoder, total on every 32-bit command word, and the encoder, both from the one format and the
opcode map of spec/30_encoding.md R80 to R84. -/

namespace Sys2Proof

/-- Why a word is no command (30_encoding.md R84). -/
inductive DecodeReject where
  /-- RSV, bits 23:16, is not zero; checked first (60_exceptions.md R202). -/
  | reservedNonzero
  /-- OP, bits 31:24, is not one of the twelve of R82. -/
  | opcodeUnassigned
  deriving DecidableEq, Repr

/-- OP = PEND[31:24] (30_encoding.md R81). -/
def opField (w : Word) : BitVec 8 := w.extractLsb' 24 8

/-- RSV = PEND[23:16] (30_encoding.md R81). -/
def rsvField (w : Word) : BitVec 8 := w.extractLsb' 16 8

/-- IMM16 = PEND[15:0] (30_encoding.md R81). -/
def immField (w : Word) : BitVec 16 := w.extractLsb' 0 16

/-- sym = IMM16[7:0] (30_encoding.md R81). -/
def symField (w : Word) : Symbol := w.extractLsb' 0 8

/-- len = IMM16[15:8] (30_encoding.md R81). -/
def lenField (w : Word) : BitVec 8 := w.extractLsb' 8 8

/-- The command a word selects, or why it selects none (30_encoding.md R82 to R84; 40_command_control.md R100). -/
def decode (w : Word) : Except DecodeReject Instr :=
  if rsvField w ≠ 0 then .error .reservedNonzero
  else if opField w = 0x00 then .ok (.nop (immField w))
  else if opField w = 0x10 then .ok (.clearWeights (immField w))
  else if opField w = 0x11 then .ok (.buildTree (immField w))
  else if opField w = 0x12 then .ok (.nodeRead (immField w))
  else if opField w = 0x20 then .ok (.tableClear (immField w))
  else if opField w = 0x21 then .ok (.genTable (immField w))
  else if opField w = 0x22 then .ok (.tableWrite (symField w) (lenField w))
  else if opField w = 0x23 then .ok (.tableDelete (symField w) (lenField w))
  else if opField w = 0x24 then .ok (.tableRead (symField w) (lenField w))
  else if opField w = 0x30 then .ok (.bitbufClear (immField w))
  else if opField w = 0x31 then .ok (.bitbufAppend (immField w))
  else if opField w = 0x32 then .ok (.decode (immField w))
  else .error .opcodeUnassigned

/-- The command read from a word numbered as spec/opcode_table.json numbers it. A command is one 32-bit bus word, so no
byte order enters (30_encoding.md R80; 20_memory.md R68; log 14). -/
def decodeTableWord (nbits w : Nat) : Option Instr :=
  match decode (BitVec.ofNat 32 (w % 2 ^ nbits)) with
  | .ok i => some i
  | .error _ => none

/-- OP of each command (30_encoding.md R82). -/
def opcode : Instr → BitVec 8
  | .nop _ => 0x00
  | .clearWeights _ => 0x10
  | .buildTree _ => 0x11
  | .nodeRead _ => 0x12
  | .tableClear _ => 0x20
  | .genTable _ => 0x21
  | .tableWrite _ _ => 0x22
  | .tableDelete _ _ => 0x23
  | .tableRead _ _ => 0x24
  | .bitbufClear _ => 0x30
  | .bitbufAppend _ => 0x31
  | .decode _ => 0x32

/-- IMM16 of each command (30_encoding.md R81). -/
def immediate : Instr → BitVec 16
  | .nop u | .clearWeights u | .buildTree u | .tableClear u | .genTable u | .bitbufClear u | .decode u => u
  | .nodeRead id => id
  | .bitbufAppend n => n
  | .tableWrite sym len => len ++ sym
  | .tableDelete sym u | .tableRead sym u => u ++ sym

/-- The word of a command: OP, RSV = 0, IMM16 (30_encoding.md R80). -/
def encode (i : Instr) : Word := opcode i ++ (0 : BitVec 8) ++ immediate i

end Sys2Proof
end

