-- ==== Sys2Proof/Config.lean ====
section
/-! DEFINITION. What an instance of huffman_block fixes, and the free values: constants with no body that
stand for every value the spec leaves open (spec/00_scope.md R7, R13; spec/93_implementation_defined.md). -/

namespace Sys2Proof

/-- The two parameters the spec leaves to the instance (00_scope.md R7). -/
structure Params where
  /-- BITBUF_BITS: the capacity of the input bit buffer in bits, and of the output buffer in bytes. -/
  bitbufBits : Nat
  /-- ARENA_DEPTH: the number of search states the decoder can hold. -/
  arenaDepth : Nat
  deriving DecidableEq, Repr

/-- The values R7 allows the two parameters (00_scope.md R7). -/
def Params.legal (p : Params) : Bool :=
  p.bitbufBits % 32 == 0 && decide (32 ≤ p.bitbufBits) && decide (p.bitbufBits ≤ 32768) &&
    decide (p.bitbufBits + 1 ≤ p.arenaDepth) && decide (p.arenaDepth ≤ 2 ^ 20)

/-- The defaults of 00_scope.md R7. -/
def Params.default : Params := { bitbufBits := 4096, arenaDepth := 8192 }

/-- FREE VALUE. DESIGN CHOICE, log 3: what W[s] holds from reset number `n` until its first write
(10_state.md R34; 00_scope.md R13; U5). Arguments: `n`, then `s`. -/
opaque Config.resetWeight : Nat → Nat → Word

/-- FREE VALUE. DESIGN CHOICE, log 4: LW[s] from reset number `n` until its first write (10_state.md R35; U7). -/
opaque Config.resetLeafWeight : Nat → Nat → Word

/-- FREE VALUE. DESIGN CHOICE, log 4: IN[k].weight from reset number `n` until its first write (10_state.md R36; U7). -/
opaque Config.resetNodeWeight : Nat → Nat → NodeWeight

/-- FREE VALUE. DESIGN CHOICE, log 4: IN[k].left from reset number `n` until its first write (10_state.md R36; U7). -/
opaque Config.resetNodeLeft : Nat → Nat → NodeId

/-- FREE VALUE. DESIGN CHOICE, log 4: IN[k].right from reset number `n` until its first write (10_state.md R36; U7). -/
opaque Config.resetNodeRight : Nat → Nat → NodeId

/-- FREE VALUE. DESIGN CHOICE, log 4: BITS[j] from reset number `n` until its first write (10_state.md R40; U7). -/
opaque Config.resetBit : Nat → Nat → Bool

/-- FREE VALUE. DESIGN CHOICE, log 4: OUT[i] from reset number `n` until its first write (10_state.md R41; U7). -/
opaque Config.resetByte : Nat → Nat → Byte

/-- FREE VALUE. DESIGN CHOICE, log 6: the word that the `n`-th read left open by 40_command_control.md R105
returns (00_scope.md R13; U6). -/
opaque Config.busyRead : Nat → Word

end Sys2Proof
end

