-- ==== Sys2Proof/Machine/State.lean ====
section
/-! DEFINITION. Every state element of spec/10_state.md R20 to R43, with the environment's plain data beside it, and the
state after reset (spec/70_reset_and_hazards.md R231). -/

namespace Sys2Proof.Machine

/-- The result codes of 60_exceptions.md R200. Codes 9 to 15 are reserved and never produced, so the type has none
(U14; log 16). -/
inductive ErrCode where
  | none | emptyAlphabet | decodeError | unknownSymbol | illegalCommand | badOperand | noTree | bufferFull | arenaOverflow
  deriving DecidableEq, Repr

/-- CTRL (10_state.md R24). Bits 31:2 have no storage. -/
structure Ctrl where
  irqEn : Bool
  degen1bit : Bool
  deriving DecidableEq, Repr

/-- STATUS (10_state.md R25). The reserved bits have no storage. -/
structure Status where
  busy : Bool
  done : Bool
  cmdLost : Bool
  wrIgnored : Bool
  err : ErrCode
  deriving DecidableEq, Repr

/-- TREE (10_state.md R27). -/
structure TreeReg where
  root : NodeId
  nodeCount : BitVec 8
  valid : Bool
  deriving DecidableEq, Repr

/-- An entry of the internal node store IN (10_state.md R36). -/
structure Node where
  weight : NodeWeight
  left : NodeId
  right : NodeId
  deriving DecidableEq, Repr

/-- An entry of the ARENA (10_state.md R42). -/
structure ArenaEntry where
  pos : BitVec 16
  parent : BitVec 20
  sym : Symbol
  depth : BitVec 16
  deriving DecidableEq, Repr

/-- A store: its written entries as (index, value), indexes strictly rising (`Memory.wf` in Ops.lean). An index that is
not listed has not been written since reset and holds the free value that the store's read operation names
(93_implementation_defined.md U5, U7; logs 3 and 4). The byte store OUT is a list of `Host.Cell`. -/
abbrev Memory (α : Type) := List (Nat × α)

/-- Which agent moves in the next step (00_scope.md R9; 70_reset_and_hazards.md R230; log 2). -/
inductive Turn where
  /-- The host makes its next access. -/
  | host
  /-- The engine makes its completion step. -/
  | engine
  /-- A clock edge with rst_n = 0. `access` says whether the host also makes its next access in that cycle. -/
  | reset (access : Bool)
  deriving DecidableEq, Repr

/-- The whole machine. -/
structure State where
  /-- BITBUF_BITS and ARENA_DEPTH (00_scope.md R7): configuration, written by no step (log 1). -/
  params : Params
  /-- CTRL (10_state.md R24). -/
  ctrl : Ctrl
  /-- STATUS (10_state.md R25). -/
  status : Status
  /-- ARG0 (10_state.md R21). -/
  arg0 : Word
  /-- RES0 (10_state.md R21). -/
  res0 : Word
  /-- RES1 (10_state.md R21). -/
  res1 : Word
  /-- TREE (10_state.md R27). -/
  tree : TreeReg
  /-- BIT_LEN (10_state.md R29). -/
  bitLen : BitVec 16
  /-- OUT_LEN (10_state.md R30). -/
  outLen : BitVec 16
  /-- ARENA_USED (10_state.md R30). -/
  arenaUsed : BitVec 21
  /-- CODE_STAGE[0..7] (10_state.md R32). -/
  codeStage : Vector Word 8
  /-- CODE_OUT[0..7] (10_state.md R33). -/
  codeOut : Vector Word 8
  /-- The weight RAM W (10_state.md R34). -/
  w : Memory Word
  /-- The leaf store LW (10_state.md R35). -/
  lw : Memory Word
  /-- The internal node store IN (10_state.md R36). -/
  nodes : Memory Node
  /-- The code table ROM (10_state.md R38): symbol s is listed exactly when V[s] = 1, with CODE[s]; LEN[s] is its
  length (log 5). -/
  table : Memory BitString
  /-- The input bit buffer BITS (10_state.md R40). -/
  bits : Memory Bool
  /-- The output byte buffer OUT (10_state.md R41). -/
  out : Memory Byte
  /-- The decoder's ARENA (10_state.md R42). -/
  arena : Memory ArenaEntry
  /-- PEND, the pending command word (10_state.md R43). -/
  pend : Word
  /-- The host's statements not yet finished (30_encoding.md R90; log 11). -/
  prog : List HostStmt
  /-- The values the host's `read` statements have bound, newest first (30_encoding.md R90; log 11). -/
  reads : List Word
  /-- Which agents move next (log 2). -/
  turns : List Turn
  /-- MODEL: how many resets came before the present contents (log 3). -/
  resets : Nat
  /-- MODEL: how many reads left open by 40_command_control.md R105 have been drawn (log 6). -/
  draws : Nat
  deriving DecidableEq, Repr

/-- Nothing stops the machine: every access completes (20_memory.md R60, R67), every word has a defined outcome
(30_encoding.md R84) and every command completes (40_command_control.md R104). So there is no fault to name, and a
step never answers with one (log 17). -/
inductive Fault where
  deriving DecidableEq, Repr

/-- Why the model gives an instruction no meaning. -/
inductive Refusal where
  /-- Raised by an arm of `exec` that has no meaning yet; safe, since nothing is then claimed of the instruction.
  Every command of the opcode table has its meaning, so no arm raises it. -/
  | notModelled (mnemonic : String)
  deriving DecidableEq, Repr

/-- The block right after reset number `n` (70_reset_and_hazards.md R231, R232), with an empty environment. The stores
R231 leaves unspecified list nothing: every entry holds its free value (logs 3 and 4). -/
def State.afterReset (p : Params) (n : Nat) : State where
  params := p
  ctrl := { irqEn := false, degen1bit := false }
  status := { busy := false, done := false, cmdLost := false, wrIgnored := false, err := .none }
  arg0 := 0
  res0 := 0
  res1 := 0
  tree := { root := 0, nodeCount := 0, valid := false }
  bitLen := 0
  outLen := 0
  arenaUsed := 0
  codeStage := Vector.replicate 8 0
  codeOut := Vector.replicate 8 0
  w := []
  lw := []
  nodes := []
  table := []
  bits := []
  out := []
  arena := []
  pend := 0
  prog := []
  reads := []
  turns := []
  resets := n
  draws := 0

/-- The machine right after reset, with the default parameters (00_scope.md R7; 70_reset_and_hazards.md R231). -/
def State.reset : State := State.afterReset Params.default 0

end Sys2Proof.Machine
end

