-- ==== Sys2Proof/Machine/Flags.lean ====
section
/-! DEFINITION. The STATUS flags: the code numbers of ERR, the STATUS word, its write-one-to-clear bits, what acceptance
and completion do to the flags, and the interrupt output (spec/10_state.md R24, R25; spec/60_exceptions.md R200, R205). -/

namespace Sys2Proof.Machine

/-- The number of a result code (60_exceptions.md R200). -/
def ErrCode.number : ErrCode → BitVec 4
  | .none => 0
  | .emptyAlphabet => 1
  | .decodeError => 2
  | .unknownSymbol => 3
  | .illegalCommand => 4
  | .badOperand => 5
  | .noTree => 6
  | .bufferFull => 7
  | .arenaOverflow => 8

/-- The word a read of STATUS returns: ERR in 11:8, WR_IGNORED 3, CMD_LOST 2, DONE 1, BUSY 0 (10_state.md R25). -/
def Status.toWord (t : Status) : Word :=
  (0 : BitVec 20) ++ t.err.number ++ (0 : BitVec 4) ++ BitVec.ofBool t.wrIgnored ++ BitVec.ofBool t.cmdLost ++
    BitVec.ofBool t.done ++ BitVec.ofBool t.busy

/-- The word a read of CTRL returns (10_state.md R24). -/
def Ctrl.toWord (c : Ctrl) : Word := (0 : BitVec 30) ++ BitVec.ofBool c.degen1bit ++ BitVec.ofBool c.irqEn

/-- What a write of CTRL stores: bits 0 and 1; the others are ignored (10_state.md R24). -/
def Ctrl.ofWord (v : Word) : Ctrl := { irqEn := v.getLsbD 0, degen1bit := v.getLsbD 1 }

/-- A STATUS write clears each W1C bit whose written bit is 1 and ignores every other written bit (10_state.md R25). -/
def Status.clearOnes (t : Status) (v : Word) : Status :=
  { t with
    done := t.done && !v.getLsbD 1
    cmdLost := t.cmdLost && !v.getLsbD 2
    wrIgnored := t.wrIgnored && !v.getLsbD 3 }

/-- The flags after acceptance: BUSY set, DONE cleared, the rest kept (40_command_control.md R101). -/
def Status.accepted (t : Status) : Status := { t with busy := true, done := false }

/-- The flags after completion with a code: ERR written, BUSY cleared, DONE set (40_command_control.md R104). -/
def Status.completed (t : Status) (code : ErrCode) : Status := { t with err := code, busy := false, done := true }

/-- irq = STATUS.DONE AND CTRL.IRQ_EN, a level (60_exceptions.md R205). -/
def State.irq (s : State) : Bool := s.status.done && s.ctrl.irqEn

end Sys2Proof.Machine
end

