-- ==== Sys2Proof/Machine/Ops.lean ====
section
/-! DEFINITION. The named operations over stores and registers, and the command lifecycle: acceptance, and completion
with a result code, which is the block's only exception (spec/40_command_control.md R101 to R104;
spec/60_exceptions.md R204, R206). -/

namespace Sys2Proof.Machine

/-! ### Stores -/

/-- The canonical form of a store: indexes strictly rising (log 4). -/
abbrev Memory.wf {α : Type} (m : Memory α) : Prop := m.Pairwise (fun p q => p.1 < q.1)

/-- The value written at an index, if any has been written. -/
def Memory.read {α : Type} : Memory α → Nat → Option α
  | [], _ => none
  | (b, x) :: rest, a => if b = a then some x else Memory.read rest a

/-- Write one entry, keeping the indexes in order. -/
def Memory.write {α : Type} : Memory α → Nat → α → Memory α
  | [], a, x => [(a, x)]
  | (b, y) :: rest, a, x =>
    if a < b then (a, x) :: (b, y) :: rest
    else if a = b then (a, x) :: rest
    else (b, y) :: Memory.write rest a x

/-- Remove one entry (used by the code table, where an unlisted symbol has V = 0). -/
def Memory.erase {α : Type} (m : Memory α) (a : Nat) : Memory α := m.filter (fun p => p.1 != a)

/-- Write consecutive entries from an index on. -/
def Memory.writeRun {α : Type} : Memory α → Nat → List α → Memory α
  | m, _, [] => m
  | m, a, x :: xs => Memory.writeRun (m.write a x) (a + 1) xs

/-- The symbols in ascending order: `for s in 0..255` (00_scope.md R12). -/
def allSymbols : List Symbol := (List.range 256).map (BitVec.ofNat 8)

/-- W[s] (10_state.md R34); a weight not written since reset holds its free value (00_scope.md R13; log 3). -/
def State.weight (s : State) (x : Symbol) : Word := (s.w.read x.toNat).getD (Config.resetWeight s.resets x.toNat)

/-- LW[s] (10_state.md R35; log 4). -/
def State.leafWeight (s : State) (x : Symbol) : Word :=
  (s.lw.read x.toNat).getD (Config.resetLeafWeight s.resets x.toNat)

/-- IN[k] (10_state.md R36; log 4). -/
def State.node (s : State) (k : Nat) : Node :=
  (s.nodes.read k).getD
    { weight := Config.resetNodeWeight s.resets k
      left := Config.resetNodeLeft s.resets k
      right := Config.resetNodeRight s.resets k }

/-- CODE[s] when V[s] = 1, else none (10_state.md R38; log 5). -/
def State.code (s : State) (x : Symbol) : Option BitString := s.table.read x.toNat

/-- BITS[j] (10_state.md R40; log 4). -/
def State.bit (s : State) (j : Nat) : Bool := (s.bits.read j).getD (Config.resetBit s.resets j)

/-- OUT[i] (10_state.md R41; log 4). -/
def State.outByte (s : State) (i : Nat) : Byte := (s.out.read i).getD (Config.resetByte s.resets i)

/-- maxCodeLength = max of LEN[s] over the valid entries, 0 when there is none (10_state.md R28). -/
def State.maxLen (s : State) : Nat :=
  allSymbols.foldl (fun m x => match s.code x with | some c => max m c.length | none => m) 0

/-- W[s] <- v (20_memory.md R64). -/
def State.setWeight (s : State) (x : Symbol) (v : Word) : State := { s with w := s.w.write x.toNat v }

/-- V[s] <- 1; LEN[s] <- |c|; CODE[s] <- c (10_state.md R38). -/
def State.setCode (s : State) (x : Symbol) (c : BitString) : State := { s with table := s.table.write x.toNat c }

/-! ### The command lifecycle -/

/-- `finish(code)`: STATUS.ERR <- code and the completion of 40_command_control.md R104 (00_scope.md R12). -/
def State.finish (s : State) (code : ErrCode) : State := { s with status := s.status.completed code }

/-- `raise E` means `finish(E)`: the block's only "trap". It saves nothing beyond ERR, changes no mode and transfers no
control (00_scope.md R12; 60_exceptions.md R204). -/
def State.raise (s : State) (e : ErrCode) : State := s.finish e

/-- Acceptance of a command word: PEND <- w; BUSY <- 1; DONE <- 0 and nothing else (40_command_control.md R101). -/
def State.accept (s : State) (word : Word) : State := { s with pend := word, status := s.status.accepted }

/-- A CMD write while BUSY = 1: CMD_LOST <- 1 and nothing else (40_command_control.md R102). -/
def State.loseCommand (s : State) : State := { s with status := { s.status with cmdLost := true } }

/-- A write ignored while BUSY = 1: WR_IGNORED <- 1 and nothing else (40_command_control.md R103). -/
def State.ignoreWrite (s : State) : State := { s with status := { s.status with wrIgnored := true } }

/-- A STATUS write, the host's acknowledgement of a completion: there is no other return from the block's trap
(10_state.md R25; 60_exceptions.md R206). -/
def State.writeStatus (s : State) (v : Word) : State := { s with status := s.status.clearOnes v }

/-- An illegal command: ILLEGAL_COMMAND and no other state change (40_command_control.md R107). -/
def State.illegalCommand (s : State) : State := s.raise .illegalCommand

/-- A read left open by 40_command_control.md R105: a fresh free value (00_scope.md R13; log 6). -/
def State.draw (s : State) : Word × State := (Config.busyRead s.draws, { s with draws := s.draws + 1 })

/-- The block's part of a clock edge with rst_n = 0 (70_reset_and_hazards.md R230, R231): every element gets its reset
value, the unspecified contents are fresh, a pending command is abandoned. The environment goes on. -/
def State.resetEdge (s : State) : State :=
  { State.afterReset s.params (s.resets + 1) with
    prog := s.prog, reads := s.reads, turns := s.turns, draws := s.draws }

end Sys2Proof.Machine
end

