-- ==== Sys2Proof/Machine/Operands.lean ====
section
/-! DEFINITION. The operand forms: node ids and weights, the staged and read-out bit strings, the bits of ARG0, and the
layout of the result registers (spec/30_encoding.md R81; spec/10_state.md R27, R32, R33; spec/41_tree_builder.md R120,
R125; spec/42_code_table_rom.md R144, R146). -/

namespace Sys2Proof.Machine

/-- Is the node id a leaf's? Ids 0 to 255 are the leaves (41_tree_builder.md R120). -/
def isLeaf (id : NodeId) : Bool := decide (id.toNat < 256)

/-- The symbol of a leaf's node id (41_tree_builder.md R120). -/
def leafSymbol (id : NodeId) : Symbol := id.setWidth 8

/-- The node id of the leaf of a symbol (41_tree_builder.md R120). -/
def leafId (x : Symbol) : NodeId := x.setWidth 9

/-- The node id 256 + k of the internal node of merge number k (41_tree_builder.md R120). -/
def internalId (k : Nat) : NodeId := BitVec.ofNat 9 (256 + k)

/-- nw(id): zext_40(LW[id]) of a leaf, IN[id − 256].weight of an internal node (41_tree_builder.md R120). -/
def State.nodeWeight (s : State) (id : NodeId) : NodeWeight :=
  if isLeaf id then (s.leafWeight (leafSymbol id)).setWidth 40 else (s.node (id.toNat - 256)).weight

/-- The word of 32 given bits, bit k at position k (20_memory.md R68). -/
def wordOfBits (f : Nat → Bool) : Word := BitVec.ofFnLE (fun k : Fin 32 => f k.val)

/-- Staged bit i: CODE_STAGE[i >> 5][i & 31] (10_state.md R32). -/
def State.stagedBit (s : State) (i : Nat) : Bool := (s.codeStage.getD (i / 32) 0).getLsbD (i % 32)

/-- The staged bits 0..len−1 (42_code_table_rom.md R144). -/
def State.stagedCode (s : State) (len : Nat) : BitString := (List.range len).map s.stagedBit

/-- CODE_OUT for a code: bit i at word i >> 5, bit i & 31, and 0 at and above the code's length
(10_state.md R33; 42_code_table_rom.md R146). -/
def packCode (c : BitString) : Vector Word 8 :=
  Vector.ofFn (fun k : Fin 8 => wordOfBits (fun i => c.getD (32 * k.val + i) false))

/-- The first n bits of ARG0, bit 0 the earliest (43_decoder_fsm.md R161). -/
def State.argBits (s : State) (n : Nat) : BitString := (List.range n).map s.arg0.getLsbD

/-- RES0 for a table entry: bit 31 = 1, bits 30:8 = 0, bits 7:0 = LEN (42_code_table_rom.md R146). -/
def tableReadWord (c : BitString) : Word := (1 : BitVec 1) ++ (0 : BitVec 23) ++ BitVec.ofNat 8 c.length

/-- RES0 for an internal node: its weight's bits 31:0 (41_tree_builder.md R125). -/
def nodeWordLow (e : Node) : Word := e.weight.extractLsb' 0 32

/-- RES1 for an internal node: bit 31 = 1, 30:26 = 0, 25:17 = right, 16:8 = left, 7:0 = weight[39:32]
(41_tree_builder.md R125). -/
def nodeWordHigh (e : Node) : Word :=
  (1 : BitVec 1) ++ (0 : BitVec 5) ++ e.right ++ e.left ++ e.weight.extractLsb' 32 8

/-- The TREE register's word: TREE_VALID 31, NODE_COUNT 23:16, ROOT 8:0 (10_state.md R27). -/
def TreeReg.toWord (t : TreeReg) : Word :=
  BitVec.ofBool t.valid ++ (0 : BitVec 7) ++ t.nodeCount ++ (0 : BitVec 7) ++ t.root

/-- Word j of the BITBUF window: BITS[32j + k] at bit k where 32j + k < BIT_LEN, else 0 (20_memory.md R65). -/
def State.bitbufWord (s : State) (j : Nat) : Word :=
  wordOfBits (fun k => decide (32 * j + k < s.bitLen.toNat) && s.bit (32 * j + k))

/-- OUT[i] as the OUTBUF window shows it: 0 at and above OUT_LEN (20_memory.md R66). -/
def State.shownByte (s : State) (i : Nat) : Byte := if i < s.outLen.toNat then s.outByte i else 0

/-- Word j of the OUTBUF window, little-endian (20_memory.md R66, R68). -/
def State.outbufWord (s : State) (j : Nat) : Word :=
  s.shownByte (4 * j + 3) ++ s.shownByte (4 * j + 2) ++ s.shownByte (4 * j + 1) ++ s.shownByte (4 * j)

end Sys2Proof.Machine
end

