-- ==== Sys2Proof/Machine/Bus.lean ====
section
/-! DEFINITION. The bus: the address map, reads and writes, the host's steps and a cycle in reset
(spec/20_memory.md R60 to R71; spec/40_command_control.md R101 to R105; spec/70_reset_and_hazards.md R230). -/

namespace Sys2Proof.Machine

/-- What a word of the address space is (20_memory.md R62). -/
inductive Region where
  | id | ctrl | status | cmd | arg0 | res0 | res1 | tree | maxlen | bitLen | outLen | arenaUsed | param0 | param1
  | codeStage (k : Fin 8)
  | codeOut (k : Fin 8)
  | weight (s : Symbol)
  | bitbuf (j : Nat)
  | outbuf (j : Nat)
  | unmapped
  deriving DecidableEq, Repr

/-- The byte address of the word an access moves: addr & 0xFFFC (20_memory.md R61, R63). -/
def wordAddress (a : Addr) : Nat := (a &&& 0xFFFC).toNat

/-- The address map on word addresses (20_memory.md R62). -/
def regionAt (p : Params) (n : Nat) : Region :=
  if n = 0x000 then .id
  else if n = 0x004 then .ctrl
  else if n = 0x008 then .status
  else if n = 0x00C then .cmd
  else if n = 0x010 then .arg0
  else if n = 0x014 then .res0
  else if n = 0x018 then .res1
  else if n = 0x01C then .tree
  else if n = 0x020 then .maxlen
  else if n = 0x024 then .bitLen
  else if n = 0x028 then .outLen
  else if n = 0x02C then .arenaUsed
  else if n = 0x030 then .param0
  else if n = 0x034 then .param1
  else if 0x040 ≤ n ∧ n ≤ 0x05F then .codeStage (Fin.ofNat 8 ((n - 0x040) / 4))
  else if 0x060 ≤ n ∧ n ≤ 0x07F then .codeOut (Fin.ofNat 8 ((n - 0x060) / 4))
  else if 0x400 ≤ n ∧ n ≤ 0x7FF then .weight (BitVec.ofNat 8 ((n - 0x400) / 4))
  else if 0x1000 ≤ n ∧ n < 0x1000 + p.bitbufBits / 8 then .bitbuf ((n - 0x1000) / 4)
  else if 0x8000 ≤ n ∧ n < 0x8000 + p.bitbufBits then .outbuf ((n - 0x8000) / 4)
  else .unmapped

/-- What the word at an address is (20_memory.md R61, R62). -/
def State.regionOf (s : State) (a : Addr) : Region := regionAt s.params (wordAddress a)

/-- The value a word's rule gives it (20_memory.md R62 to R67; 10_state.md R21 to R33). -/
def State.valueAt (s : State) : Region → Word
  | .id => 0x48554631
  | .ctrl => s.ctrl.toWord
  | .status => s.status.toWord
  | .cmd => 0
  | .arg0 => s.arg0
  | .res0 => s.res0
  | .res1 => s.res1
  | .tree => s.tree.toWord
  | .maxlen => BitVec.ofNat 32 s.maxLen
  | .bitLen => s.bitLen.setWidth 32
  | .outLen => s.outLen.setWidth 32
  | .arenaUsed => s.arenaUsed.setWidth 32
  | .param0 => BitVec.ofNat 32 s.params.bitbufBits
  | .param1 => BitVec.ofNat 32 s.params.arenaDepth
  | .codeStage k => s.codeStage[k]
  | .codeOut k => s.codeOut[k]
  | .weight x => s.weight x
  | .bitbuf j => s.bitbufWord j
  | .outbuf j => s.outbufWord j
  | .unmapped => 0

/-- The words whose read while BUSY = 1 returns the value their rule gives; every other read is left open
(40_command_control.md R105). -/
def Region.stableWhileBusy : Region → Bool
  | .id | .ctrl | .status | .arg0 | .codeStage _ | .param0 | .param1 | .cmd | .unmapped => true
  | .res0 | .res1 | .tree | .maxlen | .bitLen | .outLen | .arenaUsed | .codeOut _ | .weight _ | .bitbuf _ | .outbuf _ =>
    false

/-- MemRead(addr, 4): the value and the state, which a read changes only by the model's own draw
(20_memory.md R61, R69; 40_command_control.md R105). -/
def State.memRead (s : State) (a : Addr) : Word × State :=
  if s.status.busy && !(s.regionOf a).stableWhileBusy then s.draw else (s.valueAt (s.regionOf a), s)

/-- A write to a word other than STATUS and CMD while BUSY = 0: the read-write words take the value, the others ignore
it (20_memory.md R62, R64, R67; 10_state.md R21, R24, R32). -/
def State.writeIdle (s : State) (v : Word) : Region → State
  | .ctrl => { s with ctrl := Ctrl.ofWord v }
  | .arg0 => { s with arg0 := v }
  | .codeStage k => { s with codeStage := s.codeStage.set k v }
  | .weight x => s.setWeight x v
  | .id | .status | .cmd | .res0 | .res1 | .tree | .maxlen | .bitLen | .outLen | .arenaUsed | .param0 | .param1
  | .codeOut _ | .bitbuf _ | .outbuf _ | .unmapped => s

/-- MemWrite(addr, 4, v): STATUS is always honoured, CMD is accepted or lost, any other write is ignored while BUSY = 1
(40_command_control.md R101 to R103). -/
def State.memWrite (s : State) (a : Addr) (v : Word) : State :=
  match s.regionOf a with
  | .status => s.writeStatus v
  | .cmd => if s.status.busy then s.loseCommand else s.accept v
  | r => if s.status.busy then s.ignoreWrite else s.writeIdle v r

/-- STATUS's address (20_memory.md R62). -/
def statusAddr : Addr := 0x008

/-- One access of the host program: the next statement's bus access. A `wait` reads STATUS and stays until it reads
BUSY = 0 (30_encoding.md R90). A program that has ended makes no access (log 11). -/
def State.hostStep (s : State) : State :=
  match s.prog with
  | [] => s
  | .write a v :: rest => { s with prog := rest }.memWrite a v
  | .read a :: rest => { (s.memRead a).2 with prog := rest, reads := (s.memRead a).1 :: s.reads }
  | .wait :: rest => if (s.memRead statusAddr).1.getLsbD 0 then s else { s with prog := rest }

/-- The host's access in a cycle with rst_n = 0: it has no effect, and a read returns 0
(70_reset_and_hazards.md R230; U10; log 13). -/
def State.hostStepInReset (s : State) : State :=
  match s.prog with
  | [] => s
  | .write _ _ :: rest => { s with prog := rest }
  | .read _ :: rest => { s with prog := rest, reads := 0 :: s.reads }
  | .wait :: rest => { s with prog := rest }

/-- A clock edge with rst_n = 0, with or without a host access in that cycle (70_reset_and_hazards.md R230). -/
def State.resetStep (s : State) (access : Bool) : State :=
  if access then s.hostStepInReset.resetEdge else s.resetEdge

end Sys2Proof.Machine
end

