-- ==== Sys2Proof/Machine/CodeTable.lean ====
section
/-! DEFINITION. The code table ROM's commands: TABLE_CLEAR, GEN_TABLE, TABLE_WRITE, TABLE_DELETE and TABLE_READ
(spec/42_code_table_rom.md R140 to R146). -/

namespace Sys2Proof.Machine

/-- TABLE_CLEAR: V[s] <- 0 for every s (42_code_table_rom.md R140). -/
def execTableClear (_unused : BitVec 16) (s : State) : Host.Outcome State Fault Refusal :=
  .next ({ s with table := [] }.finish .none)

/-! ### GEN_TABLE -/

/-- The breadth-first loop of 42_code_table_rom.md R141: dequeue (c, n); a leaf records CODE[n] = c, an internal node
enqueues (c ++ "0", left) and (c ++ "1", right). The fuel bounds the dequeues (log 8). -/
def State.genLoop (s : State) : Nat → List (BitString × NodeId) → Memory BitString → Memory BitString
  | 0, _, t => t
  | _ + 1, [], t => t
  | fuel + 1, (c, n) :: q, t =>
    if isLeaf n then State.genLoop s fuel q (t.write (leafSymbol n).toNat c)
    else
      State.genLoop s fuel
        (q ++ [(c ++ [false], (s.node (n.toNat - 256)).left), (c ++ [true], (s.node (n.toNat - 256)).right)]) t

/-- A tree has at most 511 nodes, and the loop dequeues each node once (00_scope.md R8; log 8). -/
def genFuel : Nat := 511

/-- The generated table, the degenerate policy included: when NODE_COUNT = 0 and DEGEN_1BIT = 1 the single leaf's code
is "0" (42_code_table_rom.md R141, R142). -/
def State.generatedTable (s : State) : Memory BitString :=
  if s.tree.nodeCount = 0 ∧ s.ctrl.degen1bit = true then
    (s.genLoop genFuel [([], s.tree.root)] []).write (leafSymbol s.tree.root).toNat [false]
  else s.genLoop genFuel [([], s.tree.root)] []

/-- GEN_TABLE (42_code_table_rom.md R141). -/
def State.genTable (s : State) : State :=
  if s.tree.valid = false then s.raise .noTree else { s with table := s.generatedTable }.finish .none

/-- GEN_TABLE (42_code_table_rom.md R141). -/
def execGenTable (_unused : BitVec 16) (s : State) : Host.Outcome State Fault Refusal := .next s.genTable

/-! ### Host-loaded entries and the lookup port -/

/-- TABLE_WRITE: V[sym] <- 1; LEN[sym] <- len; CODE[sym] <- the staged bits 0..len−1 (42_code_table_rom.md R144). -/
def execTableWrite (sym : Symbol) (len : BitVec 8) (s : State) : Host.Outcome State Fault Refusal :=
  .next ((s.setCode sym (s.stagedCode len.toNat)).finish .none)

/-- TABLE_DELETE: V[sym] <- 0 (42_code_table_rom.md R145). -/
def execTableDelete (sym : Symbol) (_unused : BitVec 8) (s : State) : Host.Outcome State Fault Refusal :=
  .next ({ s with table := s.table.erase sym.toNat }.finish .none)

/-- TABLE_READ: the entry's length and packed code, or zeros and UNKNOWN_SYMBOL (42_code_table_rom.md R146). -/
def State.tableRead (s : State) (sym : Symbol) : State :=
  match s.code sym with
  | some c => { s with res0 := tableReadWord c, codeOut := packCode c }.finish .none
  | none => { s with res0 := 0, codeOut := Vector.replicate 8 0 }.raise .unknownSymbol

/-- TABLE_READ (42_code_table_rom.md R146). -/
def execTableRead (sym : Symbol) (_unused : BitVec 8) (s : State) : Host.Outcome State Fault Refusal :=
  .next (s.tableRead sym)

end Sys2Proof.Machine
end

