-- ==== Sys2Proof/Machine/Control.lean ====
section
/-! DEFINITION. The control command NOP (spec/40_command_control.md R106). An illegal word is no command of `Instr`; its
outcome is `State.illegalCommand` in Ops.lean (R107). -/

namespace Sys2Proof.Machine

/-- NOP does nothing (40_command_control.md R106). -/
def execNop (_unused : BitVec 16) (s : State) : Host.Outcome State Fault Refusal := .next (s.finish .none)

end Sys2Proof.Machine
end

