-- ==== Sys2Proof/Machine/DecoderFsm.lean ====
section
/-! DEFINITION. The decoder's commands: BITBUF_CLEAR, BITBUF_APPEND and DECODE (spec/43_decoder_fsm.md R160 to R168). -/

namespace Sys2Proof.Machine

/-- BITBUF_CLEAR: BIT_LEN <- 0; BITS itself is not rewritten (43_decoder_fsm.md R160). -/
def execBitbufClear (_unused : BitVec 16) (s : State) : Host.Outcome State Fault Refusal :=
  .next ({ s with bitLen := 0 }.finish .none)

/-- BITBUF_APPEND: BAD_OPERAND before BUFFER_FULL, else the n bits of ARG0 at the end (43_decoder_fsm.md R161;
60_exceptions.md R202). -/
def State.bitbufAppend (s : State) (n : BitVec 16) : State :=
  if n.toNat < 1 ∨ 32 < n.toNat then s.raise .badOperand
  else if s.params.bitbufBits < s.bitLen.toNat + n.toNat then s.raise .bufferFull
  else
    { s with
      bits := s.bits.writeRun s.bitLen.toNat (s.argBits n.toNat)
      bitLen := BitVec.ofNat 16 (s.bitLen.toNat + n.toNat) }.finish .none

/-- BITBUF_APPEND (43_decoder_fsm.md R161). -/
def execBitbufAppend (n : BitVec 16) (s : State) : Host.Outcome State Fault Refusal := .next (s.bitbufAppend n)

/-! ### DECODE -/

/-- A search state while DECODE runs: an arena entry before it is stored (10_state.md R42; log 10). -/
structure SearchState where
  pos : Nat
  parent : Nat
  sym : Symbol
  depth : Nat
  deriving DecidableEq, Repr, Inhabited

/-- The entry as the ARENA stores it (10_state.md R42; log 10). -/
def SearchState.entry (e : SearchState) : ArenaEntry :=
  { pos := BitVec.ofNat 16 e.pos
    parent := BitVec.ofNat 20 e.parent
    sym := e.sym
    depth := BitVec.ofNat 16 e.depth }

/-- The seed ARENA[0]: ("", full bit sequence) (43_decoder_fsm.md R162). -/
def seedState : SearchState := { pos := 0, parent := 0, sym := 0, depth := 0 }

/-- The L bits of BITS from pos on. -/
def State.bitsFrom (s : State) (pos len : Nat) : BitString := (List.range len).map (fun i => s.bit (pos + i))

/-- `match(pos, L)`: the lowest symbol whose code is the L bits from pos on, or none (43_decoder_fsm.md R163). -/
def State.matchCode (s : State) (pos len : Nat) : Option Symbol :=
  allSymbols.find? (fun x => s.code x == some (s.bitsFrom pos len))

/-- The inner loop over the prefix lengths: each match enqueues a state, or the arena is full. The error carries the
arena at the overflow (43_decoder_fsm.md R162). -/
def State.expand (s : State) (cur : Nat) (st : SearchState) :
    List Nat → List SearchState → Except (List SearchState) (List SearchState)
  | [], arena => .ok arena
  | len :: rest, arena =>
    match s.matchCode st.pos len with
    | none => State.expand s cur st rest arena
    | some x =>
      if arena.length = s.params.arenaDepth then .error arena
      else State.expand s cur st rest (arena ++ [{ pos := st.pos + len, parent := cur, sym := x, depth := st.depth + 1 }])

/-- The bytes of a state: the symbols along its parent chain, in root-to-state order (10_state.md R42). -/
def chainBytes (arena : List SearchState) : Nat → Nat → List Byte
  | 0, _ => []
  | d + 1, a => chainBytes arena d (arena.getD a seedState).parent ++ [(arena.getD a seedState).sym]

/-- What a search ends with: the result code, the arena's entries and the decoded bytes. -/
structure SearchResult where
  code : ErrCode
  arena : List SearchState
  bytes : List Byte
  deriving DecidableEq, Repr

/-- The lengths 1..min(Lmax, BIT_LEN − pos), in increasing order (43_decoder_fsm.md R162). -/
def State.prefixLengths (s : State) (st : SearchState) : List Nat :=
  List.range' 1 (min s.maxLen (s.bitLen.toNat - st.pos))

/-- The search loop of 43_decoder_fsm.md R162: dequeue ARENA[head], succeed on an empty suffix, else expand. tail is the
arena's length. Each turn dequeues one entry, so ARENA_DEPTH + 1 turns of fuel suffice (Laws/Search.lean; log 9). -/
def State.search (s : State) : Nat → Nat → List SearchState → SearchResult
  | 0, _, arena => { code := .decodeError, arena := arena, bytes := [] }
  | fuel + 1, head, arena =>
    match arena[head]? with
    | none => { code := .decodeError, arena := arena, bytes := [] }
    | some st =>
      if st.pos = s.bitLen.toNat then { code := .none, arena := arena, bytes := chainBytes arena st.depth head }
      else
        match s.expand head st (s.prefixLengths st) arena with
        | .error full => { code := .arenaOverflow, arena := full, bytes := [] }
        | .ok grown => State.search s fuel (head + 1) grown

/-- The search DECODE runs (43_decoder_fsm.md R162). -/
def State.decodeSearch (s : State) : SearchResult := s.search (s.params.arenaDepth + 1) 0 [seedState]

/-- The result written back: OUT[0..depth−1], OUT_LEN, ARENA and ARENA_USED <- tail. On an error there are no bytes, so
OUT_LEN <- 0 and OUT keeps its bytes (43_decoder_fsm.md R162; 60_exceptions.md R200). -/
def State.commitSearch (s : State) (r : SearchResult) : State :=
  { s with
    out := s.out.writeRun 0 r.bytes
    outLen := BitVec.ofNat 16 r.bytes.length
    arena := s.arena.writeRun 0 (r.arena.map SearchState.entry)
    arenaUsed := BitVec.ofNat 21 r.arena.length }.finish r.code

/-- DECODE (43_decoder_fsm.md R162). -/
def execDecode (_unused : BitVec 16) (s : State) : Host.Outcome State Fault Refusal :=
  .next (s.commitSearch s.decodeSearch)

end Sys2Proof.Machine
end

