-- ==== Sys2Proof/Machine/TreeBuilder.lean ====
section
/-! DEFINITION. The tree builder's commands: CLEAR_WEIGHTS, BUILD_TREE and NODE_READ (spec/41_tree_builder.md R120 to
R127). The working list WL is local to BUILD_TREE, as 10_state.md R37 allows (log 7). -/

namespace Sys2Proof.Machine

/-- CLEAR_WEIGHTS: W[s] <- 0 for every s (41_tree_builder.md R121). -/
def execClearWeights (_unused : BitVec 16) (s : State) : Host.Outcome State Fault Refusal :=
  .next ({ s with w := (List.range 256).map (fun k => (k, 0)) }.finish .none)

/-! ### BUILD_TREE -/

/-- LW[s] <- W[s] for every s: the snapshot (41_tree_builder.md R122). -/
def State.snapshotWeights (s : State) : State :=
  { s with lw := allSymbols.map (fun x => (x.toNat, s.weight x)) }

/-- Step 1: the symbols of nonzero weight as leaves, in ascending order (41_tree_builder.md R122). -/
def State.initialList (s : State) : List NodeId := (allSymbols.filter (fun x => s.weight x != 0)).map leafId

/-- nw(WL[i]). -/
def State.weightAt (s : State) (wl : List NodeId) (i : Nat) : NodeWeight := s.nodeWeight (wl.getD i 0)

/-- One step of the left-to-right scan: the candidates (sm, ss) after position i (41_tree_builder.md R123). -/
def State.scanStep (s : State) (wl : List NodeId) (c : Nat × Nat) (i : Nat) : Nat × Nat :=
  if s.weightAt wl i ≤ s.weightAt wl c.1 then (i, c.1)
  else if s.weightAt wl i ≤ s.weightAt wl c.2 then (c.1, i)
  else c

/-- The seed from the first two nodes; index 0 wins a tie (41_tree_builder.md R123). -/
def State.seedPair (s : State) (wl : List NodeId) : Nat × Nat :=
  if s.weightAt wl 0 ≤ s.weightAt wl 1 then (0, 1) else (1, 0)

/-- `select(WL)`: the positions of the smaller and the second-smaller candidate (41_tree_builder.md R123). -/
def State.select (s : State) (wl : List NodeId) : Nat × Nat :=
  (List.range' 2 (wl.length - 2)).foldl (s.scanStep wl) (s.seedPair wl)

/-- `merge(sm, ss, k)` on the node store: IN[k] <- sum of the two weights, smaller left (41_tree_builder.md R124). DESIGN
CHOICE, log 20: every other entry keeps what it held, so after a BUILD_TREE the entries from NODE_COUNT on are an earlier
tree's (or unwritten), where 10_state.md R36 and U8 leave any value. -/
def State.mergeNode (s : State) (wl : List NodeId) (c : Nat × Nat) (k : Nat) : State :=
  { s with
    nodes := s.nodes.write k
      { weight := s.weightAt wl c.1 + s.weightAt wl c.2, left := wl.getD c.1 0, right := wl.getD c.2 0 } }

/-- `merge(sm, ss, k)` on the working list: the new node replaces sm's position, ss's is removed
(41_tree_builder.md R124). -/
def mergeList (wl : List NodeId) (c : Nat × Nat) (k : Nat) : List NodeId := (wl.set c.1 (internalId k)).eraseIdx c.2

/-- Step 3, the loop `while |WL| > 1` (41_tree_builder.md R122). Each turn shortens WL by one, so |WL| turns of fuel
always suffice (Laws/Tree.lean). The result is the state, WL and k. -/
def State.mergeLoop : Nat → State → List NodeId → Nat → State × List NodeId × Nat
  | 0, s, wl, k => (s, wl, k)
  | fuel + 1, s, wl, k =>
    if wl.length ≤ 1 then (s, wl, k)
    else State.mergeLoop fuel (s.mergeNode wl (s.select wl) k) (mergeList wl (s.select wl) k) (k + 1)

/-- The loop's result written to TREE: ROOT <- WL[0]; NODE_COUNT <- k; TREE_VALID <- 1 (41_tree_builder.md R124). -/
def commitTree (r : State × List NodeId × Nat) : State :=
  { r.1 with tree := { root := r.2.1.getD 0 0, nodeCount := BitVec.ofNat 8 r.2.2, valid := true } }

/-- The failure of an empty alphabet: TREE_VALID <- 0; ROOT <- 0; NODE_COUNT <- 0 (41_tree_builder.md R122). -/
def State.dropTree (s : State) : State := { s with tree := { root := 0, nodeCount := 0, valid := false } }

/-- BUILD_TREE on the block's state, before the completion's flags (41_tree_builder.md R122). -/
def State.buildTree (s : State) : State × ErrCode :=
  if s.initialList = [] then (s.snapshotWeights.dropTree, .emptyAlphabet)
  else (commitTree (State.mergeLoop s.initialList.length s.snapshotWeights s.initialList 0), .none)

/-- BUILD_TREE (41_tree_builder.md R122). -/
def execBuildTree (_unused : BitVec 16) (s : State) : Host.Outcome State Fault Refusal :=
  .next (s.buildTree.1.finish s.buildTree.2)

/-! ### NODE_READ -/

/-- NODE_READ (41_tree_builder.md R125). -/
def State.nodeRead (s : State) (id : BitVec 16) : State :=
  if s.tree.valid = false then s.raise .noTree
  else if 256 + s.tree.nodeCount.toNat ≤ id.toNat then s.raise .badOperand
  else if id.toNat < 256 then { s with res0 := s.leafWeight (id.setWidth 8), res1 := 0 }.finish .none
  else { s with res0 := nodeWordLow (s.node (id.toNat - 256)), res1 := nodeWordHigh (s.node (id.toNat - 256)) }.finish .none

/-- NODE_READ (41_tree_builder.md R125). -/
def execNodeRead (id : BitVec 16) (s : State) : Host.Outcome State Fault Refusal := .next (s.nodeRead id)

end Sys2Proof.Machine
end

