-- ==== Sys2Proof/Machine/Dispatch.lean ====
section
/-! DEFINITION. `exec`: the engine runs one command, one arm per constructor of `Instr` (spec/40_command_control.md
R100). -/

namespace Sys2Proof.Machine

def exec (i : Instr) (s : State) : Host.Outcome State Fault Refusal :=
  match i with
  | .nop u => Sys2Proof.Machine.execNop u s
  | .clearWeights u => Sys2Proof.Machine.execClearWeights u s
  | .buildTree u => Sys2Proof.Machine.execBuildTree u s
  | .nodeRead id => Sys2Proof.Machine.execNodeRead id s
  | .tableClear u => Sys2Proof.Machine.execTableClear u s
  | .genTable u => Sys2Proof.Machine.execGenTable u s
  | .tableWrite sym len => Sys2Proof.Machine.execTableWrite sym len s
  | .tableDelete sym u => Sys2Proof.Machine.execTableDelete sym u s
  | .tableRead sym u => Sys2Proof.Machine.execTableRead sym u s
  | .bitbufClear u => Sys2Proof.Machine.execBitbufClear u s
  | .bitbufAppend n => Sys2Proof.Machine.execBitbufAppend n s
  | .decode u => Sys2Proof.Machine.execDecode u s

end Sys2Proof.Machine
end

