-- ==== Sys2Proof/Machine/Step.lean ====
section
/-! DEFINITION. One step of the machine: the agent whose turn it is moves (spec/00_scope.md R9; spec/60_exceptions.md
R203; log 2). -/

namespace Sys2Proof.Machine

/-- The engine's only step, enabled exactly when STATUS.BUSY = 1: completion of PEND (40_command_control.md R100, R104,
R107). -/
def engineStep (s : State) : Host.Outcome State Fault Refusal :=
  if s.status.busy then
    match decode s.pend with
    | .ok i => exec i s
    | .error _ => .next s.illegalCommand
  else .next s

/-- One step. With no turn left in `turns`, the engine moves when a command is pending, else the host makes its next
access (log 2). -/
def step (s : State) : Host.Outcome State Fault Refusal :=
  match s.turns with
  | .engine :: rest => engineStep { s with turns := rest }
  | .host :: rest => .next { s with turns := rest }.hostStep
  | .reset access :: rest => .next ({ s with turns := rest }.resetStep access)
  | [] => if s.status.busy then engineStep s else .next s.hostStep

/-- The state in which the given command word is pending and the engine moves next: an acceptance of that word
(40_command_control.md R101), with the engine's turn first (log 12). -/
def State.withFetchWord (s : State) (nbits w : Nat) : State :=
  { s.accept (BitVec.ofNat 32 (w % 2 ^ nbits)) with turns := .engine :: s.turns }

end Sys2Proof.Machine
end

