-- ==== Sys2Proof/WellFormed.lean ====
section
/-! DEFINITION. Which assembler lines are well formed (spec/30_encoding.md R86, R88, R89). A command term of `Instr`
needs no check: each operand's type is exactly its field of the word, and R84 says every 32-bit word has an outcome. -/

namespace Sys2Proof

/-- "An operand outside its field is an assembly error": id 0..0xFFFF, sym 0..255, len 0..255, n 0..0xFFFF
(30_encoding.md R86). -/
def AsmCmd.wellFormed : AsmCmd → Bool
  | .nop | .clearWeights | .buildTree | .tableClear | .genTable | .bitbufClear | .decode => true
  | .nodeRead id => decide (id ≤ 0xFFFF)
  | .tableWrite sym len => decide (sym ≤ 255) && decide (len ≤ 255)
  | .tableDelete sym => decide (sym ≤ 255)
  | .tableRead sym => decide (sym ≤ 255)
  | .bitbufAppend n => decide (n ≤ 0xFFFF)

/-- The indexes a register name may carry: CODE_STAGE and CODE_OUT have eight words, W has 256, and the windows lie in
the 64 KiB space (20_memory.md R62; 30_encoding.md R89). -/
def RegName.wellFormed : RegName → Bool
  | .codeStage k | .codeOut k => decide (k < 8)
  | .w s => decide (s ≤ 255)
  | .bitbuf j => decide (j < 1024)
  | .outbuf j => decide (j < 8192)
  | _ => true

/-- An address of a host program is a 16-bit byte address (20_memory.md R62). -/
def AddrExpr.wellFormed : AddrExpr → Bool
  | .num n => decide (n ≤ 0xFFFF)
  | .reg r => r.wellFormed

/-- A word written by a host program fits 32 bits, a symbol is a byte, and a staged string "has at most 255 bits"
(30_encoding.md R88, R90). -/
def HostLine.wellFormed : HostLine → Bool
  | .command c | .issue c => c.wellFormed
  | .setw sym v => decide (sym ≤ 255) && decide (v < 2 ^ 32)
  | .stage bits => decide (bits.length ≤ 255)
  | .loadcode sym bits => decide (sym ≤ 255) && decide (bits.length ≤ 255)
  | .append _ => true
  | .setctrl v => decide (v < 2 ^ 32)
  | .ack => true
  | .write a v => a.wellFormed && decide (v < 2 ^ 32)
  | .read a => a.wellFormed
  | .wait => true

end Sys2Proof
end

