-- ==== Sys2Proof/Machine/Assembler.lean ====
section
/-! DEFINITION. From a line of a host program to the accesses it stands for: the command words, the pseudo-instructions,
the register names, and the text of a command line (spec/30_encoding.md R86 to R89). -/

namespace Sys2Proof.Machine

/-- The command of an assembler line; "Ignored operand bits assemble to 0" (30_encoding.md R86). -/
def asmInstr : AsmCmd → Instr
  | .nop => .nop 0
  | .clearWeights => .clearWeights 0
  | .buildTree => .buildTree 0
  | .nodeRead id => .nodeRead (BitVec.ofNat 16 id)
  | .tableClear => .tableClear 0
  | .genTable => .genTable 0
  | .tableWrite sym len => .tableWrite (BitVec.ofNat 8 sym) (BitVec.ofNat 8 len)
  | .tableDelete sym => .tableDelete (BitVec.ofNat 8 sym) 0
  | .tableRead sym => .tableRead (BitVec.ofNat 8 sym) 0
  | .bitbufClear => .bitbufClear 0
  | .bitbufAppend n => .bitbufAppend (BitVec.ofNat 16 n)
  | .decode => .decode 0

/-- The word a command line assembles to, none for an assembly error (30_encoding.md R86). -/
def assemble (c : AsmCmd) : Option Word := if c.wellFormed then some (encode (asmInstr c)) else none

/-- The offset a register name stands for (30_encoding.md R89; 20_memory.md R62). -/
def nameOffset : RegName → Nat
  | .id => 0x000
  | .ctrl => 0x004
  | .status => 0x008
  | .cmd => 0x00C
  | .arg0 => 0x010
  | .res0 => 0x014
  | .res1 => 0x018
  | .tree => 0x01C
  | .maxlen => 0x020
  | .bitLen => 0x024
  | .outLen => 0x028
  | .arenaUsed => 0x02C
  | .param0 => 0x030
  | .param1 => 0x034
  | .codeStage k => 0x040 + 4 * k
  | .codeOut k => 0x060 + 4 * k
  | .w s => 0x400 + 4 * s
  | .bitbuf j => 0x1000 + 4 * j
  | .outbuf j => 0x8000 + 4 * j

/-- The bus address of an address in a host program (30_encoding.md R89). -/
def exprAddr : AddrExpr → Addr
  | .num n => BitVec.ofNat 16 n
  | .reg r => BitVec.ofNat 16 (nameOffset r)

/-- `write` of a named register. -/
def writeReg (r : RegName) (v : Word) : HostStmt := .write (BitVec.ofNat 16 (nameOffset r)) v

/-- The bare `write CMD, <word>` of `issue` (30_encoding.md R87). -/
def issueStmts (c : AsmCmd) : List HostStmt := [writeReg .cmd (encode (asmInstr c))]

/-- A mnemonic alone on a line: `write CMD, <word>` followed by `wait` (30_encoding.md R87). -/
def commandStmts (c : AsmCmd) : List HostStmt := issueStmts c ++ [.wait]

/-- The word k of a packed bit string: bit i of the string is bit (i & 31) of word i >> 5 (30_encoding.md R88). -/
def packedWord (bits : BitString) (k : Nat) : Word := wordOfBits (fun i => bits.getD (32 * k + i) false)

/-- `stage "<bits>"`: eight writes of CODE_STAGE (30_encoding.md R88). -/
def stageStmts (bits : BitString) : List HostStmt :=
  (List.range 8).map (fun k => writeReg (.codeStage k) (packedWord bits k))

/-- Consecutive chunks of 32 bits, the last one shorter; the fuel is the string's length (30_encoding.md R88). -/
def chunksOf32 : Nat → BitString → List BitString
  | 0, _ => []
  | _ + 1, [] => []
  | fuel + 1, b :: bits => (b :: bits).take 32 :: chunksOf32 fuel ((b :: bits).drop 32)

/-- `append "<bits>"`: for each chunk a write of ARG0 and a BITBUF_APPEND (30_encoding.md R88). -/
def appendStmts (bits : BitString) : List HostStmt :=
  (chunksOf32 bits.length bits).flatMap
    (fun c => writeReg .arg0 (packedWord c 0) :: commandStmts (.bitbufAppend c.length))

/-- The statements of a well-formed line (30_encoding.md R87, R88, R90). -/
def lineStmts : HostLine → List HostStmt
  | .command c => commandStmts c
  | .issue c => issueStmts c
  | .setw sym v => [.write (BitVec.ofNat 16 (0x400 + 4 * sym)) (BitVec.ofNat 32 v)]
  | .stage bits => stageStmts bits
  | .loadcode sym bits => stageStmts bits ++ commandStmts (.tableWrite sym bits.length)
  | .append bits => appendStmts bits
  | .setctrl v => [writeReg .ctrl (BitVec.ofNat 32 v)]
  | .ack => [writeReg .status 0x0000000E]
  | .write a v => [.write (exprAddr a) (BitVec.ofNat 32 v)]
  | .read a => [.read (exprAddr a)]
  | .wait => [.wait]

/-- The statements of a host program, none when a line is an assembly error (30_encoding.md R86 to R90). -/
def assembleProgram : List HostLine → Option (List HostStmt)
  | [] => some []
  | l :: rest =>
    if l.wellFormed then (assembleProgram rest).map (fun p => lineStmts l ++ p) else none

/-! ### The text of a command line (30_encoding.md R86; log 18) -/

/-- A token of a command line. -/
inductive Token where
  | word (cs : List Char)
  | charLit (n : Nat)
  | comma
  deriving DecidableEq, Repr

/-- Close the word read so far. -/
def flushWord (acc : List Char) (rest : List Token) : List Token :=
  match acc with
  | [] => rest
  | _ => .word acc :: rest

/-- The tokens of a line: words separated by blanks and commas, and character literals, each "the byte value of the
ASCII character". -/
def lexLine : List Char → List Char → Option (List Token)
  | [], acc => some (flushWord acc [])
  | '\'' :: c :: '\'' :: rest, acc =>
    if acc = [] ∧ c.toNat < 128 then (lexLine rest []).map (fun ts => .charLit c.toNat :: ts) else none
  | ',' :: rest, acc => (lexLine rest []).map (fun ts => flushWord acc (.comma :: ts))
  | c :: rest, acc =>
    if c = ' ' ∨ c = '\t' then (lexLine rest []).map (fun ts => flushWord acc ts) else lexLine rest (acc ++ [c])

/-- The value of a digit in a base up to 16. DESIGN CHOICE, log 18: `_` is no digit and may not stand between digits, on
which 30_encoding.md R86 is silent (00_scope.md R10 allows it in the spec's own hexadecimal constants). -/
def digitValue (base : Nat) (c : Char) : Option Nat :=
  let v :=
    if '0' ≤ c ∧ c ≤ '9' then c.toNat - '0'.toNat
    else if 'a' ≤ c ∧ c ≤ 'f' then c.toNat - 'a'.toNat + 10
    else if 'A' ≤ c ∧ c ≤ 'F' then c.toNat - 'A'.toNat + 10
    else 16
  if v < base then some v else none

/-- The number that digits spell in a base, most significant first. -/
def numberOf (base : Nat) : Nat → List Char → Option Nat
  | n, [] => some n
  | n, c :: cs =>
    match digitValue base c with
    | some d => numberOf base (n * base + d) cs
    | none => none

/-- An operand: a decimal number, a `0x` hexadecimal number or a character literal (30_encoding.md R86). DESIGN CHOICE,
log 18: no `_` between digits, digits of either case, a small `0x`. -/
def operandOf : Token → Option Nat
  | .charLit n => some n
  | .comma => none
  | .word ('0' :: 'x' :: d :: ds) => numberOf 16 0 (d :: ds)
  | .word (d :: ds) => numberOf 10 0 (d :: ds)
  | .word [] => none

/-- The operands of a line, separated by commas. -/
def operandsOf : List Token → Option (List Nat)
  | [] => some []
  | [t] => (operandOf t).map (fun n => [n])
  | t :: .comma :: u :: rest =>
    match operandOf t, operandsOf (u :: rest) with
    | some n, some ns => some (n :: ns)
    | _, _ => none
  | _ => none

/-- The command a mnemonic and its operands name (30_encoding.md R86). -/
def commandOf (m : List Char) (ops : List Nat) : Option AsmCmd :=
  match ops with
  | [] =>
    if m = ['N', 'O', 'P'] then some .nop
    else if m = ['C', 'L', 'E', 'A', 'R', '_', 'W', 'E', 'I', 'G', 'H', 'T', 'S'] then some .clearWeights
    else if m = ['B', 'U', 'I', 'L', 'D', '_', 'T', 'R', 'E', 'E'] then some .buildTree
    else if m = ['T', 'A', 'B', 'L', 'E', '_', 'C', 'L', 'E', 'A', 'R'] then some .tableClear
    else if m = ['G', 'E', 'N', '_', 'T', 'A', 'B', 'L', 'E'] then some .genTable
    else if m = ['B', 'I', 'T', 'B', 'U', 'F', '_', 'C', 'L', 'E', 'A', 'R'] then some .bitbufClear
    else if m = ['D', 'E', 'C', 'O', 'D', 'E'] then some .decode
    else none
  | [a] =>
    if m = ['N', 'O', 'D', 'E', '_', 'R', 'E', 'A', 'D'] then some (.nodeRead a)
    else if m = ['T', 'A', 'B', 'L', 'E', '_', 'D', 'E', 'L', 'E', 'T', 'E'] then some (.tableDelete a)
    else if m = ['T', 'A', 'B', 'L', 'E', '_', 'R', 'E', 'A', 'D'] then some (.tableRead a)
    else if m = ['B', 'I', 'T', 'B', 'U', 'F', '_', 'A', 'P', 'P', 'E', 'N', 'D'] then some (.bitbufAppend a)
    else none
  | [a, b] => if m = ['T', 'A', 'B', 'L', 'E', '_', 'W', 'R', 'I', 'T', 'E'] then some (.tableWrite a b) else none
  | _ => none

/-- The command a line of text spells, none when it spells none (30_encoding.md R86). -/
def parseCommand (line : List Char) : Option AsmCmd :=
  match lexLine line [] with
  | some (.word m :: ts) =>
    match operandsOf ts with
    | some ops => commandOf m ops
    | none => none
  | _ => none

end Sys2Proof.Machine
end

