-- ==== Sys2Proof/Safety.lean ====
section
/-! DEFINITION. What holds of every state the block can be in: the invariant that the claims use (spec/10_state.md R27
to R42; spec/41_tree_builder.md R127; spec/42_code_table_rom.md R142). -/

namespace Sys2Proof.Machine

/-- Every index a store lists is below its size. -/
def Memory.below {α : Type} (m : Memory α) (n : Nat) : Prop := ∀ p ∈ m, p.1 < n

/-- Every store is in canonical form and lists only indexes it has (10_state.md R34 to R42). -/
structure State.StoresOk (s : State) : Prop where
  w : s.w.wf ∧ s.w.below 256
  lw : s.lw.wf ∧ s.lw.below 256
  nodes : s.nodes.wf ∧ s.nodes.below 255
  table : s.table.wf ∧ s.table.below 256
  bits : s.bits.wf ∧ s.bits.below s.params.bitbufBits
  out : s.out.wf ∧ s.out.below s.params.bitbufBits
  arena : s.arena.wf ∧ s.arena.below s.params.arenaDepth

/-- The ranges of BIT_LEN, OUT_LEN and ARENA_USED (10_state.md R29, R30). -/
structure State.LengthsOk (s : State) : Prop where
  bitLen : s.bitLen.toNat ≤ s.params.bitbufBits
  outLen : s.outLen.toNat ≤ s.params.bitbufBits
  arenaUsed : s.arenaUsed.toNat ≤ s.params.arenaDepth

/-- Every bit below BIT_LEN and every byte below OUT_LEN has been written since reset, so that no unspecified buffer
content is observable (10_state.md R40, R41; U7, U9). -/
structure State.BuffersWritten (s : State) : Prop where
  bits : ∀ j, j < s.bitLen.toNat → (s.bits.read j).isSome = true
  out : ∀ i, i < s.outLen.toNat → (s.out.read i).isSome = true

/-- Every code the ROM holds fits its 255 bits of storage (10_state.md R38). -/
def State.CodesFit (s : State) : Prop := ∀ x c, s.code x = some c → c.length ≤ 255

/-- The node ids of the current tree: the leaves of nonzero weight and the internal nodes below NODE_COUNT
(41_tree_builder.md R120, R127). -/
def State.inTree (s : State) (id : NodeId) : Prop :=
  if isLeaf id then s.leafWeight (leafSymbol id) ≠ 0 else id.toNat < 256 + s.tree.nodeCount.toNat

/-- The children of the internal nodes below NODE_COUNT, each as often as it is a child. -/
def State.children (s : State) : List NodeId :=
  (List.range s.tree.nodeCount.toNat).flatMap (fun k => [(s.node k).left, (s.node k).right])

/-- The tree invariants of 41_tree_builder.md R127, for a valid tree. -/
structure State.TreeOk (s : State) : Prop where
  /-- Every leaf weight has been written: TREE_VALID = 1 only after a BUILD_TREE has rewritten every LW[s] (R35). -/
  leavesWritten : ∀ x : Symbol, (s.lw.read x.toNat).isSome = true
  /-- Every node below NODE_COUNT has been written. -/
  nodesWritten : ∀ k, k < s.tree.nodeCount.toNat → (s.nodes.read k).isSome = true
  /-- The root of a non-degenerate tree is the last node created; a degenerate tree is one leaf. -/
  root : s.tree.root = if s.tree.nodeCount = 0 then leafId (leafSymbol s.tree.root)
    else internalId (s.tree.nodeCount.toNat - 1)
  /-- The root is a node of the tree. -/
  rootIn : s.inTree s.tree.root
  /-- Each node's weight is the sum of its children's, and the smaller child is left. -/
  weights : ∀ k, k < s.tree.nodeCount.toNat →
    (s.node k).weight.toNat = (s.nodeWeight (s.node k).left).toNat + (s.nodeWeight (s.node k).right).toNat ∧
      s.nodeWeight (s.node k).left ≤ s.nodeWeight (s.node k).right
  /-- A node's children are leaves of the tree or nodes created before it. -/
  childBefore : ∀ k, k < s.tree.nodeCount.toNat → ∀ c, c = (s.node k).left ∨ c = (s.node k).right →
    s.inTree c ∧ (isLeaf c = false → c.toNat < 256 + k)
  /-- Each node of the tree other than ROOT is the child of exactly one internal node, and nothing else is a child. -/
  oneParent : ∀ id : NodeId, (s.inTree id ∧ id ≠ s.tree.root → s.children.count id = 1) ∧
    (¬(s.inTree id ∧ id ≠ s.tree.root) → s.children.count id = 0)
  /-- NODE_COUNT = n − 1 for n distinct symbols. -/
  nodeCount : (allSymbols.filter (fun x => s.leafWeight x != 0)).length = s.tree.nodeCount.toNat + 1
  /-- nw(ROOT) is the sum of the leaf weights. -/
  rootWeight : (s.nodeWeight s.tree.root).toNat = (allSymbols.map (fun x => (s.leafWeight x).toNat)).sum

/-- The invariant of the block. -/
structure State.Inv (s : State) : Prop where
  params : s.params.legal = true
  stores : s.StoresOk
  lengths : s.LengthsOk
  buffers : s.BuffersWritten
  codes : s.CodesFit
  noTree : s.tree.valid = false → s.tree.root = 0 ∧ s.tree.nodeCount = 0
  tree : s.tree.valid = true → s.TreeOk

/-! ### Terms the claims use -/

/-- The block without the host program, the schedule, the model's draw counter and the two sticky flags a host access can
set while a command is pending. -/
def State.blockOnly (s : State) : State :=
  { s with
    prog := []
    reads := []
    turns := []
    draws := 0
    status := { s.status with cmdLost := false, wrIgnored := false } }

/-- The child of an internal node along an edge: 0 = left, 1 = right (00_scope.md R11). -/
def State.child (s : State) (n : NodeId) (b : Bool) : NodeId :=
  if b then (s.node (n.toNat - 256)).right else (s.node (n.toNat - 256)).left

/-- The node that a path of edges reaches from a node, none when the path goes on past a leaf
(42_code_table_rom.md R142). -/
def State.walk (s : State) : NodeId → BitString → Option NodeId
  | n, [] => some n
  | n, b :: c => if isLeaf n then none else State.walk s (s.child n b) c

/-- The concatenation of the codes of a byte sequence, none if a byte has no code: the source's Encoder, which the host
makes of TABLE_READ results (42_code_table_rom.md R146). -/
def State.encodeBytes (s : State) : List Symbol → Option BitString
  | [] => some []
  | x :: xs =>
    match s.code x, State.encodeBytes s xs with
    | some c, some e => some (c ++ e)
    | _, _ => none

/-- BITS[0..BIT_LEN−1]: the sequence DECODE reads (10_state.md R40). -/
def State.inputBits (s : State) : BitString := s.bitsFrom 0 s.bitLen.toNat

/-- OUT[0..OUT_LEN−1]: the bytes the last DECODE produced (10_state.md R41). -/
def State.outputBytes (s : State) : List Byte := (List.range s.outLen.toNat).map s.outByte

/-- A full decoding of the input: symbols with codes of at least one bit whose concatenation is the whole sequence
(43_decoder_fsm.md R162, R164). -/
def State.FullDecoding (s : State) (xs : List Symbol) : Prop :=
  s.encodeBytes xs = some s.inputBits ∧ ∀ x ∈ xs, s.code x ≠ some []

/-- The valid entries of nonzero length are pairwise prefix-free (43_decoder_fsm.md R166). -/
def State.PrefixFree (s : State) : Prop :=
  ∀ x y c d, s.code x = some c → s.code y = some d → c ≠ [] → d ≠ [] → x ≠ y → ¬ c <+: d

/-- The source's inverted table: the symbol of a code, the lowest one when several share it (43_decoder_fsm.md R163). -/
def State.invert (s : State) (c : BitString) : Option Symbol := allSymbols.find? (fun x => s.code x == some c)

/-- The source's states (bytes decoded so far, remaining suffix) that one state enqueues: every matching prefix length
from 1 to maxCodeLength, in increasing order (43_decoder_fsm.md R162, R164). -/
def State.successors (s : State) (st : List Byte × BitString) : List (List Byte × BitString) :=
  (List.range' 1 (min s.maxLen st.2.length)).filterMap
    (fun len => (s.invert (st.2.take len)).map (fun x => (st.1 ++ [x], st.2.drop len)))

/-- The source's decoder on its FIFO worklist, with no bound on the worklist: the outer option is none when the fuel is
used up, the inner one is the decoded bytes, or none for DecodeError (43_decoder_fsm.md R162, R164). -/
def State.sourceDecode (s : State) : Nat → List (List Byte × BitString) → Option (Option (List Byte))
  | 0, _ => none
  | _ + 1, [] => some none
  | fuel + 1, st :: queue =>
    if st.2 = [] then some (some st.1) else State.sourceDecode s fuel (queue ++ s.successors st)

/-- How many states the source's search creates from a worklist on, before its result: those each dequeued state enqueues
(43_decoder_fsm.md R162, R168). None when the fuel is used up. The seed itself is not counted. -/
def State.statesCreated (s : State) : Nat → List (List Byte × BitString) → Option Nat
  | 0, _ => none
  | _ + 1, [] => some 0
  | fuel + 1, st :: queue =>
    if st.2 = [] then some 0
    else (State.statesCreated s fuel (queue ++ s.successors st)).map (fun n => n + (s.successors st).length)

/-- The greedy left-to-right prefix walk of 43_decoder_fsm.md R166: at each position the shortest prefix of at least one
bit that is a code. -/
def State.greedyWalk (s : State) : Nat → Nat → Option (List Symbol)
  | 0, _ => none
  | fuel + 1, pos =>
    if pos = s.bitLen.toNat then some []
    else
      match (List.range' 1 (min s.maxLen (s.bitLen.toNat - pos))).findSome?
          (fun len => (s.matchCode pos len).map (fun x => (len, x))) with
      | some (len, x) => (State.greedyWalk s fuel (pos + len)).map (fun xs => x :: xs)
      | none => none

/-- `Loads s e t`: appending the bits e to the input buffer of s leads to t. Each chunk of 1 to 32 bits is written to ARG0,
its first bit at bit 0, and appended by a BITBUF_APPEND (30_encoding.md R88; 43_decoder_fsm.md R161). -/
inductive Loads : State → BitString → State → Prop where
  | done (s : State) : Loads s [] s
  | chunk (s u t : State) (w : Word) (c rest : BitString) (pos : 1 ≤ c.length) (fits : c.length ≤ 32)
      (bits : ∀ i, i < c.length → c.getD i false = w.getLsbD i)
      (append : exec (.bitbufAppend (BitVec.ofNat 16 c.length)) { s with arg0 := w } = .next u) (tail : Loads u rest t) :
      Loads s (c ++ rest) t

/-- The byte offsets of the registers and of the windows of 20_memory.md R62 that a host may only read. -/
def readOnlyWord (p : Params) (n : Nat) : Prop :=
  n = 0x000 ∨ n = 0x014 ∨ n = 0x018 ∨ n = 0x01C ∨ n = 0x020 ∨ n = 0x024 ∨ n = 0x028 ∨ n = 0x02C ∨ n = 0x030 ∨
    n = 0x034 ∨ (0x060 ≤ n ∧ n ≤ 0x07C) ∨ (0x1000 ≤ n ∧ n ≤ 0x1000 + p.bitbufBits / 8 - 4) ∨
    (0x8000 ≤ n ∧ n ≤ 0x8000 + p.bitbufBits - 4)

/-- The byte offsets of the registers and of the window of 20_memory.md R62 that a host may write. -/
def writableWord (n : Nat) : Prop :=
  n = 0x004 ∨ n = 0x008 ∨ n = 0x00C ∨ n = 0x010 ∨ (0x040 ≤ n ∧ n ≤ 0x05C) ∨ (0x400 ≤ n ∧ n ≤ 0x7FC)

/-- A run of `n` steps is safe when it neither faults nor is refused and every state on it meets the invariant. -/
def SafeRun : Nat → State → Prop
  | 0, s => s.Inv
  | n + 1, s => s.Inv ∧ ∃ t, step s = .next t ∧ SafeRun n t

end Sys2Proof.Machine
end

