-- ==== Sys2Proof/Certificates/Slice0/Obligations.lean ====
section
/-! DEFINITION. The statements for the provers, in the order of spec/: encoding, the lifecycle of a command, the bus, the
tree builder, the code table, the decoder, errors, reset, and the whole machine. -/

open Sys2Proof Sys2Proof.Machine

/-! ### Encoding -/

/-- No bit of a command is lost: decoding the word of any command, with any operands, gives it back; and a word that is a
command is the word of that command, so no two words are one command (30_encoding.md R80 to R82, R85). -/
def Obligations.DecodeAndEncodeAgree : Prop :=
  (∀ i : Instr, Sys2Proof.decode (encode i) = .ok i) ∧
  (∀ (w : Word) (i : Instr), Sys2Proof.decode w = .ok i → encode i = w)

/-- A word is rejected exactly when RSV is not 0 or OP is unassigned, RSV being checked first. An illegal word that is
pending completes with ILLEGAL_COMMAND and changes no other state (40_command_control.md R107). -/
def Obligations.IllegalWordsAreRejected : Prop :=
  (∀ w : Word, Sys2Proof.decode w = .error .reservedNonzero ↔ w.extractLsb' 16 8 ≠ 0) ∧
  (∀ w : Word, (∃ r, Sys2Proof.decode w = .error r) ↔
    w.extractLsb' 16 8 ≠ 0 ∨ w.extractLsb' 24 8 ∉
      [(0x00 : BitVec 8), 0x10, 0x11, 0x12, 0x20, 0x21, 0x22, 0x23, 0x24, 0x30, 0x31, 0x32]) ∧
  (∀ (s : State) (r : DecodeReject), s.status.busy = true → Sys2Proof.decode s.pend = .error r →
    engineStep s = .next { s with status := { s.status with err := .illegalCommand, busy := false, done := true } }) ∧
  (∀ s : State, s.status.cmdLost = false → s.status.wrIgnored = false →
    Status.toWord { s.status with err := .illegalCommand, busy := false, done := true } = 0x00000402)

/-- Words written out from 30_encoding.md R80 to R82 decode to the commands they stand for (a check on fixed words). -/
def Obligations.SampleWordsDecode : Prop :=
  Sys2Proof.decode 0x00000000 = .ok (.nop 0) ∧ Sys2Proof.decode 0x10000000 = .ok (.clearWeights 0) ∧
  Sys2Proof.decode 0x12000101 = .ok (.nodeRead 0x101) ∧ Sys2Proof.decode 0x22000363 = .ok (.tableWrite 0x63 3) ∧
  Sys2Proof.decode 0x24000062 = .ok (.tableRead 0x62 0) ∧ Sys2Proof.decode 0x31000005 = .ok (.bitbufAppend 5) ∧
  Sys2Proof.decode 0x32000000 = .ok (.decode 0) ∧ Sys2Proof.decode 0x11010000 = .error .reservedNonzero ∧
  Sys2Proof.decode 0x13000000 = .error .opcodeUnassigned ∧ Sys2Proof.decode 0xFF000000 = .error .opcodeUnassigned

/-- Ignored operand bits: any value is legal, and the command behaves the same for every value; what is decoded at all
depends on OP and RSV only (30_encoding.md R83). -/
def Obligations.IgnoredOperandsHaveNoEffect : Prop :=
  (∀ (w v : Word) (i : Instr), Sys2Proof.decode w = .ok i → w.extractLsb' 16 16 = v.extractLsb' 16 16 →
    ∃ j, Sys2Proof.decode v = .ok j ∧
      (w.extractLsb' 24 8 ∈ [(0x00 : BitVec 8), 0x10, 0x11, 0x20, 0x21, 0x30, 0x32] → ∀ s, exec j s = exec i s) ∧
      (w.extractLsb' 24 8 ∈ [(0x23 : BitVec 8), 0x24] → w.extractLsb' 0 8 = v.extractLsb' 0 8 →
        ∀ s, exec j s = exec i s))

/-- The word a command line assembles to decodes to that command with its operands in their fields, and an operand
outside its field is an assembly error (30_encoding.md R86). -/
def Obligations.AssembledWordsDecode : Prop :=
  (∀ c : AsmCmd, c.wellFormed = true → ∃ w, assemble c = some w ∧ Sys2Proof.decode w = .ok (asmInstr c)) ∧
  (∀ c : AsmCmd, c.wellFormed = false → assemble c = none) ∧
  (∀ sym len : Nat, sym ≤ 255 → len ≤ 255 →
    assemble (.tableWrite sym len) = some (BitVec.ofNat 32 (0x22000000 + len * 256 + sym))) ∧
  (∀ id : Nat, (∃ w, assemble (.nodeRead id) = some w) ↔ id ≤ 0xFFFF) ∧
  (∀ n : Nat, (∃ w, assemble (.bitbufAppend n) = some w) ↔ n ≤ 0xFFFF) ∧
  (∀ sym len : Nat, (∃ w, assemble (.tableWrite sym len) = some w) ↔ sym ≤ 255 ∧ len ≤ 255) ∧
  (∀ sym : Nat, (∃ w, assemble (.tableDelete sym) = some w) ↔ sym ≤ 255) ∧
  (∀ sym : Nat, (∃ w, assemble (.tableRead sym) = some w) ↔ sym ≤ 255)

/-- The pseudo-instructions `stage` and `append` lay their bit string out least significant bit first, and `append` splits
it into chunks of 32 bits, the last shorter, each written to ARG0 and then appended with its length
(30_encoding.md R87, R88). -/
def Obligations.PseudoInstructionsExpand : Prop :=
  (∀ bits : BitString, bits.length ≤ 255 → ∃ f : Nat → Word,
    stageStmts bits = (List.range 8).map (fun k => .write (BitVec.ofNat 16 (0x040 + 4 * k)) (f k)) ∧
    ∀ k i, k < 8 → i < 32 → (f k).getLsbD i = bits.getD (32 * k + i) false) ∧
  (∀ bits : BitString, ∃ chunks : List BitString, chunks.flatten = bits ∧
    (∀ c ∈ chunks, 1 ≤ c.length ∧ c.length ≤ 32) ∧ (∀ c ∈ chunks.dropLast, c.length = 32) ∧
    ∃ f : BitString → Word, (∀ c i, i < 32 → (f c).getLsbD i = c.getD i false) ∧
      appendStmts bits = chunks.flatMap (fun c =>
        [.write 0x010 (f c), .write 0x00C (BitVec.ofNat 32 (0x31000000 + c.length)), .wait]))

/-! ### The step and the lifecycle of a command -/

/-- A step runs the agent whose turn it is: the engine runs the decoded pending command, the host makes its next access, a
cycle in reset happens; with no turn left the engine moves when a command is pending, else the host. The state that
`withFetchWord` makes runs exactly the given word (00_scope.md R9; 40_command_control.md R100, R104; the schedule is the
model's, logs 2 and 12). -/
def Obligations.StepRunsTheDecodedCommand : Prop :=
  (∀ (s : State) (i : Instr) (rest : List Turn), s.status.busy = true → Sys2Proof.decode s.pend = .ok i →
    (s.turns = [] → step s = exec i s) ∧ (s.turns = .engine :: rest → step s = exec i { s with turns := rest })) ∧
  (∀ (s : State) (nbits w : Nat) (i : Instr), decodeTableWord nbits w = some i →
    step (s.withFetchWord nbits w) =
      exec i { s with
        pend := BitVec.ofNat 32 (w % 2 ^ nbits), status := { s.status with busy := true, done := false } }) ∧
  (∀ (s : State) (rest : List Turn) (access : Bool),
    (s.turns = [] → s.status.busy = false → step s = .next s.hostStep) ∧
    (s.turns = .host :: rest → step s = .next { s with turns := rest }.hostStep) ∧
    (s.turns = .reset access :: rest → step s = .next ({ s with turns := rest }.resetStep access)) ∧
    (s.turns = .engine :: rest → s.status.busy = false → step s = .next { s with turns := rest }))

/-- A write of CMD while BUSY = 0 is an acceptance: PEND, BUSY and DONE, and nothing else
(40_command_control.md R101). -/
def Obligations.AcceptanceEffects : Prop :=
  ∀ (s : State) (a : Addr) (w : Word), wordAddress a = 0x00C → s.status.busy = false →
    s.memWrite a w = { s with pend := w, status := { s.status with busy := true, done := false } }

/-- A write of CMD while BUSY = 1 sets CMD_LOST and nothing else, and the pending command's result is unaffected
(40_command_control.md R102). -/
def Obligations.CommandWhileBusyIsLost : Prop :=
  ∀ (s : State) (a : Addr) (w : Word), wordAddress a = 0x00C → s.status.busy = true →
    s.memWrite a w = { s with status := { s.status with cmdLost := true } } ∧
    ∃ t, engineStep s = .next t ∧
      engineStep (s.memWrite a w) = .next { t with status := { t.status with cmdLost := true } }

/-- While BUSY = 1 a write elsewhere than STATUS and CMD sets WR_IGNORED and nothing else; a STATUS write is honoured
(40_command_control.md R103). -/
def Obligations.WriteWhileBusyIsIgnored : Prop :=
  ∀ (s : State) (a : Addr) (v : Word), s.status.busy = true →
    (wordAddress a ≠ 0x008 → wordAddress a ≠ 0x00C →
      s.memWrite a v = { s with status := { s.status with wrIgnored := true } }) ∧
    (wordAddress a = 0x008 → s.memWrite a v = { s with status := s.status.clearOnes v }) ∧
    (wordAddress a = 0x00C → s.memWrite a v = { s with status := { s.status with cmdLost := true } })

/-- Every one of the twelve commands completes in every state, and so does every pending word: ERR is the command's code,
BUSY is cleared, DONE is set, and no input register, host statement or model counter is touched
(40_command_control.md R104). -/
def Obligations.EveryCommandCompletes : Prop :=
  (∀ (i : Instr) (s : State), ∃ t, exec i s = .next t ∧
    t.status = { s.status with err := t.status.err, busy := false, done := true } ∧ t.params = s.params ∧
    t.ctrl = s.ctrl ∧ t.arg0 = s.arg0 ∧ t.codeStage = s.codeStage ∧ t.pend = s.pend ∧ t.prog = s.prog ∧
    t.reads = s.reads ∧ t.turns = s.turns ∧ t.resets = s.resets ∧ t.draws = s.draws) ∧
  (∀ s : State, s.status.busy = true → ∃ t, engineStep s = .next t ∧
    t.status = { s.status with err := t.status.err, busy := false, done := true })

/-- A command's result is a function of the state at its acceptance: whatever the host does while it is pending, the
completion leaves the same block, but for the sticky flags of those accesses (40_command_control.md R108). -/
def Obligations.ResultIsFixedAtAcceptance : Prop :=
  ∀ (s : State) (w : Word) (n : Nat), ∃ t u, engineStep (s.accept w) = .next t ∧
    engineStep (State.hostStep^[n] (s.accept w)) = .next u ∧ u.blockOnly = t.blockOnly

/-- When a host access and a completion fall on one edge, the access comes first and sees BUSY = 1: a CMD write is lost,
and a STATUS write does not clear the DONE of the completion (60_exceptions.md R203; the turns are the model's schedule,
log 2). -/
def Obligations.HostAccessBeforeCompletion : Prop :=
  ∀ (s : State) (a : Addr) (v : Word) (prog : List HostStmt) (rest : List Turn), s.status.busy = true →
    s.turns = .host :: .engine :: rest →
    (s.prog = .write a v :: prog → ∃ t u, step s = .next t ∧ t.status.busy = true ∧ t.pend = s.pend ∧
      step t = .next u ∧ u.status.busy = false ∧ u.status.done = true ∧
      (wordAddress a = 0x00C → u.status.cmdLost = true)) ∧
    (s.prog = .read a :: prog → wordAddress a = 0x008 → ∃ t, step s = .next t ∧ ∃ x, t.reads = x :: s.reads ∧
      x.getLsbD 0 = true)

/-- A `wait` stays until it reads BUSY = 0, and the other statements are one access each (30_encoding.md R90). That an ended
program makes no access and that a `wait` records no value are the model's choice (log 11). -/
def Obligations.HostStatementsAreAccesses : Prop :=
  ∀ (s : State) (rest : List HostStmt) (a : Addr) (v : Word),
    (s.prog = .write a v :: rest → s.hostStep = { s with prog := rest }.memWrite a v) ∧
    (s.prog = .read a :: rest → s.status.busy = false →
      s.hostStep = { s with prog := rest, reads := (s.memRead a).1 :: s.reads }) ∧
    (s.prog = .wait :: rest → s.status.busy = true → s.hostStep = s) ∧
    (s.prog = .wait :: rest → s.status.busy = false → s.hostStep = { s with prog := rest }) ∧
    (s.prog = [] → s.hostStep = s)

/-! ### The bus -/

/-- Bits 1:0 of an address are ignored (20_memory.md R63). -/
def Obligations.AlignmentIsIgnored : Prop :=
  ∀ (s : State) (a : Addr) (v : Word), s.memRead a = s.memRead (a &&& 0xFFFC) ∧
    s.memWrite a v = s.memWrite (a &&& 0xFFFC) v ∧ (a.toNat / 4 * 4 = wordAddress a)

/-- What the registers read while BUSY = 0 (20_memory.md R62; 10_state.md R21, R23, R24, R26, R27, R29 to
R33). -/
def Obligations.RegisterReadValues : Prop :=
  ∀ (s : State) (a : Addr), s.status.busy = false →
    (wordAddress a = 0x000 → s.memRead a = (0x48554631, s)) ∧
    (wordAddress a = 0x004 → ∃ x, s.memRead a = (x, s) ∧ x.getLsbD 0 = s.ctrl.irqEn ∧ x.getLsbD 1 = s.ctrl.degen1bit ∧
      ∀ i, 2 ≤ i → x.getLsbD i = false) ∧
    (wordAddress a = 0x00C → s.memRead a = (0, s)) ∧ (wordAddress a = 0x010 → s.memRead a = (s.arg0, s)) ∧
    (wordAddress a = 0x014 → s.memRead a = (s.res0, s)) ∧ (wordAddress a = 0x018 → s.memRead a = (s.res1, s)) ∧
    (wordAddress a = 0x01C → ∃ x, s.memRead a = (x, s) ∧ x.extractLsb' 0 9 = s.tree.root ∧ x.extractLsb' 9 7 = 0 ∧
      x.extractLsb' 16 8 = s.tree.nodeCount ∧ x.extractLsb' 24 7 = 0 ∧ x.getLsbD 31 = s.tree.valid) ∧
    (wordAddress a = 0x024 → s.memRead a = (s.bitLen.setWidth 32, s)) ∧
    (wordAddress a = 0x028 → s.memRead a = (s.outLen.setWidth 32, s)) ∧
    (wordAddress a = 0x02C → s.memRead a = (s.arenaUsed.setWidth 32, s)) ∧
    (wordAddress a = 0x030 → s.memRead a = (BitVec.ofNat 32 s.params.bitbufBits, s)) ∧
    (wordAddress a = 0x034 → s.memRead a = (BitVec.ofNat 32 s.params.arenaDepth, s)) ∧
    (∀ k : Fin 8, wordAddress a = 0x040 + 4 * k.val → s.memRead a = (s.codeStage[k], s)) ∧
    (∀ k : Fin 8, wordAddress a = 0x060 + 4 * k.val → s.memRead a = (s.codeOut[k], s))

/-- The word a read of STATUS returns, bit by bit, busy or not, with the nine code numbers of ERR, and what a STATUS write
does (10_state.md R25; 60_exceptions.md R200). -/
def Obligations.StatusRegister : Prop :=
  ∀ (s : State) (a : Addr) (v : Word), wordAddress a = 0x008 →
    (∃ x, s.memRead a = (x, s) ∧ x.getLsbD 0 = s.status.busy ∧ x.getLsbD 1 = s.status.done ∧
      x.getLsbD 2 = s.status.cmdLost ∧ x.getLsbD 3 = s.status.wrIgnored ∧ x.extractLsb' 4 4 = 0 ∧
      x.extractLsb' 8 4 = (match s.status.err with
        | .none => 0
        | .emptyAlphabet => 1
        | .decodeError => 2
        | .unknownSymbol => 3
        | .illegalCommand => 4
        | .badOperand => 5
        | .noTree => 6
        | .bufferFull => 7
        | .arenaOverflow => 8) ∧ x.extractLsb' 12 20 = 0) ∧
    s.memWrite a v = { s with
      status := { s.status with
        done := s.status.done && !v.getLsbD 1
        cmdLost := s.status.cmdLost && !v.getLsbD 2
        wrIgnored := s.status.wrIgnored && !v.getLsbD 3 } }

/-- MAXLEN reads the length of the longest valid code, 0 with no valid entry (10_state.md R28). -/
def Obligations.MaxCodeLength : Prop :=
  (∀ (s : State) (a : Addr), s.CodesFit → wordAddress a = 0x020 → s.status.busy = false → ∃ x, s.memRead a = (x, s) ∧
    (∀ y c, s.code y = some c → c.length ≤ x.toNat) ∧
    ((∀ y, s.code y = none) → x = 0) ∧ (x ≠ 0 → ∃ y c, s.code y = some c ∧ c.length = x.toNat)) ∧
  (∀ p n, (State.afterReset p n).maxLen = 0)

/-- The registers a host writes take the value while BUSY = 0, CTRL its two low bits, and nothing else changes
(20_memory.md R62; 10_state.md R21, R24, R32). -/
def Obligations.RegisterWrites : Prop :=
  ∀ (s : State) (a : Addr) (v : Word), s.status.busy = false →
    (wordAddress a = 0x004 →
      s.memWrite a v = { s with ctrl := { irqEn := v.getLsbD 0, degen1bit := v.getLsbD 1 } }) ∧
    (wordAddress a = 0x010 → s.memWrite a v = { s with arg0 := v }) ∧
    (∀ k : Fin 8, wordAddress a = 0x040 + 4 * k.val → ∃ cs : Vector Word 8,
      s.memWrite a v = { s with codeStage := cs } ∧ cs[k] = v ∧ ∀ j : Fin 8, j ≠ k → cs[j] = s.codeStage[j])

/-- The WEIGHT window (20_memory.md R64). -/
def Obligations.WeightWindowAccess : Prop :=
  ∀ (s : State) (x : Symbol) (a : Addr) (v : Word), wordAddress a = 0x400 + 4 * x.toNat →
    (s.status.busy = false → s.memRead a = (s.weight x, s) ∧ ∃ t, s.memWrite a v = t ∧ t = { s with w := t.w } ∧
      t.weight x = v ∧ ∀ y, y ≠ x → t.weight y = s.weight y) ∧
    (s.status.busy = true → s.memWrite a v = { s with status := { s.status with wrIgnored := true } })

/-- The BITBUF window, read-only; nothing but BITBUF_APPEND writes the bits (20_memory.md R65). -/
def Obligations.BitbufWindowIsReadOnly : Prop :=
  (∀ (s : State) (a : Addr) (j : Nat), s.params.legal = true → j < s.params.bitbufBits / 32 →
    wordAddress a = 0x1000 + 4 * j →
    (s.status.busy = false → ∃ x, s.memRead a = (x, s) ∧ ∀ k, k < 32 →
      x.getLsbD k = if 32 * j + k < s.bitLen.toNat then s.bit (32 * j + k) else false) ∧
    ∀ v, s.memWrite a v =
      if s.status.busy then { s with status := { s.status with wrIgnored := true } } else s) ∧
  (∀ (i : Instr) (s t : State), exec i s = .next t → (∀ n, i ≠ .bitbufAppend n) → t.bits = s.bits)

/-- The OUTBUF window, read-only and little-endian (20_memory.md R66). -/
def Obligations.OutbufWindowIsReadOnly : Prop :=
  ∀ (s : State) (a : Addr) (j : Nat), s.params.legal = true → j < s.params.bitbufBits / 4 →
    wordAddress a = 0x8000 + 4 * j →
    (s.status.busy = false → ∃ x, s.memRead a = (x, s) ∧ ∀ b, b < 4 →
      x.extractLsb' (8 * b) 8 = if 4 * j + b < s.outLen.toNat then s.outByte (4 * j + b) else 0) ∧
    ∀ v, s.memWrite a v =
      if s.status.busy then { s with status := { s.status with wrIgnored := true } } else s

/-- Unmapped words read 0, and writes to them and to read-only words are ignored; while BUSY = 1 they also set WR_IGNORED
(20_memory.md R67). -/
def Obligations.UnmappedAndReadOnlyWords : Prop :=
  ∀ (s : State) (a : Addr) (v : Word), s.params.legal = true →
    (¬ readOnlyWord s.params (wordAddress a) → ¬ writableWord (wordAddress a) → s.memRead a = (0, s)) ∧
    (¬ writableWord (wordAddress a) → s.memWrite a v =
      if s.status.busy then { s with status := { s.status with wrIgnored := true } } else s)

/-- Reads while BUSY = 1: the listed words return the value their rule gives, every other mapped word an open value, and no
read has a side effect but the model's own count of open values (40_command_control.md R105; the open value is
Config.busyRead, log 6). -/
def Obligations.ReadsWhileBusy : Prop :=
  ∀ (s : State) (a : Addr), s.params.legal = true → s.status.busy = true →
    (wordAddress a = 0x000 → s.memRead a = (0x48554631, s)) ∧
    (wordAddress a = 0x004 → s.memRead a = (s.ctrl.toWord, s)) ∧
    (wordAddress a = 0x008 → s.memRead a = (s.status.toWord, s)) ∧
    (wordAddress a = 0x00C → s.memRead a = (0, s)) ∧ (wordAddress a = 0x010 → s.memRead a = (s.arg0, s)) ∧
    (wordAddress a = 0x030 → s.memRead a = (BitVec.ofNat 32 s.params.bitbufBits, s)) ∧
    (wordAddress a = 0x034 → s.memRead a = (BitVec.ofNat 32 s.params.arenaDepth, s)) ∧
    (∀ k : Fin 8, wordAddress a = 0x040 + 4 * k.val → s.memRead a = (s.codeStage[k], s)) ∧
    ((0x014 ≤ wordAddress a ∧ wordAddress a ≤ 0x02C) ∨ (0x060 ≤ wordAddress a ∧ wordAddress a ≤ 0x07C) ∨
      (0x400 ≤ wordAddress a ∧ wordAddress a ≤ 0x7FC) ∨
      (0x1000 ≤ wordAddress a ∧ wordAddress a ≤ 0x1000 + s.params.bitbufBits / 8 - 4) ∨
      (0x8000 ≤ wordAddress a ∧ wordAddress a ≤ 0x8000 + s.params.bitbufBits - 4) →
      s.memRead a = (Config.busyRead s.draws, { s with draws := s.draws + 1 }))

/-- No read has a side effect while BUSY = 0, and a second write of the same value to W, CTRL, ARG0 or CODE_STAGE changes
nothing more (20_memory.md R69). -/
def Obligations.ReadsAndRepeatedWrites : Prop :=
  ∀ (s : State) (a : Addr) (v : Word), s.status.busy = false →
    (s.memRead a).2 = s ∧
    (wordAddress a ≠ 0x008 → wordAddress a ≠ 0x00C → (s.memWrite a v).memWrite a v = s.memWrite a v)

/-! ### Control and tree builder -/

/-- NOP completes with NONE and changes nothing else (40_command_control.md R106). -/
def Obligations.NopChangesNothing : Prop :=
  (∀ imm : BitVec 16, Sys2Proof.decode ((0 : BitVec 16) ++ imm) = .ok (.nop imm)) ∧
  (∀ (u : BitVec 16) (s : State),
    exec (.nop u) s = .next { s with status := { s.status with err := .none, busy := false, done := true } }) ∧
  (∀ (u : BitVec 16) (s : State), s.status.cmdLost = false → s.status.wrIgnored = false →
    ∃ t, exec (.nop u) s = .next t ∧ t.status.toWord = 0x00000002)

/-- CLEAR_WEIGHTS zeroes W and nothing else; a BUILD_TREE right after it fails with EMPTY_ALPHABET
(41_tree_builder.md R121). -/
def Obligations.ClearWeightsZeroesWeights : Prop :=
  (∀ imm : BitVec 16, Sys2Proof.decode ((0x10 : BitVec 8) ++ (0 : BitVec 8) ++ imm) = .ok (.clearWeights imm)) ∧
  ∀ (u : BitVec 16) (s : State), ∃ t, exec (.clearWeights u) s = .next t ∧
    t = { s with w := t.w, status := { s.status with err := .none, busy := false, done := true } } ∧
    (∀ x, t.weight x = 0) ∧ ∀ v, ∃ t', exec (.buildTree v) t = .next t' ∧ t'.status.err = .emptyAlphabet

/-- BUILD_TREE on an empty alphabet drops the tree, takes the snapshot of the zero weights, and reports EMPTY_ALPHABET; it
reports it in no other case. With exactly one nonzero weight that leaf is the tree, and no merge happens
(41_tree_builder.md R122). -/
def Obligations.BuildTreeCornerCases : Prop :=
  ∀ (u : BitVec 16) (s : State),
    ((∀ x, s.weight x = 0) → ∃ t, exec (.buildTree u) s = .next t ∧
      t = { s with
        lw := t.lw
        tree := { root := 0, nodeCount := 0, valid := false }
        status := { s.status with err := .emptyAlphabet, busy := false, done := true } } ∧
      ∀ x, t.leafWeight x = 0) ∧
    ((∃ x, s.weight x ≠ 0) → ∃ t, exec (.buildTree u) s = .next t ∧ t.status.err = .none) ∧
    (∀ x : Symbol, s.weight x ≠ 0 → (∀ y, y ≠ x → s.weight y = 0) → ∃ t, exec (.buildTree u) s = .next t ∧
      t.tree = { root := x.setWidth 9, nodeCount := 0, valid := true } ∧ t.status.err = .none)

/-- BUILD_TREE with a nonzero weight: it writes LW, IN and TREE alone, LW is the snapshot of W, and the tree has every
invariant of 41_tree_builder.md R127 (the fields of TreeOk). -/
def Obligations.BuildTreeBuildsATree : Prop :=
  ∀ (u : BitVec 16) (s : State), (∃ x, s.weight x ≠ 0) → ∃ t, exec (.buildTree u) s = .next t ∧
    t = { s with
      lw := t.lw
      nodes := t.nodes
      tree := t.tree
      status := { s.status with err := .none, busy := false, done := true } } ∧
    t.tree.valid = true ∧ (∀ x, t.leafWeight x = s.weight x) ∧ t.TreeOk ∧
    t.tree.nodeCount.toNat + 1 = (allSymbols.filter (fun x => s.weight x != 0)).length

/-- The tree depends on the weights alone: two blocks with the same weights build the same tree, node by node
(41_tree_builder.md R122 to R124). -/
def Obligations.TreeDependsOnWeightsAlone : Prop :=
  ∀ (u v : BitVec 16) (s s' : State), (∀ x, s.weight x = s'.weight x) →
    ∃ t t', exec (.buildTree u) s = .next t ∧ exec (.buildTree v) s' = .next t' ∧ t.tree = t'.tree ∧
      t.status.err = t'.status.err ∧ (∀ x, t.leafWeight x = t'.leafWeight x) ∧
      ∀ k, k < t.tree.nodeCount.toNat → t.node k = t'.node k

/-- Candidate selection: the seed of the first two positions, the scan position by position, and what it selects, ties
included (41_tree_builder.md R123). -/
def Obligations.CandidateSelectionRule : Prop :=
  ∀ (s : State) (wl : List NodeId), 2 ≤ wl.length →
    (wl.length = 2 →
      s.select wl = if s.nodeWeight (wl.getD 0 0) ≤ s.nodeWeight (wl.getD 1 0) then (0, 1) else (1, 0)) ∧
    (∀ n : NodeId, s.select (wl ++ [n]) =
      if s.nodeWeight n ≤ s.nodeWeight (wl.getD (s.select wl).1 0) then (wl.length, (s.select wl).1)
      else if s.nodeWeight n ≤ s.nodeWeight (wl.getD (s.select wl).2 0) then ((s.select wl).1, wl.length)
      else s.select wl) ∧
    (s.select wl).1 < wl.length ∧ (s.select wl).2 < wl.length ∧ (s.select wl).1 ≠ (s.select wl).2 ∧
    s.nodeWeight (wl.getD (s.select wl).1 0) ≤ s.nodeWeight (wl.getD (s.select wl).2 0) ∧
    (∀ j, j < wl.length → j ≠ (s.select wl).1 → j ≠ (s.select wl).2 →
      s.nodeWeight (wl.getD (s.select wl).2 0) ≤ s.nodeWeight (wl.getD j 0)) ∧
    (∀ i, 2 ≤ i → i < wl.length → s.nodeWeight (wl.getD i 0) = s.nodeWeight (wl.getD (s.select wl).1 0) →
      i ≤ (s.select wl).1) ∧
    ((∀ i, 2 ≤ i → i < wl.length → s.nodeWeight (wl.getD i 0) ≠ s.nodeWeight (wl.getD (s.select wl).1 0)) →
      (s.select wl).1 =
        if s.nodeWeight (wl.getD 0 0) = s.nodeWeight (wl.getD (s.select wl).1 0) then 0 else 1)

/-- BUILD_TREE with a nonzero weight is the merge loop, run on the snapshot of the weights from the nonzero symbols in
ascending order with k = 0: it ends with one node, and ROOT, NODE_COUNT and TREE_VALID are that node, k and 1. A list of one
node ends the loop. One turn of it is one merge: IN[k] is the two candidates and the sum of their weights, the smaller
left; the new node takes the smaller's position and the second-smaller's is closed up (41_tree_builder.md R122, R124). That
the entries from the final NODE_COUNT on keep what they held is the model's choice (log 20). -/
def Obligations.MergeStepEffects : Prop :=
  (∀ (u : BitVec 16) (s : State), (∃ x, s.weight x ≠ 0) → ∃ (snap : State) (wl : List NodeId),
    snap = { s with lw := snap.lw } ∧ (∀ x, snap.leafWeight x = s.weight x) ∧
    wl = ((List.range 256).filter (fun n => s.weight (BitVec.ofNat 8 n) != 0)).map (BitVec.ofNat 9) ∧
    ∀ fuel, wl.length ≤ fuel → ∃ (t : State) (root : NodeId) (k : Nat),
      State.mergeLoop fuel snap wl 0 = (t, [root], k) ∧ k + 1 = wl.length ∧
      exec (.buildTree u) s = .next { t with
        tree := { root := root, nodeCount := BitVec.ofNat 8 k, valid := true }
        status := { s.status with err := .none, busy := false, done := true } }) ∧
  (∀ (fuel : Nat) (s : State) (n : NodeId) (k : Nat), State.mergeLoop fuel s [n] k = (s, [n], k)) ∧
  ∀ (s : State) (wl : List NodeId) (k fuel : Nat), 2 ≤ wl.length → k < 255 →
    ∃ u wl', State.mergeLoop (fuel + 1) s wl k = State.mergeLoop fuel u wl' (k + 1) ∧
      u = { s with nodes := u.nodes } ∧
      u.node k = {
        weight := s.nodeWeight (wl.getD (s.select wl).1 0) + s.nodeWeight (wl.getD (s.select wl).2 0)
        left := wl.getD (s.select wl).1 0
        right := wl.getD (s.select wl).2 0 } ∧
      (∀ j, j ≠ k → u.node j = s.node j) ∧ wl'.length + 1 = wl.length ∧
      ∀ i, i < wl'.length → wl'.getD i 0 =
        if (if i < (s.select wl).2 then i else i + 1) = (s.select wl).1 then BitVec.ofNat 9 (256 + k)
        else wl.getD (if i < (s.select wl).2 then i else i + 1) 0

/-- NODE_READ, its errors in their order, a leaf and an internal node (41_tree_builder.md R125). -/
def Obligations.NodeReadResults : Prop :=
  (∀ id : BitVec 16, Sys2Proof.decode ((0x12 : BitVec 8) ++ (0 : BitVec 8) ++ id) = .ok (.nodeRead id)) ∧
  ∀ (id : BitVec 16) (s : State),
    (s.tree.valid = false → exec (.nodeRead id) s =
      .next { s with status := { s.status with err := .noTree, busy := false, done := true } }) ∧
    (s.tree.valid = true → 256 + s.tree.nodeCount.toNat ≤ id.toNat → exec (.nodeRead id) s =
      .next { s with status := { s.status with err := .badOperand, busy := false, done := true } }) ∧
    (∀ x : Symbol, s.tree.valid = true → id = x.setWidth 16 → exec (.nodeRead id) s =
      .next { s with
        res0 := s.leafWeight x
        res1 := 0
        status := { s.status with err := .none, busy := false, done := true } }) ∧
    (∀ k, s.tree.valid = true → k < s.tree.nodeCount.toNat → id.toNat = 256 + k → ∃ t, exec (.nodeRead id) s = .next t ∧
      t = { s with
        res0 := t.res0
        res1 := t.res1
        status := { s.status with err := .none, busy := false, done := true } } ∧
      t.res0 = (s.node k).weight.extractLsb' 0 32 ∧ t.res1.getLsbD 31 = true ∧ t.res1.extractLsb' 26 5 = 0 ∧
      t.res1.extractLsb' 17 9 = (s.node k).right ∧ t.res1.extractLsb' 8 9 = (s.node k).left ∧
      t.res1.extractLsb' 0 8 = (s.node k).weight.extractLsb' 32 8)

/-! ### Code table -/

/-- TABLE_CLEAR empties the table and nothing else; MAXLEN is then 0, a TABLE_READ misses, and a DECODE succeeds only on an
empty input (42_code_table_rom.md R140). -/
def Obligations.TableClearEmptiesTable : Prop :=
  (∀ imm : BitVec 16, Sys2Proof.decode ((0x20 : BitVec 8) ++ (0 : BitVec 8) ++ imm) = .ok (.tableClear imm)) ∧
  ∀ (u : BitVec 16) (s : State), s.params.legal = true → ∃ t, exec (.tableClear u) s = .next t ∧
    t = { s with table := t.table, status := { s.status with err := .none, busy := false, done := true } } ∧
    (∀ x, t.code x = none) ∧ t.maxLen = 0 ∧
    (∀ x v, ∃ t', exec (.tableRead x v) t = .next t' ∧ t'.status.err = .unknownSymbol) ∧
    ∀ v, ∃ t', exec (.decode v) t = .next t' ∧ (t'.status.err = .none ↔ s.bitLen = 0)

/-- GEN_TABLE with no tree reports NO_TREE and changes nothing else. With a tree it writes the table
alone: exactly the leaves have an entry, each with its root-to-leaf path, and a single leaf gets "" or "0" by the policy
bit (42_code_table_rom.md R141, R142). -/
def Obligations.GenTableGivesRootToLeafPaths : Prop :=
  (∀ (u : BitVec 16) (s : State), s.tree.valid = false → exec (.genTable u) s =
    .next { s with status := { s.status with err := .noTree, busy := false, done := true } }) ∧
  ∀ (u : BitVec 16) (s : State), s.Inv → s.tree.valid = true → ∃ t, exec (.genTable u) s = .next t ∧
    t = { s with table := t.table, status := { s.status with err := .none, busy := false, done := true } } ∧
    (∀ x, (t.code x).isSome = true ↔ s.leafWeight x ≠ 0) ∧
    (s.tree.nodeCount ≠ 0 → ∀ (x : Symbol) c, (t.code x = some c ↔ s.walk s.tree.root c = some (x.setWidth 9)) ∧
      (t.code x = some c → 1 ≤ c.length ∧ c.length ≤ s.tree.nodeCount.toNat ∧ c.length ≤ 255)) ∧
    (s.tree.nodeCount = 0 → ∃ r : Symbol, s.tree.root = r.setWidth 9 ∧
      t.code r = some (if s.ctrl.degen1bit then [false] else []))

/-- Every generated table is prefix-free and its codes are distinct; a degenerate one has a single entry
(42_code_table_rom.md R143). -/
def Obligations.GeneratedTablesArePrefixFree : Prop :=
  ∀ (u : BitVec 16) (s : State), s.Inv → s.tree.valid = true → ∃ t, exec (.genTable u) s = .next t ∧
    (∀ x y c d, t.code x = some c → t.code y = some d → x ≠ y → ¬ c <+: d ∧ c ≠ d) ∧
    (s.tree.nodeCount = 0 → ∀ x y c d, t.code x = some c → t.code y = some d → x = y)

/-- TABLE_WRITE loads the staged bits for every symbol and length, and changes nothing else (42_code_table_rom.md R144;
10_state.md R32). -/
def Obligations.TableWriteLoadsStagedCode : Prop :=
  (∀ len sym : BitVec 8, Sys2Proof.decode ((0x22 : BitVec 8) ++ (0 : BitVec 8) ++ (len ++ sym)) = .ok (.tableWrite sym len)) ∧
  ∀ (sym : Symbol) (len : BitVec 8) (s : State), ∃ t, exec (.tableWrite sym len) s = .next t ∧
    t = { s with table := t.table, status := { s.status with err := .none, busy := false, done := true } } ∧
    (∃ c, t.code sym = some c ∧ c.length = len.toNat ∧
      ∀ i, i < len.toNat → c.getD i false = (s.codeStage.getD (i >>> 5) 0).getLsbD (i &&& 31)) ∧
    ∀ y, y ≠ sym → t.code y = s.code y

/-- TABLE_DELETE removes one entry, valid or not, and changes nothing else; MAXLEN may only fall
(42_code_table_rom.md R145). -/
def Obligations.TableDeleteRemovesEntry : Prop :=
  (∀ u sym : BitVec 8, Sys2Proof.decode ((0x23 : BitVec 8) ++ (0 : BitVec 8) ++ (u ++ sym)) = .ok (.tableDelete sym u)) ∧
  ∀ (sym : Symbol) (u : BitVec 8) (s : State), ∃ t, exec (.tableDelete sym u) s = .next t ∧
    t = { s with table := t.table, status := { s.status with err := .none, busy := false, done := true } } ∧
    t.code sym = none ∧ (∀ y, y ≠ sym → t.code y = s.code y) ∧ t.maxLen ≤ s.maxLen ∧
    ∀ v, ∃ t', exec (.tableRead sym v) t = .next t' ∧ t'.status.err = .unknownSymbol

/-- TABLE_READ gives the entry's length and its packed bits, or zeros and UNKNOWN_SYMBOL, and changes nothing else
(42_code_table_rom.md R146; 10_state.md R33). -/
def Obligations.TableReadResults : Prop :=
  (∀ u sym : BitVec 8, Sys2Proof.decode ((0x24 : BitVec 8) ++ (0 : BitVec 8) ++ (u ++ sym)) = .ok (.tableRead sym u)) ∧
  ∀ (sym : Symbol) (u : BitVec 8) (s : State),
    (∀ c, s.code sym = some c → c.length ≤ 255 → ∃ t, exec (.tableRead sym u) s = .next t ∧
      t = { s with
        res0 := t.res0
        codeOut := t.codeOut
        status := { s.status with err := .none, busy := false, done := true } } ∧
      t.res0.getLsbD 31 = true ∧ t.res0.extractLsb' 8 23 = 0 ∧ (t.res0.extractLsb' 0 8).toNat = c.length ∧
      ∀ i, i < 256 → (t.codeOut.getD (i >>> 5) 0).getLsbD (i &&& 31) = if i < c.length then c.getD i false else false) ∧
    (s.code sym = none → ∃ t, exec (.tableRead sym u) s = .next t ∧
      t = { s with
        res0 := 0
        codeOut := t.codeOut
        status := { s.status with err := .unknownSymbol, busy := false, done := true } } ∧
      ∀ k : Fin 8, t.codeOut[k] = 0)

/-- The table has no insertion history. TABLE_WRITEs of two distinct symbols lead to the same state in either order. And two
blocks whose tables have the same entries, however they are listed, behave identically under every command: all the rest
of the state is equal afterwards, and the tables have the same entries again (10_state.md R39). -/
def Obligations.TableHasNoInsertionHistory : Prop :=
  (∀ (x y : Symbol) (lx ly : BitVec 8) (s : State), s.StoresOk → x ≠ y → ∃ a b t,
    exec (.tableWrite x lx) s = .next a ∧ exec (.tableWrite y ly) a = .next t ∧
    exec (.tableWrite y ly) s = .next b ∧ exec (.tableWrite x lx) b = .next t) ∧
  ∀ (i : Instr) (s s' : State), s' = { s with table := s'.table } → (∀ x, s'.code x = s.code x) → ∃ t t',
    exec i s = .next t ∧ exec i s' = .next t' ∧ t' = { t with table := t'.table } ∧ ∀ x, t'.code x = t.code x

/-! ### Decoder -/

/-- BITBUF_CLEAR sets BIT_LEN to 0 and nothing else, and the whole BITBUF window then reads 0 (43_decoder_fsm.md
R160). -/
def Obligations.BitbufClearEmptiesBuffer : Prop :=
  (∀ imm : BitVec 16, Sys2Proof.decode ((0x30 : BitVec 8) ++ (0 : BitVec 8) ++ imm) = .ok (.bitbufClear imm)) ∧
  ∀ (u : BitVec 16) (s : State), ∃ t, exec (.bitbufClear u) s = .next t ∧
    t = { s with bitLen := 0, status := { s.status with err := .none, busy := false, done := true } } ∧
    ∀ (a : Addr) (j : Nat), s.params.legal = true → j < s.params.bitbufBits / 32 → wordAddress a = 0x1000 + 4 * j →
      t.memRead a = (0, t)

/-- BITBUF_APPEND: its errors in their order, each with nothing else changed, and otherwise the n bits of ARG0 after the
bits already there (43_decoder_fsm.md R161). -/
def Obligations.BitbufAppendAddsBits : Prop :=
  (∀ n : BitVec 16, Sys2Proof.decode ((0x31 : BitVec 8) ++ (0 : BitVec 8) ++ n) = .ok (.bitbufAppend n)) ∧
  ∀ (n : BitVec 16) (s : State), s.params.legal = true →
    (n.toNat < 1 ∨ 32 < n.toNat → exec (.bitbufAppend n) s =
      .next { s with status := { s.status with err := .badOperand, busy := false, done := true } }) ∧
    (1 ≤ n.toNat → n.toNat ≤ 32 → s.params.bitbufBits < s.bitLen.toNat + n.toNat → exec (.bitbufAppend n) s =
      .next { s with status := { s.status with err := .bufferFull, busy := false, done := true } }) ∧
    (1 ≤ n.toNat → n.toNat ≤ 32 → s.bitLen.toNat + n.toNat ≤ s.params.bitbufBits →
      ∃ t, exec (.bitbufAppend n) s = .next t ∧
        t = { s with
          bits := t.bits
          bitLen := t.bitLen
          status := { s.status with err := .none, busy := false, done := true } } ∧
        t.bitLen.toNat = s.bitLen.toNat + n.toNat ∧
        (∀ j, j < n.toNat → t.bit (s.bitLen.toNat + j) = s.arg0.getLsbD j) ∧
        ∀ j, j < s.bitLen.toNat ∨ s.bitLen.toNat + n.toNat ≤ j → t.bit j = s.bit j)

/-- The inverted-table match is the lowest symbol whose code is the L bits from pos on, none when there is none
(43_decoder_fsm.md R163). -/
def Obligations.LowestSymbolMatches : Prop :=
  ∀ (s : State) (pos len : Nat),
    (∀ x, s.matchCode pos len = some x ↔
      (∃ c, s.code x = some c ∧ c.length = len ∧ ∀ i, i < len → c.getD i false = s.bit (pos + i)) ∧
      ∀ y : Symbol, y.toNat < x.toNat →
        ¬ ∃ c, s.code y = some c ∧ c.length = len ∧ ∀ i, i < len → c.getD i false = s.bit (pos + i)) ∧
    (s.matchCode pos len = none ↔
      ∀ y, ¬ ∃ c, s.code y = some c ∧ c.length = len ∧ ∀ i, i < len → c.getD i false = s.bit (pos + i))

/-- DECODE of an empty input succeeds at once, whatever the table; with no code of at least one bit, any other input ends in
DECODE_ERROR; and a second DECODE changes nothing more (43_decoder_fsm.md R162). -/
def Obligations.DecodeCornerCases : Prop :=
  ∀ (u : BitVec 16) (s : State), s.params.legal = true →
    (s.bitLen = 0 → ∃ t, exec (.decode u) s = .next t ∧ t.status.err = .none ∧ t.outLen = 0 ∧ t.arenaUsed = 1) ∧
    (s.bitLen ≠ 0 → (∀ x c, s.code x = some c → c = []) → ∃ t, exec (.decode u) s = .next t ∧
      t.status.err = .decodeError ∧ t.outLen = 0 ∧ t.arenaUsed = 1) ∧
    (s.Inv → ∀ v, ∃ t, exec (.decode u) s = .next t ∧ exec (.decode v) t = .next t)

/-- DECODE's bounds: the search needs at most ARENA_DEPTH dequeues of at most min(255, BIT_LEN) lengths each,
1 ≤ ARENA_USED ≤ ARENA_DEPTH, OUT_LEN ≤ BIT_LEN, and every state but the seed lies after its parent
(43_decoder_fsm.md R165). It writes OUT, OUT_LEN, ARENA and ARENA_USED alone. -/
def Obligations.DecodeBounds : Prop :=
  ∀ (u : BitVec 16) (s : State), s.Inv → ∃ t, exec (.decode u) s = .next t ∧
    t = { s with
      out := t.out
      outLen := t.outLen
      arena := t.arena
      arenaUsed := t.arenaUsed
      status := { s.status with err := t.status.err, busy := false, done := true } } ∧
    1 ≤ t.arenaUsed.toNat ∧ t.arenaUsed.toNat ≤ s.params.arenaDepth ∧ t.outLen.toNat ≤ s.bitLen.toNat ∧
    s.bitLen.toNat ≤ s.params.bitbufBits ∧
    (∀ a, 0 < a → a < t.arenaUsed.toNat → ∃ e p, t.arena.read a = some e ∧ e.parent.toNat < a ∧
      t.arena.read e.parent.toNat = some p ∧ p.pos.toNat < e.pos.toNat ∧ e.pos.toNat ≤ s.bitLen.toNat ∧
      e.depth.toNat = p.depth.toNat + 1) ∧
    (∀ st, (s.prefixLengths st).length ≤ min 255 s.bitLen.toNat) ∧
    ∀ fuel, s.params.arenaDepth + 1 ≤ fuel → s.search fuel 0 [seedState] = s.decodeSearch

/-- DECODE's three outcomes: a full decoding in OUT, or no full decoding exists, or the arena is full; on an error OUT_LEN
is 0 and OUT is untouched. The arena is full exactly when the source's search, which ends, creates more than ARENA_DEPTH
states before its result, the seed among them; otherwise ARENA_USED is the number it creates (43_decoder_fsm.md R162, R168;
60_exceptions.md R200, R202). -/
def Obligations.DecodeOutcomes : Prop :=
  ∀ (u : BitVec 16) (s : State), s.Inv → ∃ t, exec (.decode u) s = .next t ∧
    ((t.status.err = .none ∧ s.FullDecoding t.outputBytes) ∨
      (t.status.err = .decodeError ∧ t.outLen = 0 ∧ t.out = s.out ∧ ∀ xs, ¬ s.FullDecoding xs) ∨
      (t.status.err = .arenaOverflow ∧ t.outLen = 0 ∧ t.out = s.out ∧ t.arenaUsed.toNat = s.params.arenaDepth)) ∧
    ∃ fuel n, s.statesCreated fuel [([], s.inputBits)] = some n ∧
      (t.status.err = .arenaOverflow ↔ s.params.arenaDepth < n + 1) ∧
      (t.status.err ≠ .arenaOverflow → t.arenaUsed.toNat = n + 1)

/-- DECODE's result is the source's: without an overflow it is exactly what the source's unbounded FIFO search returns, the
first full decoding in discovery order or DecodeError, and a decoding found has the fewest symbols
(43_decoder_fsm.md R164). -/
def Obligations.DecodeIsTheSourcesDecoder : Prop :=
  ∀ (u : BitVec 16) (s : State), s.Inv → ∃ t, exec (.decode u) s = .next t ∧
    (t.status.err ≠ .arenaOverflow → ∃ fuel,
      s.sourceDecode fuel [([], s.inputBits)] =
        some (if t.status.err = .none then some t.outputBytes else none) ∧
      (t.status.err ≠ .none → t.status.err = .decodeError)) ∧
    (t.status.err = .none → ∀ xs, s.FullDecoding xs → t.outputBytes.length ≤ xs.length)

/-- With a prefix-free table each position has at most one match, the states form one chain, ARENA_OVERFLOW cannot occur,
and DECODE is the greedy prefix walk (43_decoder_fsm.md R166). -/
def Obligations.PrefixFreeTablesGiveASingleChain : Prop :=
  ∀ (u : BitVec 16) (s : State), s.Inv → s.PrefixFree → ∃ t, exec (.decode u) s = .next t ∧
    (∀ pos a b x y, 1 ≤ a → 1 ≤ b → s.matchCode pos a = some x → s.matchCode pos b = some y → a = b) ∧
    (∀ a, 0 < a → a < t.arenaUsed.toNat → ∃ e, t.arena.read a = some e ∧ e.parent.toNat = a - 1) ∧
    t.arenaUsed.toNat ≤ s.bitLen.toNat + 1 ∧ s.bitLen.toNat + 1 ≤ s.params.bitbufBits + 1 ∧
    s.params.bitbufBits + 1 ≤ s.params.arenaDepth ∧ t.status.err ≠ .arenaOverflow ∧
    (if t.status.err = .none then some t.outputBytes else none) = s.greedyWalk (s.bitLen.toNat + 1) 0 ∧
    (t.status.err = .none → t.arenaUsed.toNat = t.outLen.toNat + 1)

/-- The round trip: GEN_TABLE, then the concatenated codes of a text loaded into the cleared buffer, then DECODE give the
text back; with the literal degenerate table every text encodes to "" and decodes to nothing (43_decoder_fsm.md R167). -/
def Obligations.DecodeInvertsEncoding : Prop :=
  ∀ (u v d : BitVec 16) (s : State) (text : List Symbol), s.Inv → s.tree.valid = true →
    (∀ x ∈ text, s.leafWeight x ≠ 0) →
    ∃ g b e, exec (.genTable u) s = .next g ∧ exec (.bitbufClear v) g = .next b ∧ g.encodeBytes text = some e ∧
      (e.length ≤ s.params.bitbufBits → (∃ l, Loads b e l) ∧ ∀ l, Loads b e l → ∃ t, exec (.decode d) l = .next t ∧
        (s.tree.nodeCount ≠ 0 ∨ s.ctrl.degen1bit = true →
          t.status.err = .none ∧ t.outputBytes = text ∧ t.outLen.toNat = text.length ∧
            t.arenaUsed.toNat = text.length + 1) ∧
        (s.tree.nodeCount = 0 → s.ctrl.degen1bit = false → e = [] ∧ t.outLen = 0))

/-! ### Errors and the interrupt -/

/-- An error has only the effects its rule lists, everything else is as it was at acceptance, and each command reports only
its own codes (60_exceptions.md R200, R201). -/
def Obligations.ErrorsWriteOnlyWhatTheyList : Prop :=
  (∀ (s : State) (r : DecodeReject), s.status.busy = true → Sys2Proof.decode s.pend = .error r →
    engineStep s = .next { s with status := { s.status with err := .illegalCommand, busy := false, done := true } }) ∧
  ∀ (i : Instr) (s t : State), s.Inv → exec i s = .next t →
    (t.status.err = .badOperand ∨ t.status.err = .noTree ∨ t.status.err = .bufferFull →
      t = { s with status := { s.status with err := t.status.err, busy := false, done := true } }) ∧
    (t.status.err = .emptyAlphabet → (∀ x, t.leafWeight x = s.weight x) ∧
      t = { s with
        lw := t.lw
        tree := { root := 0, nodeCount := 0, valid := false }
        status := { s.status with err := t.status.err, busy := false, done := true } }) ∧
    (t.status.err = .unknownSymbol →
      t = { s with
        res0 := 0
        codeOut := Vector.replicate 8 0
        status := { s.status with err := t.status.err, busy := false, done := true } }) ∧
    (t.status.err = .decodeError ∨ t.status.err = .arenaOverflow →
      t = { s with
        outLen := 0
        arena := t.arena
        arenaUsed := t.arenaUsed
        status := { s.status with err := t.status.err, busy := false, done := true } }) ∧
    t.status.err ∈ match i with
      | .nop _ | .clearWeights _ | .tableClear _ | .tableWrite _ _ | .tableDelete _ _ | .bitbufClear _ => [ErrCode.none]
      | .buildTree _ => [.none, .emptyAlphabet]
      | .nodeRead _ => [.none, .noTree, .badOperand]
      | .genTable _ => [.none, .noTree]
      | .tableRead _ _ => [.none, .unknownSymbol]
      | .bitbufAppend _ => [.none, .badOperand, .bufferFull]
      | .decode _ => [.none, .decodeError, .arenaOverflow]

/-- The interrupt is a level: DONE and IRQ_EN. A completion raises it exactly when enabled; acceptance and a STATUS write of
bit 1 lower it; the two sticky flags do not move it (60_exceptions.md R205). -/
def Obligations.InterruptLevel : Prop :=
  ∀ (s : State) (a : Addr) (v : Word),
    (s.irq = true ↔ s.status.done = true ∧ s.ctrl.irqEn = true) ∧
    (s.status.busy = true → ∃ t, engineStep s = .next t ∧ t.irq = s.ctrl.irqEn) ∧
    (wordAddress a = 0x00C → s.status.busy = false → (s.memWrite a v).irq = false) ∧
    (wordAddress a = 0x008 → v.getLsbD 1 = true → (s.memWrite a v).irq = false) ∧
    (s.status.busy = true → wordAddress a ≠ 0x008 → (s.memWrite a v).irq = s.irq) ∧
    (wordAddress a = 0x004 → s.status.busy = false → (s.memWrite a v).irq = (s.status.done && v.getLsbD 0))

/-! ### Reset -/

/-- A cycle in reset: the block takes its reset state, a host access in it has no effect, a read returns 0, and nothing but
a reset turn resets the block (70_reset_and_hazards.md R230; a reset turn is the model's form of an edge with rst_n = 0,
logs 2 and 13). -/
def Obligations.ResetCycleEffects : Prop :=
  (∀ (s : State) (rest : List Turn), s.turns = .reset false :: rest → step s =
    .next { State.afterReset s.params (s.resets + 1) with
      prog := s.prog, reads := s.reads, turns := rest, draws := s.draws }) ∧
  (∀ (s : State) (rest : List Turn) (a : Addr) (v : Word) (prog : List HostStmt), s.turns = .reset true :: rest →
    (s.prog = .write a v :: prog → step s =
      .next { State.afterReset s.params (s.resets + 1) with
        prog := prog, reads := s.reads, turns := rest, draws := s.draws }) ∧
    (s.prog = .read a :: prog → step s =
      .next { State.afterReset s.params (s.resets + 1) with
        prog := prog, reads := 0 :: s.reads, turns := rest, draws := s.draws })) ∧
  (∀ (s t : State), (∀ access rest, s.turns ≠ .reset access :: rest) → step s = .next t → t.resets = s.resets)

/-- The values of reset, register by register; the stores it leaves unspecified are not among them
(70_reset_and_hazards.md R231; what those hold is the model's free values, logs 3 and 4). -/
def Obligations.ResetValues : Prop :=
  ∀ (s : State) (access : Bool), ∃ t, s.resetStep access = t ∧ t.ctrl.irqEn = false ∧ t.ctrl.degen1bit = false ∧
    t.status = { busy := false, done := false, cmdLost := false, wrIgnored := false, err := .none } ∧
    t.arg0 = 0 ∧ t.res0 = 0 ∧ t.res1 = 0 ∧ (∀ k : Fin 8, t.codeStage[k] = 0) ∧ (∀ k : Fin 8, t.codeOut[k] = 0) ∧
    t.tree = { root := 0, nodeCount := 0, valid := false } ∧ (∀ x, t.code x = none) ∧ t.maxLen = 0 ∧ t.bitLen = 0 ∧
    t.outLen = 0 ∧ t.arenaUsed = 0 ∧ t.pend = 0 ∧ t.params = s.params ∧ engineStep t = .next t

/-- After reset the block is idle and accepts a command, the interrupt is low, there is no tree, and the table and the
buffers are empty (70_reset_and_hazards.md R232). -/
def Obligations.IdleAfterReset : Prop :=
  ∀ (p : Params) (n : Nat) (s : State), s = State.afterReset p n →
    s.status.busy = false ∧ s.irq = false ∧ s.ctrl.irqEn = false ∧ s.tree.valid = false ∧ (∀ x, s.code x = none) ∧
    s.inputBits = [] ∧ s.outputBytes = [] ∧ ∀ w, (s.memWrite 0x00C w).pend = w ∧ (s.memWrite 0x00C w).status.busy = true

/-- The state after reset meets the invariant, and so does reset with any legal parameters (10_state.md R34 to R42). -/
def Obligations.ResetMeetsInvariant : Prop :=
  State.reset.Inv ∧ ∀ (p : Params) (n : Nat), p.legal = true → (State.afterReset p n).Inv

/-! ### The whole machine -/

/-- Every step keeps the invariant: every store in its form and its bounds, the lengths in theirs, no unwritten buffer entry
below a length, codes that fit, and a tree that is a tree whenever TREE_VALID = 1 (10_state.md R27 to R42;
41_tree_builder.md R127). -/
def Obligations.StepKeepsInvariant : Prop := ∀ s t : State, s.Inv → step s = .next t → t.Inv

/-- No step faults and none is refused: every access and every command word has an outcome (20_memory.md R67;
30_encoding.md R84; 40_command_control.md R104), so every run from an invariant state is safe. -/
def Obligations.EveryRunIsSafe : Prop := ∀ (n : Nat) (s : State), s.Inv → SafeRun n s

/-- Which commands write which state: RES0, RES1, TREE, the tree's stores, the table, BIT_LEN, OUT, OUT_LEN, ARENA_USED,
CODE_OUT and W have no other writers among the commands (10_state.md R21, R27, R29, R30, R33, R34, R38). -/
def Obligations.OnlyTheseCommandsWrite : Prop :=
  ∀ (i : Instr) (s t : State), exec i s = .next t →
    (t.res0 ≠ s.res0 → (∃ id, i = .nodeRead id) ∨ ∃ x v, i = .tableRead x v) ∧
    (t.res1 ≠ s.res1 → ∃ id, i = .nodeRead id) ∧
    (t.codeOut ≠ s.codeOut → ∃ x v, i = .tableRead x v) ∧
    (t.tree ≠ s.tree ∨ t.lw ≠ s.lw ∨ t.nodes ≠ s.nodes → ∃ u, i = .buildTree u) ∧
    (t.table ≠ s.table →
      (∃ u, i = .tableClear u) ∨ (∃ u, i = .genTable u) ∨ (∃ x l, i = .tableWrite x l) ∨ ∃ x v, i = .tableDelete x v) ∧
    (t.bitLen ≠ s.bitLen → (∃ u, i = .bitbufClear u) ∨ ∃ n, i = .bitbufAppend n) ∧
    (t.out ≠ s.out ∨ t.outLen ≠ s.outLen ∨ t.arena ≠ s.arena ∨ t.arenaUsed ≠ s.arenaUsed → ∃ u, i = .decode u) ∧
    (t.w ≠ s.w → ∃ u, i = .clearWeights u)

/-- CTRL.DEGEN_1BIT acts only through GEN_TABLE; a CTRL write changes no table, a W write no tree, and only DECODE changes
OUT (70_reset_and_hazards.md R237). -/
def Obligations.LateEffectHazards : Prop :=
  (∀ (i : Instr) (s : State) (c : Ctrl), (∀ u, i ≠ .genTable u) → ∃ t, exec i s = .next t ∧
    exec i { s with ctrl := c } = .next { t with ctrl := c }) ∧
  (∀ (s : State) (a : Addr) (v : Word), (s.memWrite a v).table = s.table ∧ (s.memWrite a v).tree = s.tree ∧
    (∀ x, (s.memWrite a v).leafWeight x = s.leafWeight x) ∧ (∀ k, (s.memWrite a v).node k = s.node k) ∧
    (s.memWrite a v).out = s.out ∧ (s.memWrite a v).outLen = s.outLen) ∧
  (∀ (i : Instr) (s t : State), exec i s = .next t → (∀ u, i ≠ .decode u) → t.out = s.out ∧ t.outLen = s.outLen)
end

