-- ==== Sys2Proof/Laws/State.lean ====
section
/-! SUPPORT. One lemma per field per update of State, each true by rfl, so that no later proof unfolds a record update. -/

namespace Sys2Proof.Machine

@[simp] theorem raise_eq_finish (s : State) (e : ErrCode) : s.raise e = s.finish e := rfl

@[simp] theorem illegalCommand_eq_finish (s : State) : s.illegalCommand = s.finish .illegalCommand := rfl

/-! ### finish -/

@[simp] theorem finish_params (s : State) (code : ErrCode) : (s.finish code).params = s.params := rfl
@[simp] theorem finish_ctrl (s : State) (code : ErrCode) : (s.finish code).ctrl = s.ctrl := rfl
@[simp] theorem finish_status (s : State) (code : ErrCode) : (s.finish code).status = s.status.completed code := rfl
@[simp] theorem finish_arg0 (s : State) (code : ErrCode) : (s.finish code).arg0 = s.arg0 := rfl
@[simp] theorem finish_res0 (s : State) (code : ErrCode) : (s.finish code).res0 = s.res0 := rfl
@[simp] theorem finish_res1 (s : State) (code : ErrCode) : (s.finish code).res1 = s.res1 := rfl
@[simp] theorem finish_tree (s : State) (code : ErrCode) : (s.finish code).tree = s.tree := rfl
@[simp] theorem finish_bitLen (s : State) (code : ErrCode) : (s.finish code).bitLen = s.bitLen := rfl
@[simp] theorem finish_outLen (s : State) (code : ErrCode) : (s.finish code).outLen = s.outLen := rfl
@[simp] theorem finish_arenaUsed (s : State) (code : ErrCode) : (s.finish code).arenaUsed = s.arenaUsed := rfl
@[simp] theorem finish_codeStage (s : State) (code : ErrCode) : (s.finish code).codeStage = s.codeStage := rfl
@[simp] theorem finish_codeOut (s : State) (code : ErrCode) : (s.finish code).codeOut = s.codeOut := rfl
@[simp] theorem finish_w (s : State) (code : ErrCode) : (s.finish code).w = s.w := rfl
@[simp] theorem finish_lw (s : State) (code : ErrCode) : (s.finish code).lw = s.lw := rfl
@[simp] theorem finish_nodes (s : State) (code : ErrCode) : (s.finish code).nodes = s.nodes := rfl
@[simp] theorem finish_table (s : State) (code : ErrCode) : (s.finish code).table = s.table := rfl
@[simp] theorem finish_bits (s : State) (code : ErrCode) : (s.finish code).bits = s.bits := rfl
@[simp] theorem finish_out (s : State) (code : ErrCode) : (s.finish code).out = s.out := rfl
@[simp] theorem finish_arena (s : State) (code : ErrCode) : (s.finish code).arena = s.arena := rfl
@[simp] theorem finish_pend (s : State) (code : ErrCode) : (s.finish code).pend = s.pend := rfl
@[simp] theorem finish_prog (s : State) (code : ErrCode) : (s.finish code).prog = s.prog := rfl
@[simp] theorem finish_reads (s : State) (code : ErrCode) : (s.finish code).reads = s.reads := rfl
@[simp] theorem finish_turns (s : State) (code : ErrCode) : (s.finish code).turns = s.turns := rfl
@[simp] theorem finish_resets (s : State) (code : ErrCode) : (s.finish code).resets = s.resets := rfl
@[simp] theorem finish_draws (s : State) (code : ErrCode) : (s.finish code).draws = s.draws := rfl

/-! ### accept -/

@[simp] theorem accept_params (s : State) (word : Word) : (s.accept word).params = s.params := rfl
@[simp] theorem accept_ctrl (s : State) (word : Word) : (s.accept word).ctrl = s.ctrl := rfl
@[simp] theorem accept_status (s : State) (word : Word) : (s.accept word).status = s.status.accepted := rfl
@[simp] theorem accept_arg0 (s : State) (word : Word) : (s.accept word).arg0 = s.arg0 := rfl
@[simp] theorem accept_res0 (s : State) (word : Word) : (s.accept word).res0 = s.res0 := rfl
@[simp] theorem accept_res1 (s : State) (word : Word) : (s.accept word).res1 = s.res1 := rfl
@[simp] theorem accept_tree (s : State) (word : Word) : (s.accept word).tree = s.tree := rfl
@[simp] theorem accept_bitLen (s : State) (word : Word) : (s.accept word).bitLen = s.bitLen := rfl
@[simp] theorem accept_outLen (s : State) (word : Word) : (s.accept word).outLen = s.outLen := rfl
@[simp] theorem accept_arenaUsed (s : State) (word : Word) : (s.accept word).arenaUsed = s.arenaUsed := rfl
@[simp] theorem accept_codeStage (s : State) (word : Word) : (s.accept word).codeStage = s.codeStage := rfl
@[simp] theorem accept_codeOut (s : State) (word : Word) : (s.accept word).codeOut = s.codeOut := rfl
@[simp] theorem accept_w (s : State) (word : Word) : (s.accept word).w = s.w := rfl
@[simp] theorem accept_lw (s : State) (word : Word) : (s.accept word).lw = s.lw := rfl
@[simp] theorem accept_nodes (s : State) (word : Word) : (s.accept word).nodes = s.nodes := rfl
@[simp] theorem accept_table (s : State) (word : Word) : (s.accept word).table = s.table := rfl
@[simp] theorem accept_bits (s : State) (word : Word) : (s.accept word).bits = s.bits := rfl
@[simp] theorem accept_out (s : State) (word : Word) : (s.accept word).out = s.out := rfl
@[simp] theorem accept_arena (s : State) (word : Word) : (s.accept word).arena = s.arena := rfl
@[simp] theorem accept_pend (s : State) (word : Word) : (s.accept word).pend = word := rfl
@[simp] theorem accept_prog (s : State) (word : Word) : (s.accept word).prog = s.prog := rfl
@[simp] theorem accept_reads (s : State) (word : Word) : (s.accept word).reads = s.reads := rfl
@[simp] theorem accept_turns (s : State) (word : Word) : (s.accept word).turns = s.turns := rfl
@[simp] theorem accept_resets (s : State) (word : Word) : (s.accept word).resets = s.resets := rfl
@[simp] theorem accept_draws (s : State) (word : Word) : (s.accept word).draws = s.draws := rfl

/-! ### loseCommand -/

@[simp] theorem loseCommand_params (s : State) : s.loseCommand.params = s.params := rfl
@[simp] theorem loseCommand_ctrl (s : State) : s.loseCommand.ctrl = s.ctrl := rfl
@[simp] theorem loseCommand_status (s : State) : s.loseCommand.status = { s.status with cmdLost := true } := rfl
@[simp] theorem loseCommand_arg0 (s : State) : s.loseCommand.arg0 = s.arg0 := rfl
@[simp] theorem loseCommand_res0 (s : State) : s.loseCommand.res0 = s.res0 := rfl
@[simp] theorem loseCommand_res1 (s : State) : s.loseCommand.res1 = s.res1 := rfl
@[simp] theorem loseCommand_tree (s : State) : s.loseCommand.tree = s.tree := rfl
@[simp] theorem loseCommand_bitLen (s : State) : s.loseCommand.bitLen = s.bitLen := rfl
@[simp] theorem loseCommand_outLen (s : State) : s.loseCommand.outLen = s.outLen := rfl
@[simp] theorem loseCommand_arenaUsed (s : State) : s.loseCommand.arenaUsed = s.arenaUsed := rfl
@[simp] theorem loseCommand_codeStage (s : State) : s.loseCommand.codeStage = s.codeStage := rfl
@[simp] theorem loseCommand_codeOut (s : State) : s.loseCommand.codeOut = s.codeOut := rfl
@[simp] theorem loseCommand_w (s : State) : s.loseCommand.w = s.w := rfl
@[simp] theorem loseCommand_lw (s : State) : s.loseCommand.lw = s.lw := rfl
@[simp] theorem loseCommand_nodes (s : State) : s.loseCommand.nodes = s.nodes := rfl
@[simp] theorem loseCommand_table (s : State) : s.loseCommand.table = s.table := rfl
@[simp] theorem loseCommand_bits (s : State) : s.loseCommand.bits = s.bits := rfl
@[simp] theorem loseCommand_out (s : State) : s.loseCommand.out = s.out := rfl
@[simp] theorem loseCommand_arena (s : State) : s.loseCommand.arena = s.arena := rfl
@[simp] theorem loseCommand_pend (s : State) : s.loseCommand.pend = s.pend := rfl
@[simp] theorem loseCommand_prog (s : State) : s.loseCommand.prog = s.prog := rfl
@[simp] theorem loseCommand_reads (s : State) : s.loseCommand.reads = s.reads := rfl
@[simp] theorem loseCommand_turns (s : State) : s.loseCommand.turns = s.turns := rfl
@[simp] theorem loseCommand_resets (s : State) : s.loseCommand.resets = s.resets := rfl
@[simp] theorem loseCommand_draws (s : State) : s.loseCommand.draws = s.draws := rfl

/-! ### ignoreWrite -/

@[simp] theorem ignoreWrite_params (s : State) : s.ignoreWrite.params = s.params := rfl
@[simp] theorem ignoreWrite_ctrl (s : State) : s.ignoreWrite.ctrl = s.ctrl := rfl
@[simp] theorem ignoreWrite_status (s : State) : s.ignoreWrite.status = { s.status with wrIgnored := true } := rfl
@[simp] theorem ignoreWrite_arg0 (s : State) : s.ignoreWrite.arg0 = s.arg0 := rfl
@[simp] theorem ignoreWrite_res0 (s : State) : s.ignoreWrite.res0 = s.res0 := rfl
@[simp] theorem ignoreWrite_res1 (s : State) : s.ignoreWrite.res1 = s.res1 := rfl
@[simp] theorem ignoreWrite_tree (s : State) : s.ignoreWrite.tree = s.tree := rfl
@[simp] theorem ignoreWrite_bitLen (s : State) : s.ignoreWrite.bitLen = s.bitLen := rfl
@[simp] theorem ignoreWrite_outLen (s : State) : s.ignoreWrite.outLen = s.outLen := rfl
@[simp] theorem ignoreWrite_arenaUsed (s : State) : s.ignoreWrite.arenaUsed = s.arenaUsed := rfl
@[simp] theorem ignoreWrite_codeStage (s : State) : s.ignoreWrite.codeStage = s.codeStage := rfl
@[simp] theorem ignoreWrite_codeOut (s : State) : s.ignoreWrite.codeOut = s.codeOut := rfl
@[simp] theorem ignoreWrite_w (s : State) : s.ignoreWrite.w = s.w := rfl
@[simp] theorem ignoreWrite_lw (s : State) : s.ignoreWrite.lw = s.lw := rfl
@[simp] theorem ignoreWrite_nodes (s : State) : s.ignoreWrite.nodes = s.nodes := rfl
@[simp] theorem ignoreWrite_table (s : State) : s.ignoreWrite.table = s.table := rfl
@[simp] theorem ignoreWrite_bits (s : State) : s.ignoreWrite.bits = s.bits := rfl
@[simp] theorem ignoreWrite_out (s : State) : s.ignoreWrite.out = s.out := rfl
@[simp] theorem ignoreWrite_arena (s : State) : s.ignoreWrite.arena = s.arena := rfl
@[simp] theorem ignoreWrite_pend (s : State) : s.ignoreWrite.pend = s.pend := rfl
@[simp] theorem ignoreWrite_prog (s : State) : s.ignoreWrite.prog = s.prog := rfl
@[simp] theorem ignoreWrite_reads (s : State) : s.ignoreWrite.reads = s.reads := rfl
@[simp] theorem ignoreWrite_turns (s : State) : s.ignoreWrite.turns = s.turns := rfl
@[simp] theorem ignoreWrite_resets (s : State) : s.ignoreWrite.resets = s.resets := rfl
@[simp] theorem ignoreWrite_draws (s : State) : s.ignoreWrite.draws = s.draws := rfl

/-! ### writeStatus -/

@[simp] theorem writeStatus_params (s : State) (v : Word) : (s.writeStatus v).params = s.params := rfl
@[simp] theorem writeStatus_ctrl (s : State) (v : Word) : (s.writeStatus v).ctrl = s.ctrl := rfl
@[simp] theorem writeStatus_status (s : State) (v : Word) : (s.writeStatus v).status = s.status.clearOnes v := rfl
@[simp] theorem writeStatus_arg0 (s : State) (v : Word) : (s.writeStatus v).arg0 = s.arg0 := rfl
@[simp] theorem writeStatus_res0 (s : State) (v : Word) : (s.writeStatus v).res0 = s.res0 := rfl
@[simp] theorem writeStatus_res1 (s : State) (v : Word) : (s.writeStatus v).res1 = s.res1 := rfl
@[simp] theorem writeStatus_tree (s : State) (v : Word) : (s.writeStatus v).tree = s.tree := rfl
@[simp] theorem writeStatus_bitLen (s : State) (v : Word) : (s.writeStatus v).bitLen = s.bitLen := rfl
@[simp] theorem writeStatus_outLen (s : State) (v : Word) : (s.writeStatus v).outLen = s.outLen := rfl
@[simp] theorem writeStatus_arenaUsed (s : State) (v : Word) : (s.writeStatus v).arenaUsed = s.arenaUsed := rfl
@[simp] theorem writeStatus_codeStage (s : State) (v : Word) : (s.writeStatus v).codeStage = s.codeStage := rfl
@[simp] theorem writeStatus_codeOut (s : State) (v : Word) : (s.writeStatus v).codeOut = s.codeOut := rfl
@[simp] theorem writeStatus_w (s : State) (v : Word) : (s.writeStatus v).w = s.w := rfl
@[simp] theorem writeStatus_lw (s : State) (v : Word) : (s.writeStatus v).lw = s.lw := rfl
@[simp] theorem writeStatus_nodes (s : State) (v : Word) : (s.writeStatus v).nodes = s.nodes := rfl
@[simp] theorem writeStatus_table (s : State) (v : Word) : (s.writeStatus v).table = s.table := rfl
@[simp] theorem writeStatus_bits (s : State) (v : Word) : (s.writeStatus v).bits = s.bits := rfl
@[simp] theorem writeStatus_out (s : State) (v : Word) : (s.writeStatus v).out = s.out := rfl
@[simp] theorem writeStatus_arena (s : State) (v : Word) : (s.writeStatus v).arena = s.arena := rfl
@[simp] theorem writeStatus_pend (s : State) (v : Word) : (s.writeStatus v).pend = s.pend := rfl
@[simp] theorem writeStatus_prog (s : State) (v : Word) : (s.writeStatus v).prog = s.prog := rfl
@[simp] theorem writeStatus_reads (s : State) (v : Word) : (s.writeStatus v).reads = s.reads := rfl
@[simp] theorem writeStatus_turns (s : State) (v : Word) : (s.writeStatus v).turns = s.turns := rfl
@[simp] theorem writeStatus_resets (s : State) (v : Word) : (s.writeStatus v).resets = s.resets := rfl
@[simp] theorem writeStatus_draws (s : State) (v : Word) : (s.writeStatus v).draws = s.draws := rfl

/-! ### setWeight -/

@[simp] theorem setWeight_params (s : State) (x : Symbol) (v : Word) : (s.setWeight x v).params = s.params := rfl
@[simp] theorem setWeight_ctrl (s : State) (x : Symbol) (v : Word) : (s.setWeight x v).ctrl = s.ctrl := rfl
@[simp] theorem setWeight_status (s : State) (x : Symbol) (v : Word) : (s.setWeight x v).status = s.status := rfl
@[simp] theorem setWeight_arg0 (s : State) (x : Symbol) (v : Word) : (s.setWeight x v).arg0 = s.arg0 := rfl
@[simp] theorem setWeight_res0 (s : State) (x : Symbol) (v : Word) : (s.setWeight x v).res0 = s.res0 := rfl
@[simp] theorem setWeight_res1 (s : State) (x : Symbol) (v : Word) : (s.setWeight x v).res1 = s.res1 := rfl
@[simp] theorem setWeight_tree (s : State) (x : Symbol) (v : Word) : (s.setWeight x v).tree = s.tree := rfl
@[simp] theorem setWeight_bitLen (s : State) (x : Symbol) (v : Word) : (s.setWeight x v).bitLen = s.bitLen := rfl
@[simp] theorem setWeight_outLen (s : State) (x : Symbol) (v : Word) : (s.setWeight x v).outLen = s.outLen := rfl
@[simp] theorem setWeight_arenaUsed (s : State) (x : Symbol) (v : Word) :
    (s.setWeight x v).arenaUsed = s.arenaUsed := rfl
@[simp] theorem setWeight_codeStage (s : State) (x : Symbol) (v : Word) :
    (s.setWeight x v).codeStage = s.codeStage := rfl
@[simp] theorem setWeight_codeOut (s : State) (x : Symbol) (v : Word) : (s.setWeight x v).codeOut = s.codeOut := rfl
@[simp] theorem setWeight_w (s : State) (x : Symbol) (v : Word) : (s.setWeight x v).w = s.w.write x.toNat v := rfl
@[simp] theorem setWeight_lw (s : State) (x : Symbol) (v : Word) : (s.setWeight x v).lw = s.lw := rfl
@[simp] theorem setWeight_nodes (s : State) (x : Symbol) (v : Word) : (s.setWeight x v).nodes = s.nodes := rfl
@[simp] theorem setWeight_table (s : State) (x : Symbol) (v : Word) : (s.setWeight x v).table = s.table := rfl
@[simp] theorem setWeight_bits (s : State) (x : Symbol) (v : Word) : (s.setWeight x v).bits = s.bits := rfl
@[simp] theorem setWeight_out (s : State) (x : Symbol) (v : Word) : (s.setWeight x v).out = s.out := rfl
@[simp] theorem setWeight_arena (s : State) (x : Symbol) (v : Word) : (s.setWeight x v).arena = s.arena := rfl
@[simp] theorem setWeight_pend (s : State) (x : Symbol) (v : Word) : (s.setWeight x v).pend = s.pend := rfl
@[simp] theorem setWeight_prog (s : State) (x : Symbol) (v : Word) : (s.setWeight x v).prog = s.prog := rfl
@[simp] theorem setWeight_reads (s : State) (x : Symbol) (v : Word) : (s.setWeight x v).reads = s.reads := rfl
@[simp] theorem setWeight_turns (s : State) (x : Symbol) (v : Word) : (s.setWeight x v).turns = s.turns := rfl
@[simp] theorem setWeight_resets (s : State) (x : Symbol) (v : Word) : (s.setWeight x v).resets = s.resets := rfl
@[simp] theorem setWeight_draws (s : State) (x : Symbol) (v : Word) : (s.setWeight x v).draws = s.draws := rfl

/-! ### setCode -/

@[simp] theorem setCode_params (s : State) (x : Symbol) (c : BitString) : (s.setCode x c).params = s.params := rfl
@[simp] theorem setCode_ctrl (s : State) (x : Symbol) (c : BitString) : (s.setCode x c).ctrl = s.ctrl := rfl
@[simp] theorem setCode_status (s : State) (x : Symbol) (c : BitString) : (s.setCode x c).status = s.status := rfl
@[simp] theorem setCode_arg0 (s : State) (x : Symbol) (c : BitString) : (s.setCode x c).arg0 = s.arg0 := rfl
@[simp] theorem setCode_res0 (s : State) (x : Symbol) (c : BitString) : (s.setCode x c).res0 = s.res0 := rfl
@[simp] theorem setCode_res1 (s : State) (x : Symbol) (c : BitString) : (s.setCode x c).res1 = s.res1 := rfl
@[simp] theorem setCode_tree (s : State) (x : Symbol) (c : BitString) : (s.setCode x c).tree = s.tree := rfl
@[simp] theorem setCode_bitLen (s : State) (x : Symbol) (c : BitString) : (s.setCode x c).bitLen = s.bitLen := rfl
@[simp] theorem setCode_outLen (s : State) (x : Symbol) (c : BitString) : (s.setCode x c).outLen = s.outLen := rfl
@[simp] theorem setCode_arenaUsed (s : State) (x : Symbol) (c : BitString) :
    (s.setCode x c).arenaUsed = s.arenaUsed := rfl
@[simp] theorem setCode_codeStage (s : State) (x : Symbol) (c : BitString) :
    (s.setCode x c).codeStage = s.codeStage := rfl
@[simp] theorem setCode_codeOut (s : State) (x : Symbol) (c : BitString) : (s.setCode x c).codeOut = s.codeOut := rfl
@[simp] theorem setCode_w (s : State) (x : Symbol) (c : BitString) : (s.setCode x c).w = s.w := rfl
@[simp] theorem setCode_lw (s : State) (x : Symbol) (c : BitString) : (s.setCode x c).lw = s.lw := rfl
@[simp] theorem setCode_nodes (s : State) (x : Symbol) (c : BitString) : (s.setCode x c).nodes = s.nodes := rfl
@[simp] theorem setCode_table (s : State) (x : Symbol) (c : BitString) :
    (s.setCode x c).table = s.table.write x.toNat c := rfl
@[simp] theorem setCode_bits (s : State) (x : Symbol) (c : BitString) : (s.setCode x c).bits = s.bits := rfl
@[simp] theorem setCode_out (s : State) (x : Symbol) (c : BitString) : (s.setCode x c).out = s.out := rfl
@[simp] theorem setCode_arena (s : State) (x : Symbol) (c : BitString) : (s.setCode x c).arena = s.arena := rfl
@[simp] theorem setCode_pend (s : State) (x : Symbol) (c : BitString) : (s.setCode x c).pend = s.pend := rfl
@[simp] theorem setCode_prog (s : State) (x : Symbol) (c : BitString) : (s.setCode x c).prog = s.prog := rfl
@[simp] theorem setCode_reads (s : State) (x : Symbol) (c : BitString) : (s.setCode x c).reads = s.reads := rfl
@[simp] theorem setCode_turns (s : State) (x : Symbol) (c : BitString) : (s.setCode x c).turns = s.turns := rfl
@[simp] theorem setCode_resets (s : State) (x : Symbol) (c : BitString) : (s.setCode x c).resets = s.resets := rfl
@[simp] theorem setCode_draws (s : State) (x : Symbol) (c : BitString) : (s.setCode x c).draws = s.draws := rfl

/-! ### snapshotWeights -/

@[simp] theorem snapshotWeights_params (s : State) : s.snapshotWeights.params = s.params := rfl
@[simp] theorem snapshotWeights_ctrl (s : State) : s.snapshotWeights.ctrl = s.ctrl := rfl
@[simp] theorem snapshotWeights_status (s : State) : s.snapshotWeights.status = s.status := rfl
@[simp] theorem snapshotWeights_arg0 (s : State) : s.snapshotWeights.arg0 = s.arg0 := rfl
@[simp] theorem snapshotWeights_res0 (s : State) : s.snapshotWeights.res0 = s.res0 := rfl
@[simp] theorem snapshotWeights_res1 (s : State) : s.snapshotWeights.res1 = s.res1 := rfl
@[simp] theorem snapshotWeights_tree (s : State) : s.snapshotWeights.tree = s.tree := rfl
@[simp] theorem snapshotWeights_bitLen (s : State) : s.snapshotWeights.bitLen = s.bitLen := rfl
@[simp] theorem snapshotWeights_outLen (s : State) : s.snapshotWeights.outLen = s.outLen := rfl
@[simp] theorem snapshotWeights_arenaUsed (s : State) : s.snapshotWeights.arenaUsed = s.arenaUsed := rfl
@[simp] theorem snapshotWeights_codeStage (s : State) : s.snapshotWeights.codeStage = s.codeStage := rfl
@[simp] theorem snapshotWeights_codeOut (s : State) : s.snapshotWeights.codeOut = s.codeOut := rfl
@[simp] theorem snapshotWeights_w (s : State) : s.snapshotWeights.w = s.w := rfl
@[simp] theorem snapshotWeights_lw (s : State) :
    s.snapshotWeights.lw = allSymbols.map (fun x => (x.toNat, s.weight x)) := rfl
@[simp] theorem snapshotWeights_nodes (s : State) : s.snapshotWeights.nodes = s.nodes := rfl
@[simp] theorem snapshotWeights_table (s : State) : s.snapshotWeights.table = s.table := rfl
@[simp] theorem snapshotWeights_bits (s : State) : s.snapshotWeights.bits = s.bits := rfl
@[simp] theorem snapshotWeights_out (s : State) : s.snapshotWeights.out = s.out := rfl
@[simp] theorem snapshotWeights_arena (s : State) : s.snapshotWeights.arena = s.arena := rfl
@[simp] theorem snapshotWeights_pend (s : State) : s.snapshotWeights.pend = s.pend := rfl
@[simp] theorem snapshotWeights_prog (s : State) : s.snapshotWeights.prog = s.prog := rfl
@[simp] theorem snapshotWeights_reads (s : State) : s.snapshotWeights.reads = s.reads := rfl
@[simp] theorem snapshotWeights_turns (s : State) : s.snapshotWeights.turns = s.turns := rfl
@[simp] theorem snapshotWeights_resets (s : State) : s.snapshotWeights.resets = s.resets := rfl
@[simp] theorem snapshotWeights_draws (s : State) : s.snapshotWeights.draws = s.draws := rfl

/-! ### dropTree -/

@[simp] theorem dropTree_params (s : State) : s.dropTree.params = s.params := rfl
@[simp] theorem dropTree_ctrl (s : State) : s.dropTree.ctrl = s.ctrl := rfl
@[simp] theorem dropTree_status (s : State) : s.dropTree.status = s.status := rfl
@[simp] theorem dropTree_arg0 (s : State) : s.dropTree.arg0 = s.arg0 := rfl
@[simp] theorem dropTree_res0 (s : State) : s.dropTree.res0 = s.res0 := rfl
@[simp] theorem dropTree_res1 (s : State) : s.dropTree.res1 = s.res1 := rfl
@[simp] theorem dropTree_tree (s : State) : s.dropTree.tree = { root := 0, nodeCount := 0, valid := false } := rfl
@[simp] theorem dropTree_bitLen (s : State) : s.dropTree.bitLen = s.bitLen := rfl
@[simp] theorem dropTree_outLen (s : State) : s.dropTree.outLen = s.outLen := rfl
@[simp] theorem dropTree_arenaUsed (s : State) : s.dropTree.arenaUsed = s.arenaUsed := rfl
@[simp] theorem dropTree_codeStage (s : State) : s.dropTree.codeStage = s.codeStage := rfl
@[simp] theorem dropTree_codeOut (s : State) : s.dropTree.codeOut = s.codeOut := rfl
@[simp] theorem dropTree_w (s : State) : s.dropTree.w = s.w := rfl
@[simp] theorem dropTree_lw (s : State) : s.dropTree.lw = s.lw := rfl
@[simp] theorem dropTree_nodes (s : State) : s.dropTree.nodes = s.nodes := rfl
@[simp] theorem dropTree_table (s : State) : s.dropTree.table = s.table := rfl
@[simp] theorem dropTree_bits (s : State) : s.dropTree.bits = s.bits := rfl
@[simp] theorem dropTree_out (s : State) : s.dropTree.out = s.out := rfl
@[simp] theorem dropTree_arena (s : State) : s.dropTree.arena = s.arena := rfl
@[simp] theorem dropTree_pend (s : State) : s.dropTree.pend = s.pend := rfl
@[simp] theorem dropTree_prog (s : State) : s.dropTree.prog = s.prog := rfl
@[simp] theorem dropTree_reads (s : State) : s.dropTree.reads = s.reads := rfl
@[simp] theorem dropTree_turns (s : State) : s.dropTree.turns = s.turns := rfl
@[simp] theorem dropTree_resets (s : State) : s.dropTree.resets = s.resets := rfl
@[simp] theorem dropTree_draws (s : State) : s.dropTree.draws = s.draws := rfl

/-! ### mergeNode -/

@[simp] theorem mergeNode_params (s : State) (wl : List NodeId) (c : Nat × Nat) (k : Nat) :
    (s.mergeNode wl c k).params = s.params := rfl
@[simp] theorem mergeNode_ctrl (s : State) (wl : List NodeId) (c : Nat × Nat) (k : Nat) :
    (s.mergeNode wl c k).ctrl = s.ctrl := rfl
@[simp] theorem mergeNode_status (s : State) (wl : List NodeId) (c : Nat × Nat) (k : Nat) :
    (s.mergeNode wl c k).status = s.status := rfl
@[simp] theorem mergeNode_arg0 (s : State) (wl : List NodeId) (c : Nat × Nat) (k : Nat) :
    (s.mergeNode wl c k).arg0 = s.arg0 := rfl
@[simp] theorem mergeNode_res0 (s : State) (wl : List NodeId) (c : Nat × Nat) (k : Nat) :
    (s.mergeNode wl c k).res0 = s.res0 := rfl
@[simp] theorem mergeNode_res1 (s : State) (wl : List NodeId) (c : Nat × Nat) (k : Nat) :
    (s.mergeNode wl c k).res1 = s.res1 := rfl
@[simp] theorem mergeNode_tree (s : State) (wl : List NodeId) (c : Nat × Nat) (k : Nat) :
    (s.mergeNode wl c k).tree = s.tree := rfl
@[simp] theorem mergeNode_bitLen (s : State) (wl : List NodeId) (c : Nat × Nat) (k : Nat) :
    (s.mergeNode wl c k).bitLen = s.bitLen := rfl
@[simp] theorem mergeNode_outLen (s : State) (wl : List NodeId) (c : Nat × Nat) (k : Nat) :
    (s.mergeNode wl c k).outLen = s.outLen := rfl
@[simp] theorem mergeNode_arenaUsed (s : State) (wl : List NodeId) (c : Nat × Nat) (k : Nat) :
    (s.mergeNode wl c k).arenaUsed = s.arenaUsed := rfl
@[simp] theorem mergeNode_codeStage (s : State) (wl : List NodeId) (c : Nat × Nat) (k : Nat) :
    (s.mergeNode wl c k).codeStage = s.codeStage := rfl
@[simp] theorem mergeNode_codeOut (s : State) (wl : List NodeId) (c : Nat × Nat) (k : Nat) :
    (s.mergeNode wl c k).codeOut = s.codeOut := rfl
@[simp] theorem mergeNode_w (s : State) (wl : List NodeId) (c : Nat × Nat) (k : Nat) :
    (s.mergeNode wl c k).w = s.w := rfl
@[simp] theorem mergeNode_lw (s : State) (wl : List NodeId) (c : Nat × Nat) (k : Nat) :
    (s.mergeNode wl c k).lw = s.lw := rfl
@[simp] theorem mergeNode_nodes (s : State) (wl : List NodeId) (c : Nat × Nat) (k : Nat) :
    (s.mergeNode wl c k).nodes = s.nodes.write k { weight := s.weightAt wl c.1 + s.weightAt wl c.2, left := wl.getD c.1 0, right := wl.getD c.2 0 } := rfl
@[simp] theorem mergeNode_table (s : State) (wl : List NodeId) (c : Nat × Nat) (k : Nat) :
    (s.mergeNode wl c k).table = s.table := rfl
@[simp] theorem mergeNode_bits (s : State) (wl : List NodeId) (c : Nat × Nat) (k : Nat) :
    (s.mergeNode wl c k).bits = s.bits := rfl
@[simp] theorem mergeNode_out (s : State) (wl : List NodeId) (c : Nat × Nat) (k : Nat) :
    (s.mergeNode wl c k).out = s.out := rfl
@[simp] theorem mergeNode_arena (s : State) (wl : List NodeId) (c : Nat × Nat) (k : Nat) :
    (s.mergeNode wl c k).arena = s.arena := rfl
@[simp] theorem mergeNode_pend (s : State) (wl : List NodeId) (c : Nat × Nat) (k : Nat) :
    (s.mergeNode wl c k).pend = s.pend := rfl
@[simp] theorem mergeNode_prog (s : State) (wl : List NodeId) (c : Nat × Nat) (k : Nat) :
    (s.mergeNode wl c k).prog = s.prog := rfl
@[simp] theorem mergeNode_reads (s : State) (wl : List NodeId) (c : Nat × Nat) (k : Nat) :
    (s.mergeNode wl c k).reads = s.reads := rfl
@[simp] theorem mergeNode_turns (s : State) (wl : List NodeId) (c : Nat × Nat) (k : Nat) :
    (s.mergeNode wl c k).turns = s.turns := rfl
@[simp] theorem mergeNode_resets (s : State) (wl : List NodeId) (c : Nat × Nat) (k : Nat) :
    (s.mergeNode wl c k).resets = s.resets := rfl
@[simp] theorem mergeNode_draws (s : State) (wl : List NodeId) (c : Nat × Nat) (k : Nat) :
    (s.mergeNode wl c k).draws = s.draws := rfl

/-! ### Status.completed -/

@[simp] theorem completed_busy (t : Status) (code : ErrCode) : (t.completed code).busy = false := rfl
@[simp] theorem completed_done (t : Status) (code : ErrCode) : (t.completed code).done = true := rfl
@[simp] theorem completed_cmdLost (t : Status) (code : ErrCode) : (t.completed code).cmdLost = t.cmdLost := rfl
@[simp] theorem completed_wrIgnored (t : Status) (code : ErrCode) : (t.completed code).wrIgnored = t.wrIgnored := rfl
@[simp] theorem completed_err (t : Status) (code : ErrCode) : (t.completed code).err = code := rfl

/-! ### Status.accepted -/

@[simp] theorem accepted_busy (t : Status) : (t.accepted).busy = true := rfl
@[simp] theorem accepted_done (t : Status) : (t.accepted).done = false := rfl
@[simp] theorem accepted_cmdLost (t : Status) : (t.accepted).cmdLost = t.cmdLost := rfl
@[simp] theorem accepted_wrIgnored (t : Status) : (t.accepted).wrIgnored = t.wrIgnored := rfl
@[simp] theorem accepted_err (t : Status) : (t.accepted).err = t.err := rfl

/-! ### The reads of a store see only that store and the reset number -/

/-- A weight depends on `w` and `resets` alone. -/
theorem weight_congr {s t : State} (hw : t.w = s.w) (hr : t.resets = s.resets) (x : Symbol) : t.weight x = s.weight x := by
  simp only [State.weight, hw, hr]

/-- A leaf weight depends on `lw` and `resets` alone. -/
theorem leafWeight_congr {s t : State} (hw : t.lw = s.lw) (hr : t.resets = s.resets) (x : Symbol) :
    t.leafWeight x = s.leafWeight x := by
  simp only [State.leafWeight, hw, hr]

/-- An internal node depends on `nodes` and `resets` alone. -/
theorem node_congr {s t : State} (hw : t.nodes = s.nodes) (hr : t.resets = s.resets) (k : Nat) : t.node k = s.node k := by
  simp only [State.node, hw, hr]

/-- A node weight depends on `lw`, `nodes` and `resets` alone. -/
theorem nodeWeight_congr {s t : State} (hl : t.lw = s.lw) (hn : t.nodes = s.nodes) (hr : t.resets = s.resets)
    (id : NodeId) : t.nodeWeight id = s.nodeWeight id := by
  simp only [State.nodeWeight, leafWeight_congr hl hr, node_congr hn hr]

/-- A code depends on `table` alone. -/
theorem code_congr {s t : State} (h : t.table = s.table) (x : Symbol) : t.code x = s.code x := by
  simp only [State.code, h]

/-- maxCodeLength depends on `table` alone. -/
theorem maxLen_congr {s t : State} (h : t.table = s.table) : t.maxLen = s.maxLen := by
  simp only [State.maxLen, State.code, h]

/-- A bit of the input buffer depends on `bits` and `resets` alone. -/
theorem bit_congr {s t : State} (hb : t.bits = s.bits) (hr : t.resets = s.resets) (j : Nat) : t.bit j = s.bit j := by
  simp only [State.bit, hb, hr]

/-- A byte of the output buffer depends on `out` and `resets` alone. -/
theorem outByte_congr {s t : State} (ho : t.out = s.out) (hr : t.resets = s.resets) (i : Nat) :
    t.outByte i = s.outByte i := by
  simp only [State.outByte, ho, hr]

end Sys2Proof.Machine
end

