-- ==== Sys2Proof/Laws/Frame.lean ====
section
/-! SUPPORT. What a command's completion does not see and does not touch: the flags, the host program, the schedule and
the pending word (spec/40_command_control.md R104, R108). -/

namespace Sys2Proof.Machine

/-- The state with other flags, host program, schedule, draws and pending word. -/
def State.withControl (s : State) (st : Status) (p : Word) (pr : List HostStmt) (rd : List Word) (tu : List Turn)
    (dr : Nat) : State :=
  { s with status := st, pend := p, prog := pr, reads := rd, turns := tu, draws := dr }

section
variable (s : State) (st : Status) (p : Word) (pr : List HostStmt) (rd : List Word) (tu : List Turn) (dr : Nat)

theorem withControl_self : s.withControl s.status s.pend s.prog s.reads s.turns s.draws = s := rfl

theorem search_withControl (fuel h : Nat) (A : List SearchState) :
    (s.withControl st p pr rd tu dr).search fuel h A = s.search fuel h A := by
  have expand : ∀ cur e lens A, (s.withControl st p pr rd tu dr).expand cur e lens A = s.expand cur e lens A := by
    intro cur e lens
    induction lens with
    | nil => intro A; rfl
    | cons len lens ih =>
      intro A
      simp only [State.expand, ih]
      rfl
  induction fuel generalizing h A with
  | zero => rfl
  | succ fuel ih =>
    simp only [State.search, expand, ih]
    rfl

theorem mergeLoop_withControl (fuel : Nat) (wl : List NodeId) (k : Nat) :
    State.mergeLoop fuel (s.withControl st p pr rd tu dr) wl k =
      ((State.mergeLoop fuel s wl k).1.withControl st p pr rd tu dr, (State.mergeLoop fuel s wl k).2) := by
  induction fuel generalizing s wl k with
  | zero => rfl
  | succ fuel ih =>
    rw [State.mergeLoop, State.mergeLoop]
    split
    · rfl
    · exact ih (s.mergeNode wl (s.select wl) k) (mergeList wl (s.select wl) k) (k + 1)

theorem buildTree_withControl :
    (s.withControl st p pr rd tu dr).buildTree = (s.buildTree.1.withControl st p pr rd tu dr, s.buildTree.2) := by
  have hl : (s.withControl st p pr rd tu dr).initialList = s.initialList := rfl
  rw [State.buildTree, State.buildTree, hl]
  split
  · rfl
  · have := mergeLoop_withControl s.snapshotWeights st p pr rd tu dr s.initialList.length s.initialList 0
    rw [show (s.withControl st p pr rd tu dr).snapshotWeights = s.snapshotWeights.withControl st p pr rd tu dr from rfl,
      this]
    rfl

theorem genLoop_withControl (fuel : Nat) (q : List (BitString × NodeId)) (t : Memory BitString) :
    (s.withControl st p pr rd tu dr).genLoop fuel q t = s.genLoop fuel q t := by
  induction fuel generalizing q t with
  | zero => rfl
  | succ fuel ih =>
    cases q with
    | nil => rfl
    | cons e q =>
      simp only [State.genLoop, ih]
      rfl

theorem generatedTable_withControl : (s.withControl st p pr rd tu dr).generatedTable = s.generatedTable := by
  rw [State.generatedTable, State.generatedTable, genLoop_withControl]
  rfl

/-- BUILD_TREE does not see the code table (41_tree_builder.md R122). -/
theorem buildTree_withTable (s : State) (m : Memory BitString) :
    { s with table := m }.buildTree = ({ s.buildTree.1 with table := m }, s.buildTree.2) := by
  have loop : ∀ (fuel : Nat) (s : State) (wl : List NodeId) (k : Nat),
      State.mergeLoop fuel { s with table := m } wl k =
        ({ (State.mergeLoop fuel s wl k).1 with table := m }, (State.mergeLoop fuel s wl k).2) := by
    intro fuel
    induction fuel with
    | zero => exact fun s wl k => rfl
    | succ fuel ih =>
      intro s wl k
      rw [State.mergeLoop, State.mergeLoop]
      split
      · rfl
      · exact ih (s.mergeNode wl (s.select wl) k) (mergeList wl (s.select wl) k) (k + 1)
  have hl : ({ s with table := m } : State).initialList = s.initialList := rfl
  rw [State.buildTree, State.buildTree, hl]
  split
  · rfl
  · rw [show ({ s with table := m } : State).snapshotWeights = { s.snapshotWeights with table := m } from rfl, loop]
    rfl

/-- The generated table does not depend on the table it replaces (42_code_table_rom.md R141). -/
theorem generatedTable_withTable (s : State) (m : Memory BitString) :
    { s with table := m }.generatedTable = s.generatedTable := by
  have loop : ∀ (fuel : Nat) (q : List (BitString × NodeId)) (t : Memory BitString),
      ({ s with table := m } : State).genLoop fuel q t = s.genLoop fuel q t := by
    intro fuel
    induction fuel with
    | zero => exact fun q t => rfl
    | succ fuel ih =>
      intro q t
      cases q with
      | nil => rfl
      | cons e q =>
        simp only [State.genLoop, ih]
        rfl
  rw [State.generatedTable, State.generatedTable, loop]

/-- Every command completes, in a state whose flags are those of a completion (40_command_control.md R104). -/
theorem exec_completes (i : Instr) (s : State) :
    ∃ t, exec i s = .next t ∧ t.status = s.status.completed t.status.err ∧ t.params = s.params ∧ t.ctrl = s.ctrl ∧
      t.arg0 = s.arg0 ∧ t.codeStage = s.codeStage ∧ t.pend = s.pend ∧ t.prog = s.prog ∧ t.reads = s.reads ∧
      t.turns = s.turns ∧ t.resets = s.resets ∧ t.draws = s.draws := by
  have loop : ∀ fuel (s : State) wl k, ∃ a b, (State.mergeLoop fuel s wl k).1 = { s with nodes := a, lw := b } := by
    intro fuel
    induction fuel with
    | zero => exact fun s wl k => ⟨s.nodes, s.lw, rfl⟩
    | succ fuel ih =>
      intro s wl k
      rw [State.mergeLoop]
      split
      · exact ⟨s.nodes, s.lw, rfl⟩
      · obtain ⟨a, b, h⟩ := ih (s.mergeNode wl (s.select wl) k) (mergeList wl (s.select wl) k) (k + 1)
        exact ⟨a, b, h⟩
  cases i with
  | nop u => exact ⟨_, rfl, rfl, rfl, rfl, rfl, rfl, rfl, rfl, rfl, rfl, rfl, rfl⟩
  | clearWeights u => exact ⟨_, rfl, rfl, rfl, rfl, rfl, rfl, rfl, rfl, rfl, rfl, rfl, rfl⟩
  | buildTree u =>
    refine ⟨_, rfl, ?_⟩
    rw [State.buildTree]
    split
    · exact ⟨rfl, rfl, rfl, rfl, rfl, rfl, rfl, rfl, rfl, rfl, rfl⟩
    · obtain ⟨a, b, h⟩ := loop s.initialList.length s.snapshotWeights s.initialList 0
      simp only [commitTree, h]
      exact ⟨rfl, rfl, rfl, rfl, rfl, rfl, rfl, rfl, rfl, rfl, rfl⟩
  | nodeRead id =>
    refine ⟨_, rfl, ?_⟩
    rw [State.nodeRead]
    split
    · exact ⟨rfl, rfl, rfl, rfl, rfl, rfl, rfl, rfl, rfl, rfl, rfl⟩
    · split
      · exact ⟨rfl, rfl, rfl, rfl, rfl, rfl, rfl, rfl, rfl, rfl, rfl⟩
      · split <;> exact ⟨rfl, rfl, rfl, rfl, rfl, rfl, rfl, rfl, rfl, rfl, rfl⟩
  | tableClear u => exact ⟨_, rfl, rfl, rfl, rfl, rfl, rfl, rfl, rfl, rfl, rfl, rfl, rfl⟩
  | genTable u =>
    refine ⟨_, rfl, ?_⟩
    rw [State.genTable]
    split <;> exact ⟨rfl, rfl, rfl, rfl, rfl, rfl, rfl, rfl, rfl, rfl, rfl⟩
  | tableWrite sym len => exact ⟨_, rfl, rfl, rfl, rfl, rfl, rfl, rfl, rfl, rfl, rfl, rfl, rfl⟩
  | tableDelete sym u => exact ⟨_, rfl, rfl, rfl, rfl, rfl, rfl, rfl, rfl, rfl, rfl, rfl, rfl⟩
  | tableRead sym u =>
    refine ⟨_, rfl, ?_⟩
    rw [State.tableRead]
    split <;> exact ⟨rfl, rfl, rfl, rfl, rfl, rfl, rfl, rfl, rfl, rfl, rfl⟩
  | bitbufClear u => exact ⟨_, rfl, rfl, rfl, rfl, rfl, rfl, rfl, rfl, rfl, rfl, rfl, rfl⟩
  | bitbufAppend n =>
    refine ⟨_, rfl, ?_⟩
    rw [State.bitbufAppend]
    split
    · exact ⟨rfl, rfl, rfl, rfl, rfl, rfl, rfl, rfl, rfl, rfl, rfl⟩
    · split <;> exact ⟨rfl, rfl, rfl, rfl, rfl, rfl, rfl, rfl, rfl, rfl, rfl⟩
  | decode u => exact ⟨_, rfl, rfl, rfl, rfl, rfl, rfl, rfl, rfl, rfl, rfl, rfl, rfl⟩

/-- A command's result does not depend on the flags, the host program, the schedule, the draws or the pending word, and
its completion keeps them but for the flags (40_command_control.md R108). -/
theorem exec_withControl (i : Instr) {t : State} (h : exec i s = .next t) :
    exec i (s.withControl st p pr rd tu dr) = .next (t.withControl (st.completed t.status.err) p pr rd tu dr) := by
  cases i with
  | nop u => cases h; rfl
  | clearWeights u => cases h; rfl
  | buildTree u =>
    cases h
    rw [exec, execBuildTree, buildTree_withControl]
    rfl
  | nodeRead id =>
    cases h
    rw [exec, execNodeRead, State.nodeRead, State.nodeRead]
    have e1 : (s.withControl st p pr rd tu dr).tree = s.tree := rfl
    rw [e1]
    split
    · rfl
    · split
      · rfl
      · split <;> rfl
  | tableClear u => cases h; rfl
  | genTable u =>
    cases h
    rw [exec, execGenTable, State.genTable, State.genTable, generatedTable_withControl]
    have e1 : (s.withControl st p pr rd tu dr).tree = s.tree := rfl
    rw [e1]
    split <;> rfl
  | tableWrite sym len => cases h; rfl
  | tableDelete sym u => cases h; rfl
  | tableRead sym u =>
    cases h
    rw [exec, execTableRead, State.tableRead, State.tableRead]
    have e1 : (s.withControl st p pr rd tu dr).code sym = s.code sym := rfl
    rw [e1]
    split <;> rfl
  | bitbufClear u => cases h; rfl
  | bitbufAppend n =>
    cases h
    rw [exec, execBitbufAppend, State.bitbufAppend, State.bitbufAppend]
    split
    · rfl
    · have e1 : (s.withControl st p pr rd tu dr).params = s.params := rfl
      have e2 : (s.withControl st p pr rd tu dr).bitLen = s.bitLen := rfl
      rw [e1, e2]
      split <;> rfl
  | decode u =>
    cases h
    rw [exec, execDecode, State.decodeSearch, search_withControl]
    rfl

end

/-! ### The engine's step -/

theorem engineStep_ok {s : State} {i : Instr} (hb : s.status.busy = true) (hd : decode s.pend = .ok i) :
    engineStep s = exec i s := by
  rw [engineStep, if_pos hb, hd]

theorem engineStep_error {s : State} {r : DecodeReject} (hb : s.status.busy = true) (hd : decode s.pend = .error r) :
    engineStep s = .next (s.finish .illegalCommand) := by
  rw [engineStep, if_pos hb, hd]
  rfl

theorem engineStep_idle {s : State} (hb : s.status.busy = false) : engineStep s = .next s := by
  rw [engineStep, if_neg (by simp [hb])]

/-- Every pending word completes (40_command_control.md R104, R107). -/
theorem engineStep_completes {s : State} (hb : s.status.busy = true) :
    ∃ t, engineStep s = .next t ∧ t.status = s.status.completed t.status.err ∧ t.params = s.params ∧ t.ctrl = s.ctrl ∧
      t.arg0 = s.arg0 ∧ t.codeStage = s.codeStage ∧ t.pend = s.pend ∧ t.prog = s.prog ∧ t.reads = s.reads ∧
      t.turns = s.turns ∧ t.resets = s.resets ∧ t.draws = s.draws := by
  cases hd : decode s.pend with
  | error r =>
    exact ⟨_, engineStep_error hb hd, rfl, rfl, rfl, rfl, rfl, rfl, rfl, rfl, rfl, rfl, rfl⟩
  | ok i =>
    rw [engineStep_ok hb hd]
    exact exec_completes i s

/-- A pending word's result does not depend on the flags, the host program, the schedule or the draws
(40_command_control.md R108). -/
theorem engineStep_withControl {s t : State} (hb : s.status.busy = true) (ht : engineStep s = .next t) (st : Status)
    (hst : st.busy = true) (pr : List HostStmt) (rd : List Word) (tu : List Turn) (dr : Nat) :
    engineStep (s.withControl st s.pend pr rd tu dr) =
      .next (t.withControl (st.completed t.status.err) s.pend pr rd tu dr) := by
  cases hd : decode s.pend with
  | error r =>
    rw [engineStep_error hb hd] at ht
    cases ht
    exact engineStep_error hst hd
  | ok i =>
    rw [engineStep_ok hb hd] at ht
    rw [engineStep_ok (s := s.withControl st s.pend pr rd tu dr) hst hd]
    exact exec_withControl s st s.pend pr rd tu dr i ht

end Sys2Proof.Machine
end

