-- ==== Sys2Proof/Laws/Memory.lean ====
section
/-! SUPPORT. The laws of the stores: a read after a write, the canonical form kept by every operation, and which indexes
an operation can list. -/

namespace Sys2Proof.Machine

variable {α : Type}

@[simp] theorem Memory.read_nil (a : Nat) : Memory.read ([] : Memory α) a = none := rfl

theorem Memory.read_cons (b : Nat) (x : α) (m : Memory α) (a : Nat) :
    Memory.read ((b, x) :: m) a = if b = a then some x else Memory.read m a := rfl

theorem Memory.read_write (m : Memory α) (a b : Nat) (x : α) :
    Memory.read (Memory.write m a x) b = if a = b then some x else Memory.read m b := by
  induction m with
  | nil => simp [Memory.write, Memory.read]
  | cons p rest ih =>
    obtain ⟨c, y⟩ := p
    unfold Memory.write
    split
    · simp [Memory.read_cons]
    · split
      · next h => subst h; simp only [Memory.read_cons]; split <;> simp_all
      · simp only [Memory.read_cons, ih]; split <;> split <;> simp_all

@[simp] theorem Memory.read_write_same (m : Memory α) (a : Nat) (x : α) :
    Memory.read (Memory.write m a x) a = some x := by simp [Memory.read_write]

theorem Memory.read_write_other (m : Memory α) {a b : Nat} (x : α) (h : a ≠ b) :
    Memory.read (Memory.write m a x) b = Memory.read m b := by simp [Memory.read_write, h]

theorem Memory.read_erase (m : Memory α) (a b : Nat) :
    Memory.read (Memory.erase m a) b = if a = b then none else Memory.read m b := by
  induction m with
  | nil => simp [Memory.erase]
  | cons p rest ih =>
    obtain ⟨c, y⟩ := p
    simp only [Memory.erase, List.filter_cons] at ih ⊢
    by_cases hc : c = a
    · subst hc
      simp only [bne_self_eq_false, Bool.false_eq_true, if_false, ih, Memory.read_cons]
      split <;> rfl
    · simp only [bne_iff_ne, ne_eq, hc, not_false_eq_true, if_true, Memory.read_cons, ih]
      split <;> split <;> simp_all

theorem Memory.mem_write {m : Memory α} {a : Nat} {x : α} {p : Nat × α} (h : p ∈ Memory.write m a x) :
    p = (a, x) ∨ p ∈ m := by
  induction m with
  | nil => simpa [Memory.write] using h
  | cons q rest ih =>
    obtain ⟨c, y⟩ := q
    unfold Memory.write at h
    split at h
    · simpa using h
    · split at h
      · rcases List.mem_cons.1 h with h | h
        · exact .inl h
        · exact .inr (List.mem_cons_of_mem _ h)
      · rcases List.mem_cons.1 h with h | h
        · exact .inr (h ▸ List.mem_cons_self)
        · exact (ih h).imp id (List.mem_cons_of_mem _)

theorem Memory.wf_write {m : Memory α} (h : Memory.wf m) (a : Nat) (x : α) : Memory.wf (Memory.write m a x) := by
  induction m with
  | nil => simp [Memory.write, Memory.wf]
  | cons p rest ih =>
    obtain ⟨c, y⟩ := p
    have hc := List.pairwise_cons.1 h
    unfold Memory.write
    split
    · next hlt =>
      refine List.pairwise_cons.2 ⟨fun q hq => ?_, h⟩
      rcases List.mem_cons.1 hq with rfl | hq
      · exact hlt
      · exact hlt.trans (hc.1 q hq)
    · split
      · next heq => subst heq; exact List.pairwise_cons.2 hc
      · refine List.pairwise_cons.2 ⟨fun q hq => ?_, ih hc.2⟩
        rcases Memory.mem_write hq with rfl | hq
        · show c < a
          omega
        · exact hc.1 q hq

theorem Memory.wf_erase {m : Memory α} (h : Memory.wf m) (a : Nat) : Memory.wf (Memory.erase m a) := h.filter _

theorem Memory.wf_writeRun {m : Memory α} (h : Memory.wf m) (a : Nat) (xs : List α) :
    Memory.wf (Memory.writeRun m a xs) := by
  induction xs generalizing m a with
  | nil => exact h
  | cons x xs ih => exact ih (Memory.wf_write h a x) (a + 1)

theorem Memory.below_write {m : Memory α} {n : Nat} (h : m.below n) {a : Nat} (ha : a < n) (x : α) :
    Memory.below (Memory.write m a x) n := by
  intro p hp
  rcases Memory.mem_write hp with rfl | hp
  · exact ha
  · exact h p hp

theorem Memory.below_erase {m : Memory α} {n : Nat} (h : m.below n) (a : Nat) : Memory.below (Memory.erase m a) n :=
  fun p hp => h p (List.mem_of_mem_filter hp)

theorem Memory.below_writeRun {m : Memory α} {n : Nat} (h : m.below n) {a : Nat} {xs : List α}
    (ha : a + xs.length ≤ n) : Memory.below (Memory.writeRun m a xs) n := by
  induction xs generalizing m a with
  | nil => exact h
  | cons x xs ih =>
    simp only [List.length_cons] at ha
    exact ih (Memory.below_write h (by omega) x) (by omega)

/-- What a run of writes leaves at each index. -/
theorem Memory.read_writeRun (m : Memory α) (a : Nat) (xs : List α) (b : Nat) :
    Memory.read (Memory.writeRun m a xs) b = if a ≤ b ∧ b < a + xs.length then xs[b - a]? else Memory.read m b := by
  induction xs generalizing m a with
  | nil =>
    simp only [Memory.writeRun, List.length_nil, Nat.add_zero]
    split
    · omega
    · rfl
  | cons x xs ih =>
    rw [Memory.writeRun, ih, Memory.read_write]
    simp only [List.length_cons]
    by_cases hab : a = b
    · subst hab
      simp
    · by_cases hr : a + 1 ≤ b ∧ b < a + 1 + xs.length
      · rw [if_pos hr, if_pos (by omega), show b - a = (b - (a + 1)) + 1 by omega, List.getElem?_cons_succ]
      · rw [if_neg hr, if_neg hab, if_neg (by omega)]

theorem Memory.read_writeRun_inside (m : Memory α) (a : Nat) (xs : List α) {i : Nat} (h : i < xs.length) :
    Memory.read (Memory.writeRun m a xs) (a + i) = some xs[i] := by
  rw [Memory.read_writeRun, if_pos (by omega), Nat.add_sub_cancel_left, List.getElem?_eq_getElem h]

/-- The entries of a store built from a strictly rising list of indexes. -/
theorem Memory.read_map_of_mem {β : Type} (l : List β) (key : β → Nat) (val : β → α) (hk : Function.Injective key)
    {b : β} (h : b ∈ l) : Memory.read (l.map (fun x => (key x, val x))) (key b) = some (val b) := by
  induction l with
  | nil => cases h
  | cons c l ih =>
    rw [List.map_cons, Memory.read_cons]
    by_cases hcb : c = b
    · subst hcb; simp
    · rw [if_neg (fun hh => hcb (hk hh))]
      rcases List.mem_cons.1 h with h | h
      · exact absurd h.symm hcb
      · exact ih h

theorem Memory.read_eq_some_of_mem {m : Memory α} (hw : Memory.wf m) {p : Nat × α} (h : p ∈ m) :
    Memory.read m p.1 = some p.2 := by
  induction m with
  | nil => cases h
  | cons q rest ih =>
    obtain ⟨c, y⟩ := q
    have hc := List.pairwise_cons.1 hw
    rcases List.mem_cons.1 h with rfl | h
    · simp [Memory.read_cons]
    · have := hc.1 p h
      have hne : c ≠ p.1 := Nat.ne_of_lt this
      rw [Memory.read_cons, if_neg hne, ih hc.2 h]

theorem Memory.mem_of_read {m : Memory α} {a : Nat} {x : α} (h : Memory.read m a = some x) : (a, x) ∈ m := by
  induction m with
  | nil => cases h
  | cons q rest ih =>
    obtain ⟨c, y⟩ := q
    rw [Memory.read_cons] at h
    split at h
    · next hc => subst hc; cases h; exact List.mem_cons_self
    · exact List.mem_cons_of_mem _ (ih h)

/-- Equal contents are equal data: two canonical stores with the same entries are the same list. -/
theorem Memory.ext_of_wf {m₁ m₂ : Memory α} (h₁ : Memory.wf m₁) (h₂ : Memory.wf m₂)
    (h : ∀ a, Memory.read m₁ a = Memory.read m₂ a) : m₁ = m₂ := by
  have strict : ∀ {m : Memory α}, Memory.wf m → m.Pairwise (fun p q => p.1 < q.1) := fun h => h
  refine List.Perm.eq_of_pairwise (le := fun p q => p.1 ≤ q.1 ∧ (p.1 = q.1 → p = q)) ?_ ?_ ?_ ?_
  · intro p q _ _ hp hq
    exact hp.2 (Nat.le_antisymm hp.1 hq.1)
  · exact h₁.imp (fun hpq => ⟨Nat.le_of_lt hpq, fun he => absurd he (Nat.ne_of_lt hpq)⟩)
  · exact h₂.imp (fun hpq => ⟨Nat.le_of_lt hpq, fun he => absurd he (Nat.ne_of_lt hpq)⟩)
  · refine (List.perm_ext_iff_of_nodup ?_ ?_).2 (fun p => ⟨fun hp => ?_, fun hp => ?_⟩)
    · exact h₁.imp (fun hpq he => Nat.ne_of_lt hpq (congrArg Prod.fst he))
    · exact h₂.imp (fun hpq he => Nat.ne_of_lt hpq (congrArg Prod.fst he))
    · exact Memory.mem_of_read (by rw [← h]; exact Memory.read_eq_some_of_mem h₁ hp)
    · exact Memory.mem_of_read (by rw [h]; exact Memory.read_eq_some_of_mem h₂ hp)

/-- The symbols in ascending order are all the symbols, each once. -/
theorem mem_allSymbols (x : Symbol) : x ∈ allSymbols :=
  List.mem_map.2 ⟨x.toNat, List.mem_range.2 x.isLt, by simp⟩

theorem allSymbols_rising : allSymbols.Pairwise (fun x y => x.toNat < y.toNat) := by
  refine List.pairwise_map.2 ?_
  refine (List.pairwise_lt_range (n := 256)).imp_of_mem ?_
  intro a b ha hb hab
  rw [List.mem_range] at ha hb
  simpa [Nat.mod_eq_of_lt ha, Nat.mod_eq_of_lt hb] using hab

theorem allSymbols_nodup : allSymbols.Nodup :=
  allSymbols_rising.imp (fun h he => by rw [he] at h; exact Nat.lt_irrefl _ h)

@[simp] theorem allSymbols_length : allSymbols.length = 256 := by simp [allSymbols]

theorem symbol_toNat_injective : Function.Injective (fun x : Symbol => x.toNat) := fun _ _ h => BitVec.eq_of_toNat_eq h

end Sys2Proof.Machine
end

