-- ==== Sys2Proof/Laws/Select.lean ====
section
/-! SUPPORT. What candidate selection and a merge do to the working list (spec/41_tree_builder.md R123, R124). -/

namespace Sys2Proof.Machine

/-- What the scan keeps after the positions below `m`: (sm, ss) are the two lightest positions, and a later position of
the least weight displaces an earlier one. -/
structure Scanned (w : Nat → Nat) (m : Nat) (c : Nat × Nat) : Prop where
  smLt : c.1 < m
  ssLt : c.2 < m
  ne : c.1 ≠ c.2
  least : ∀ j, j < m → w c.1 ≤ w j
  second : ∀ j, j < m → j ≠ c.1 → w c.2 ≤ w j
  last : 2 ≤ c.1 → ∀ j, c.1 < j → j < m → w c.1 < w j
  seed : c.1 < 2 → (∀ j, 2 ≤ j → j < m → w c.1 < w j) ∧ (c.1 = 1 → w 1 < w 0)

theorem Scanned.seedPair (w : Nat → Nat) :
    Scanned w 2 (if w 0 ≤ w 1 then (0, 1) else (1, 0)) := by
  have two : ∀ j, j < 2 → j = 0 ∨ j = 1 := by omega
  split
  · next h =>
    refine ⟨by simp, by simp, by simp, ?_, ?_, by simp, ?_⟩
    · intro j hj
      rcases two j hj with rfl | rfl <;> simp [h]
    · intro j hj hne
      rcases two j hj with rfl | rfl
      · simp at hne
      · simp
    · exact fun _ => ⟨fun j h2 hj => by omega, by simp⟩
  · next h =>
    have h' := le_of_lt (not_le.1 h)
    refine ⟨by simp, by simp, by simp, ?_, ?_, by simp, ?_⟩
    · intro j hj
      rcases two j hj with rfl | rfl <;> simp [h']
    · intro j hj hne
      rcases two j hj with rfl | rfl
      · simp
      · simp at hne
    · exact fun _ => ⟨fun j h2 hj => by omega, fun _ => not_le.1 h⟩

theorem Scanned.next {w : Nat → Nat} {m : Nat} {c : Nat × Nat} (h : Scanned w m c) (h2 : 2 ≤ m) :
    Scanned w (m + 1) (if w m ≤ w c.1 then (m, c.1) else if w m ≤ w c.2 then (c.1, m) else c) := by
  have below : ∀ j, j < m + 1 → j < m ∨ j = m := by omega
  have hsm := h.smLt
  have hss := h.ssLt
  split
  · next hle =>
    refine ⟨by simp, by simp; omega, by simp; omega, ?_, ?_, ?_, ?_⟩
    · intro j hj
      rcases below j hj with hj | rfl
      · exact hle.trans (h.least j hj)
      · exact le_refl _
    · intro j hj hne
      rcases below j hj with hj | rfl
      · exact h.least j hj
      · exact absurd rfl hne
    · intro _ j hj hj'
      simp only at hj
      omega
    · intro hm
      simp only at hm
      omega
  · next hnle =>
    have hlt := not_le.1 hnle
    split
    · next hle =>
      refine ⟨by simp; omega, by simp, by simp; omega, ?_, ?_, ?_, ?_⟩
      · intro j hj
        rcases below j hj with hj | rfl
        · exact h.least j hj
        · exact le_of_lt hlt
      · intro j hj hne
        rcases below j hj with hj | rfl
        · exact hle.trans (h.second j hj hne)
        · exact le_refl _
      · intro h2' j hj hj'
        rcases below j hj' with hj' | rfl
        · exact h.last h2' j hj hj'
        · exact hlt
      · intro h2'
        refine ⟨fun j hj hj' => ?_, (h.seed h2').2⟩
        rcases below j hj' with hj' | rfl
        · exact (h.seed h2').1 j hj hj'
        · exact hlt
    · next hnle2 =>
      refine ⟨by omega, by omega, h.ne, ?_, ?_, ?_, ?_⟩
      · intro j hj
        rcases below j hj with hj | rfl
        · exact h.least j hj
        · exact le_of_lt hlt
      · intro j hj hne
        rcases below j hj with hj | rfl
        · exact h.second j hj hne
        · exact le_of_lt (not_le.1 hnle2)
      · intro h2' j hj hj'
        rcases below j hj' with hj' | rfl
        · exact h.last h2' j hj hj'
        · exact hlt
      · intro h2'
        refine ⟨fun j hj hj' => ?_, (h.seed h2').2⟩
        rcases below j hj' with hj' | rfl
        · exact (h.seed h2').1 j hj hj'
        · exact hlt

theorem Scanned.foldl (w : Nat → Nat) (n m : Nat) (c : Nat × Nat) (h : Scanned w m c)
    (h2 : 2 ≤ m) :
    Scanned w (m + n) ((List.range' m n).foldl
      (fun c i => if w i ≤ w c.1 then (i, c.1) else if w i ≤ w c.2 then (c.1, i) else c) c) := by
  induction n generalizing m c with
  | zero => simpa using h
  | succ n ih =>
    rw [List.range'_succ, List.foldl_cons, show m + (n + 1) = m + 1 + n by omega]
    exact ih (m + 1) _ (h.next h2) (by omega)

/-- Candidate selection on a working list of at least two nodes picks the two lightest (41_tree_builder.md R123). -/
theorem select_scanned (s : State) (wl : List NodeId) (h : 2 ≤ wl.length) :
    Scanned (fun i => (s.weightAt wl i).toNat) wl.length (s.select wl) := by
  have := Scanned.foldl (fun i => (s.weightAt wl i).toNat) (wl.length - 2) 2 _ (Scanned.seedPair _) (le_refl 2)
  rw [show 2 + (wl.length - 2) = wl.length by omega] at this
  exact this

/-- A merge takes the two selected nodes out of the working list and puts the new node in, keeping the others. -/
theorem mergeList_perm (wl : List NodeId) (c : Nat × Nat) (k : Nat) (h1 : c.1 < wl.length) (h2 : c.2 < wl.length)
    (hne : c.1 ≠ c.2) :
    (wl.getD c.1 0 :: wl.getD c.2 0 :: mergeList wl c k).Perm (internalId k :: wl) := by
  have hset : (wl[c.1] :: wl.set c.1 (internalId k)).Perm (internalId k :: wl) := by
    have e1 := List.getElem_cons_eraseIdx_perm h1
    have e2 := List.getElem_cons_eraseIdx_perm (l := wl.set c.1 (internalId k)) (n := c.1) (by simpa using h1)
    rw [List.getElem_set_self, List.eraseIdx_set_eq] at e2
    exact ((e2.symm.cons _).trans (List.Perm.swap _ _ _)).trans (e1.cons _)
  have hj : (wl.set c.1 (internalId k))[c.2]'(by simpa using h2) = wl[c.2] := List.getElem_set_ne hne _
  have e3 := List.getElem_cons_eraseIdx_perm (l := wl.set c.1 (internalId k)) (n := c.2) (by simpa using h2)
  rw [hj] at e3
  rw [List.getD_eq_getElem _ _ h1, List.getD_eq_getElem _ _ h2]
  exact (e3.cons _).trans hset

/-- A merge shortens the working list by one. -/
theorem mergeList_length (wl : List NodeId) (c : Nat × Nat) (k : Nat) (h2 : c.2 < wl.length) :
    (mergeList wl c k).length = wl.length - 1 := by
  rw [mergeList, List.length_eraseIdx_of_lt (by simpa using h2), List.length_set]

end Sys2Proof.Machine
end

