-- ==== Sys2Proof/Laws/Tree.lean ====
section
/-! SUPPORT. BUILD_TREE's merge loop: the invariant it keeps, and the tree it leaves (spec/41_tree_builder.md R122 to
R127). -/

namespace Sys2Proof.Machine

/-! ### Node ids -/

theorem isLeaf_iff (id : NodeId) : isLeaf id = true ↔ id.toNat < 256 := by simp [isLeaf]

theorem isLeaf_false_iff (id : NodeId) : isLeaf id = false ↔ 256 ≤ id.toNat := by simp [isLeaf]

@[simp] theorem leafId_toNat (x : Symbol) : (leafId x).toNat = x.toNat := by
  simp only [leafId, BitVec.toNat_setWidth]
  exact Nat.mod_eq_of_lt (Nat.lt_trans x.isLt (by decide))

@[simp] theorem isLeaf_leafId (x : Symbol) : isLeaf (leafId x) = true := (isLeaf_iff _).2 (by simpa using x.isLt)

@[simp] theorem leafSymbol_leafId (x : Symbol) : leafSymbol (leafId x) = x := by
  apply BitVec.eq_of_toNat_eq
  simp only [leafSymbol, BitVec.toNat_setWidth, leafId_toNat]
  exact Nat.mod_eq_of_lt x.isLt

theorem leafSymbol_toNat {id : NodeId} (h : isLeaf id = true) : (leafSymbol id).toNat = id.toNat := by
  simp only [leafSymbol, BitVec.toNat_setWidth]
  exact Nat.mod_eq_of_lt ((isLeaf_iff id).1 h)

theorem leafId_leafSymbol {id : NodeId} (h : isLeaf id = true) : leafId (leafSymbol id) = id := by
  apply BitVec.eq_of_toNat_eq
  rw [leafId_toNat, leafSymbol_toNat h]

theorem leafId_injective : Function.Injective leafId := fun x y h => by
  rw [← leafSymbol_leafId x, h, leafSymbol_leafId]

theorem internalId_toNat {k : Nat} (h : k < 256) : (internalId k).toNat = 256 + k := by
  simp only [internalId, BitVec.toNat_ofNat]
  exact Nat.mod_eq_of_lt (by omega)

theorem isLeaf_internalId {k : Nat} (h : k < 256) : isLeaf (internalId k) = false :=
  (isLeaf_false_iff _).2 (by rw [internalId_toNat h]; omega)

theorem internalId_of_toNat {id : NodeId} {k : Nat} (h : id.toNat = 256 + k) : id = internalId k := by
  apply BitVec.eq_of_toNat_eq
  rw [internalId_toNat (by have := id.isLt; omega), h]

/-! ### Weights -/

theorem leafWeight_snapshot (s : State) (x : Symbol) : s.snapshotWeights.leafWeight x = s.weight x := by
  have h := Memory.read_map_of_mem allSymbols (fun x : Symbol => x.toNat) s.weight symbol_toNat_injective
    (mem_allSymbols x)
  simp only [State.leafWeight, State.snapshotWeights, h, Option.getD_some]

theorem snapshot_written (s : State) (x : Symbol) : (s.snapshotWeights.lw.read x.toNat).isSome = true := by
  have h := Memory.read_map_of_mem allSymbols (fun x : Symbol => x.toNat) s.weight symbol_toNat_injective
    (mem_allSymbols x)
  simp only [State.snapshotWeights, h, Option.isSome_some]

theorem nodeWeight_leaf (s : State) {id : NodeId} (h : isLeaf id = true) :
    (s.nodeWeight id).toNat = (s.leafWeight (leafSymbol id)).toNat := by
  simp only [State.nodeWeight, h, if_true, BitVec.toNat_setWidth]
  exact Nat.mod_eq_of_lt (Nat.lt_trans (BitVec.isLt _) (by decide))

theorem nodeWeight_leafId (s : State) (x : Symbol) : (s.nodeWeight (leafId x)).toNat = (s.leafWeight x).toNat := by
  rw [nodeWeight_leaf s (isLeaf_leafId x), leafSymbol_leafId]

/-- The sum of all leaf weights (41_tree_builder.md R126). -/
def State.totalWeight (s : State) : Nat := (allSymbols.map (fun x => (s.leafWeight x).toNat)).sum

/-- "The sum of all 256 leaf weights is at most 256 · (2^32 − 1) < 2^40" (41_tree_builder.md R126). -/
theorem totalWeight_lt (s : State) : s.totalWeight < 2 ^ 40 := by
  have h : s.totalWeight ≤ (allSymbols.map (fun x => (s.leafWeight x).toNat)).length • (2 ^ 32 - 1) :=
    List.sum_le_card_nsmul _ _ (fun y hy => by
      obtain ⟨x, -, rfl⟩ := List.mem_map.1 hy
      have := (s.leafWeight x).isLt
      omega)
  rw [List.length_map, allSymbols_length] at h
  exact lt_of_le_of_lt h (by decide)

/-! ### The loop invariant -/

/-- The nodes that exist after `k` merges. -/
def State.inTreeAt (s : State) (k : Nat) (id : NodeId) : Prop :=
  if isLeaf id then s.leafWeight (leafSymbol id) ≠ 0 else id.toNat < 256 + k

/-- The children of the first `k` internal nodes. -/
def State.childrenAt (s : State) (k : Nat) : List NodeId :=
  (List.range k).flatMap (fun j => [(s.node j).left, (s.node j).right])

open Classical in
/-- What holds before every turn of the merge loop that started from `s₀` with `n` leaves. -/
structure MergeInv (s₀ : State) (n : Nat) (s : State) (wl : List NodeId) (k : Nat) : Prop where
  frame : s = { s₀ with nodes := s.nodes }
  size : wl.length + k = n
  nonempty : 1 ≤ wl.length
  written : ∀ j, j < k → (s.nodes.read j).isSome = true
  counts : ∀ id, (s.childrenAt k).count id + wl.count id = if s₀.inTreeAt k id then 1 else 0
  weights : ∀ j, j < k →
    (s.node j).weight.toNat = (s.nodeWeight (s.node j).left).toNat + (s.nodeWeight (s.node j).right).toNat ∧
      (s.nodeWeight (s.node j).left).toNat ≤ (s.nodeWeight (s.node j).right).toNat
  childBefore : ∀ j, j < k → ∀ c, c = (s.node j).left ∨ c = (s.node j).right →
    s₀.inTreeAt k c ∧ (isLeaf c = false → c.toNat < 256 + j)
  total : (wl.map (fun id => (s.nodeWeight id).toNat)).sum = s₀.totalWeight
  newest : 0 < k → internalId (k - 1) ∈ wl
  wf : s₀.nodes.wf ∧ s₀.nodes.below 255 → s.nodes.wf ∧ s.nodes.below 255

section
variable {s₀ s : State} {n k : Nat} {wl : List NodeId}

theorem node_mergeNode_same (s : State) (wl : List NodeId) (c : Nat × Nat) (k : Nat) :
    (s.mergeNode wl c k).node k =
      { weight := s.weightAt wl c.1 + s.weightAt wl c.2, left := wl.getD c.1 0, right := wl.getD c.2 0 } := by
  simp [State.node]

theorem node_mergeNode_other (s : State) (wl : List NodeId) (c : Nat × Nat) {k j : Nat} (h : j ≠ k) :
    (s.mergeNode wl c k).node j = s.node j := by
  simp [State.node, Memory.read_write_other _ _ (Ne.symm h)]

theorem nodeWeight_mergeNode_other (s : State) (wl : List NodeId) (c : Nat × Nat) {k : Nat} {id : NodeId}
    (h : id.toNat ≠ 256 + k) : (s.mergeNode wl c k).nodeWeight id = s.nodeWeight id := by
  unfold State.nodeWeight
  split
  · exact congrArg _ (leafWeight_congr rfl rfl _)
  · next hl =>
    have := (isLeaf_false_iff id).1 (by simpa using hl)
    rw [node_mergeNode_other s wl c (by omega)]

theorem childrenAt_mergeNode (s : State) (wl : List NodeId) (c : Nat × Nat) (k : Nat) :
    (s.mergeNode wl c k).childrenAt (k + 1) = s.childrenAt k ++ [wl.getD c.1 0, wl.getD c.2 0] := by
  unfold State.childrenAt
  rw [List.range_succ, List.flatMap_append]
  congr 1
  · refine List.flatMap_congr (fun j hj => ?_)
    rw [node_mergeNode_other s wl c (Nat.ne_of_lt (List.mem_range.1 hj))]
  · simp [node_mergeNode_same]

theorem inTreeAt_mono (s : State) (k : Nat) {id : NodeId} (h : s.inTreeAt k id) : s.inTreeAt (k + 1) id := by
  unfold State.inTreeAt at *
  split
  · next hl => rwa [if_pos hl] at h
  · next hl => rw [if_neg hl] at h; omega

theorem MergeInv.inTree_of_mem (h : MergeInv s₀ n s wl k) {id : NodeId} (hm : id ∈ wl) : s₀.inTreeAt k id := by
  have hc := h.counts id
  have := List.count_pos_iff.2 hm
  by_contra hn
  rw [if_neg hn] at hc
  omega

theorem MergeInv.nodup (h : MergeInv s₀ n s wl k) : wl.Nodup := by
  refine List.nodup_iff_count_le_one.2 (fun id => ?_)
  have hc := h.counts id
  split at hc <;> omega

theorem inTreeAt_toNat_ne {id : NodeId} (h : s₀.inTreeAt k id) : id.toNat ≠ 256 + k := by
  unfold State.inTreeAt at h
  split at h
  · next hl => have := (isLeaf_iff id).1 hl; omega
  · omega

theorem sum_pair_le {l : List NodeId} (f : NodeId → Nat) {a b : NodeId} (ha : a ∈ l) (hb : b ∈ l) (hne : a ≠ b) :
    f a + f b ≤ (l.map f).sum := by
  obtain ⟨l', hp⟩ : ∃ l', l.Perm (a :: l') := ⟨_, List.perm_cons_erase ha⟩
  have hb' : b ∈ l' := by
    rcases List.mem_cons.1 (hp.mem_iff.1 hb) with h | h
    · exact absurd h.symm hne
    · exact h
  rw [(hp.map f).sum_eq, List.map_cons, List.sum_cons]
  exact Nat.add_le_add_left (List.single_le_sum (by simp) _ (List.mem_map_of_mem hb')) _

open Classical in
/-- One merge keeps the invariant. -/
theorem MergeInv.step (h : MergeInv s₀ n s wl k) (h2 : 2 ≤ wl.length) (hn : n ≤ 256) :
    MergeInv s₀ n (s.mergeNode wl (s.select wl) k) (mergeList wl (s.select wl) k) (k + 1) := by
  obtain ⟨smLt, ssLt, ne, least, second, -, -⟩ := select_scanned s wl h2
  generalize hc : s.select wl = c at *
  have hk : k < 255 := by have := h.size; omega
  have ga : wl.getD c.1 0 = wl[c.1] := List.getD_eq_getElem _ _ smLt
  have gb : wl.getD c.2 0 = wl[c.2] := List.getD_eq_getElem _ _ ssLt
  have ma : wl.getD c.1 0 ∈ wl := by rw [ga]; exact List.getElem_mem _
  have mb : wl.getD c.2 0 ∈ wl := by rw [gb]; exact List.getElem_mem _
  have hab : wl.getD c.1 0 ≠ wl.getD c.2 0 := by
    rw [ga, gb]; exact fun he => ne ((List.Nodup.getElem_inj_iff h.nodup).1 he)
  have perm := mergeList_perm wl c k smLt ssLt ne
  have hsum : (s.weightAt wl c.1).toNat + (s.weightAt wl c.2).toNat < 2 ^ 40 :=
    lt_of_le_of_lt ((sum_pair_le (fun id => (s.nodeWeight id).toNat) ma mb hab).trans_eq h.total) (totalWeight_lt s₀)
  have hnew : ((s.mergeNode wl c k).nodeWeight (internalId k)).toNat =
      (s.weightAt wl c.1).toNat + (s.weightAt wl c.2).toNat := by
    rw [State.nodeWeight, isLeaf_internalId (by omega), internalId_toNat (by omega)]
    simp only [Bool.false_eq_true, if_false, Nat.add_sub_cancel_left, node_mergeNode_same, BitVec.toNat_add]
    exact Nat.mod_eq_of_lt hsum
  have same : ∀ id, s₀.inTreeAt k id → (s.mergeNode wl c k).nodeWeight id = s.nodeWeight id :=
    fun id hid => nodeWeight_mergeNode_other s wl c (inTreeAt_toNat_ne hid)
  refine ⟨?_, ?_, ?_, ?_, ?_, ?_, ?_, ?_, ?_, ?_⟩
  · rw [State.mergeNode, h.frame]
  · rw [mergeList_length wl c k ssLt]; have := h.size; omega
  · rw [mergeList_length wl c k ssLt]; omega
  · intro j hj
    rw [mergeNode_nodes, Memory.read_write]
    split
    · rfl
    · exact h.written j (by omega)
  · intro id
    rw [childrenAt_mergeNode, List.count_append]
    have hp := perm.count_eq id
    have e : List.count id [wl.getD c.1 0, wl.getD c.2 0] + List.count id (mergeList wl c k) =
        List.count id [internalId k] + List.count id wl := by
      simp only [List.count_cons, List.count_nil] at hp ⊢
      omega
    have hcnt := h.counts id
    have hone : List.count id [internalId k] + (if s₀.inTreeAt k id then 1 else 0) =
        if s₀.inTreeAt (k + 1) id then 1 else 0 := by
      rw [List.count_singleton]
      by_cases hid : id = internalId k
      · subst hid
        have hl := isLeaf_internalId (k := k) (by omega)
        have ht := internalId_toNat (k := k) (by omega)
        have hout : ¬ s₀.inTreeAt k (internalId k) := by simp [State.inTreeAt, hl, ht]
        have hin : s₀.inTreeAt (k + 1) (internalId k) := by simp [State.inTreeAt, hl, ht]
        simp [hout, hin]
      · have hb : (internalId k == id) = false := by simpa using fun he : internalId k = id => hid he.symm
        have hiff : s₀.inTreeAt (k + 1) id ↔ s₀.inTreeAt k id := by
          refine ⟨fun hh => ?_, inTreeAt_mono s₀ k⟩
          unfold State.inTreeAt at *
          split
          · next hl => rwa [if_pos hl] at hh
          · next hl =>
            rw [if_neg hl] at hh
            have : id.toNat ≠ 256 + k := fun he => hid (internalId_of_toNat he)
            omega
        simp [hb, hiff]
    omega
  · intro j hj
    by_cases hjk : j = k
    · subst hjk
      rw [node_mergeNode_same]
      simp only [same _ (h.inTree_of_mem ma), same _ (h.inTree_of_mem mb), BitVec.toNat_add]
      exact ⟨Nat.mod_eq_of_lt hsum, least _ ssLt⟩
    · have hj' : j < k := by omega
      rw [node_mergeNode_other s wl c hjk, same _ (h.childBefore j hj' _ (.inl rfl)).1,
        same _ (h.childBefore j hj' _ (.inr rfl)).1]
      exact h.weights j hj'
  · intro j hj x hx
    by_cases hjk : j = k
    · subst hjk
      rw [node_mergeNode_same] at hx
      have hin : s₀.inTreeAt j x := by
        rcases hx with rfl | rfl
        · exact h.inTree_of_mem ma
        · exact h.inTree_of_mem mb
      refine ⟨inTreeAt_mono _ _ hin, fun hl => ?_⟩
      unfold State.inTreeAt at hin
      rwa [if_neg (by simp [hl])] at hin
    · rw [node_mergeNode_other s wl c hjk] at hx
      obtain ⟨h1, h2⟩ := h.childBefore j (by omega) x hx
      exact ⟨inTreeAt_mono _ _ h1, h2⟩
  · have hs := (perm.map (fun id => ((s.mergeNode wl c k).nodeWeight id).toNat)).sum_eq
    simp only [List.map_cons, List.sum_cons] at hs
    have hwl : (wl.map (fun id => ((s.mergeNode wl c k).nodeWeight id).toNat)) =
        wl.map (fun id => (s.nodeWeight id).toNat) :=
      List.map_congr_left (fun id hid => by rw [same id (h.inTree_of_mem hid)])
    rw [hnew, hwl, h.total, same _ (h.inTree_of_mem ma), same _ (h.inTree_of_mem mb)] at hs
    have e1 : s.weightAt wl c.1 = s.nodeWeight (wl.getD c.1 0) := rfl
    have e2 : s.weightAt wl c.2 = s.nodeWeight (wl.getD c.2 0) := rfl
    rw [e1, e2] at hs
    omega
  · intro _
    rw [Nat.add_sub_cancel]
    have hmem : internalId k ∈ wl.getD c.1 0 :: wl.getD c.2 0 :: mergeList wl c k :=
      perm.mem_iff.2 List.mem_cons_self
    have hni : ∀ id ∈ wl, internalId k ≠ id := fun id hid he =>
      inTreeAt_toNat_ne (h.inTree_of_mem hid) (by rw [← he, internalId_toNat (by omega)])
    rcases List.mem_cons.1 hmem with he | hmem
    · exact absurd he (hni _ ma)
    · rcases List.mem_cons.1 hmem with he | hmem
      · exact absurd he (hni _ mb)
      · exact hmem
  · intro h0
    exact ⟨Memory.wf_write (h.wf h0).1 _ _, Memory.below_write (h.wf h0).2 hk _⟩

/-- The loop ends with one node left and the invariant. -/
theorem MergeInv.loop (h : MergeInv s₀ n s wl k) (hn : n ≤ 256) (fuel : Nat) (hf : wl.length ≤ fuel + 1) :
    ∃ root, MergeInv s₀ n (State.mergeLoop fuel s wl k).1 [root] (n - 1) ∧
      (State.mergeLoop fuel s wl k).2 = ([root], n - 1) := by
  induction fuel generalizing s wl k with
  | zero =>
    have h1 : wl.length = 1 := Nat.le_antisymm (by omega) h.nonempty
    obtain ⟨root, rfl⟩ := List.length_eq_one_iff.1 h1
    have hk : k = n - 1 := by have := h.size; simp only [List.length_singleton] at this; omega
    exact ⟨root, hk ▸ h, by rw [State.mergeLoop, hk]⟩
  | succ fuel ih =>
    rw [State.mergeLoop]
    split
    · next hle =>
      have h1 : wl.length = 1 := Nat.le_antisymm hle h.nonempty
      obtain ⟨root, rfl⟩ := List.length_eq_one_iff.1 h1
      have hk : k = n - 1 := by have := h.size; simp only [List.length_singleton] at this; omega
      exact ⟨root, hk ▸ h, by rw [hk]⟩
    · next hgt =>
      have h2 : 2 ≤ wl.length := by omega
      refine ih (h.step h2 hn) ?_
      rw [mergeList_length wl _ k (select_scanned s wl h2).ssLt]
      omega

end

/-- Any fuel of at least |WL| − 1 gives the same loop (log 7). -/
theorem mergeLoop_fuel (f g : Nat) (s : State) (wl : List NodeId) (k : Nat) (hf : wl.length ≤ f + 1)
    (hg : wl.length ≤ g + 1) : State.mergeLoop f s wl k = State.mergeLoop g s wl k := by
  induction f generalizing g s wl k with
  | zero =>
    cases g with
    | zero => rfl
    | succ g => rw [State.mergeLoop, State.mergeLoop, if_pos (by omega)]
  | succ f ih =>
    cases g with
    | zero => rw [State.mergeLoop, State.mergeLoop, if_pos (by omega)]
    | succ g =>
      rw [State.mergeLoop, State.mergeLoop]
      split
      · rfl
      · next h =>
        have := mergeList_length wl (s.select wl) k (select_scanned s wl (by omega)).ssLt
        exact ih g _ _ _ (by omega) (by omega)

/-! ### The start of the loop -/

theorem mem_initialList (s : State) (id : NodeId) :
    id ∈ s.initialList ↔ isLeaf id = true ∧ s.weight (leafSymbol id) ≠ 0 := by
  simp only [State.initialList, List.mem_map, List.mem_filter, bne_iff_ne]
  constructor
  · rintro ⟨x, ⟨-, hx⟩, rfl⟩
    simpa using hx
  · rintro ⟨hl, hx⟩
    exact ⟨leafSymbol id, ⟨mem_allSymbols _, hx⟩, leafId_leafSymbol hl⟩

theorem initialList_nodup (s : State) : s.initialList.Nodup :=
  (allSymbols_nodup.filter _).map leafId_injective

theorem initialList_length_le (s : State) : s.initialList.length ≤ 256 := by
  simp only [State.initialList, List.length_map]
  exact (List.length_filter_le _ _).trans_eq allSymbols_length

theorem initialList_eq_nil_iff (s : State) : s.initialList = [] ↔ ∀ x, s.weight x = 0 := by
  simp only [State.initialList, List.map_eq_nil_iff, List.filter_eq_nil_iff, bne_iff_ne, ne_eq, not_not]
  exact ⟨fun h x => h x (mem_allSymbols x), fun h x _ => h x⟩

theorem MergeInv.start (s : State) (h : s.initialList ≠ []) :
    MergeInv s.snapshotWeights s.initialList.length s.snapshotWeights s.initialList 0 := by
  refine ⟨rfl, by omega, List.length_pos_iff.2 h, by omega, ?_, by omega, by omega, ?_, by omega, id⟩
  · intro id
    have h0 : (s.snapshotWeights.childrenAt 0).count id = 0 := by simp [State.childrenAt]
    rw [h0, Nat.zero_add]
    have hiff : s.snapshotWeights.inTreeAt 0 id ↔ id ∈ s.initialList := by
      rw [mem_initialList, State.inTreeAt]
      split
      · next hl => simp [hl, leafWeight_snapshot]
      · next hl =>
        have := (isLeaf_false_iff id).1 (by simpa using hl)
        simp only [hl, Bool.false_eq_true, false_and, iff_false]
        omega
    split
    · next hin => exact List.count_eq_one_of_mem (initialList_nodup s) (hiff.1 hin)
    · next hout => exact List.count_eq_zero.2 (fun hm => hout (hiff.2 hm))
  · have e : s.initialList.map (fun id => (s.snapshotWeights.nodeWeight id).toNat) =
        (allSymbols.filter (fun x => s.weight x != 0)).map (fun x => (s.weight x).toNat) := by
      rw [State.initialList, List.map_map]
      refine List.map_congr_left (fun x _ => ?_)
      simp only [Function.comp_apply, nodeWeight_leafId, leafWeight_snapshot]
    rw [e, State.totalWeight]
    simp only [leafWeight_snapshot]
    generalize allSymbols = l
    induction l with
    | nil => rfl
    | cons x l ih =>
      rw [List.filter_cons]
      split
      · rw [List.map_cons, List.sum_cons, List.map_cons, List.sum_cons, ih]
      · next hx =>
        have hx0 : s.weight x = 0 := by simpa using hx
        rw [ih, List.map_cons, List.sum_cons, hx0]
        simp

/-! ### The tree BUILD_TREE leaves -/

theorem inTreeAt_eq_inTree {s t : State} (hl : t.lw = s.lw) (hr : t.resets = s.resets)
    (id : NodeId) : s.inTreeAt t.tree.nodeCount.toNat id = t.inTree id := by
  simp only [State.inTreeAt, State.inTree, leafWeight_congr hl hr]

/-- Everything BUILD_TREE leaves when some weight is not zero: the tree of 41_tree_builder.md R127, the leaf weights as
the snapshot, and nothing else changed. -/
theorem buildTree_spec (s : State) (h : s.initialList ≠ []) :
    ∃ t, s.buildTree = (t, .none) ∧ t.tree.valid = true ∧ t.TreeOk ∧ (∀ x, t.leafWeight x = s.weight x) ∧
      t = { s with lw := t.lw, nodes := t.nodes, tree := t.tree } ∧ t.lw = s.snapshotWeights.lw ∧
      (s.nodes.wf ∧ s.nodes.below 255 → t.nodes.wf ∧ t.nodes.below 255) ∧
      t.tree.nodeCount.toNat + 1 = s.initialList.length := by
  have hlen := initialList_length_le s
  have hpos : 1 ≤ s.initialList.length := List.length_pos_iff.2 h
  obtain ⟨root, hinv, hres⟩ := (MergeInv.start s h).loop hlen s.initialList.length (by omega)
  generalize hr : State.mergeLoop s.initialList.length s.snapshotWeights s.initialList 0 = r at hinv hres
  obtain ⟨u, wl, k⟩ := r
  simp only [Prod.mk.injEq] at hres
  obtain ⟨rfl, rfl⟩ := hres
  generalize hk : s.initialList.length - 1 = k at *
  have hk255 : k ≤ 255 := by omega
  have hcount : (BitVec.ofNat 8 k).toNat = k := by
    rw [BitVec.toNat_ofNat]; exact Nat.mod_eq_of_lt (by omega)
  refine ⟨commitTree (u, [root], k), ?_, rfl, ?_, ?_, ?_, ?_, ?_, ?_⟩
  · rw [State.buildTree, if_neg h, hr]
  · have hfr := hinv.frame
    simp only at hfr
    have hlw : u.lw = s.snapshotWeights.lw := by rw [hfr]
    have hres : u.resets = s.snapshotWeights.resets := by rw [hfr]
    have hleaf : ∀ x, (commitTree (u, [root], k)).leafWeight x = s.snapshotWeights.leafWeight x :=
      fun x => leafWeight_congr hlw hres x
    have hnode : ∀ j, (commitTree (u, [root], k)).node j = u.node j := fun j => node_congr rfl rfl j
    have hnw : ∀ id, (commitTree (u, [root], k)).nodeWeight id = u.nodeWeight id :=
      fun id => nodeWeight_congr rfl rfl rfl id
    have hnc : (commitTree (u, [root], k)).tree.nodeCount.toNat = k := hcount
    have hroot : (commitTree (u, [root], k)).tree.root = root := rfl
    have hin : ∀ id, s.snapshotWeights.inTreeAt k id = (commitTree (u, [root], k)).inTree id := fun id => by
      rw [← inTreeAt_eq_inTree (s := s.snapshotWeights) (t := commitTree (u, [root], k)) hlw hres id, hnc]
    have hch : (commitTree (u, [root], k)).children = u.childrenAt k := by
      simp only [State.children, State.childrenAt, hnode, hnc]
    have rootIn : s.snapshotWeights.inTreeAt k root := hinv.inTree_of_mem List.mem_cons_self
    refine ⟨?_, ?_, ?_, ?_, ?_, ?_, ?_, ?_, ?_⟩
    · intro x
      have : (commitTree (u, [root], k)).lw = s.snapshotWeights.lw := hlw
      rw [this]
      exact snapshot_written s x
    · rw [hnc]; exact hinv.written
    · rw [hroot, hnc]
      split
      · next h0 =>
        have hk0 : k = 0 := by rw [← hnc, h0]; rfl
        unfold State.inTreeAt at rootIn
        split at rootIn
        · next hl => exact (leafId_leafSymbol hl).symm
        · next hl =>
          have := (isLeaf_false_iff root).1 (by simpa using hl)
          omega
      · next h0 =>
        have hk0 : 0 < k := by
          refine Nat.pos_of_ne_zero (fun hh => h0 (BitVec.eq_of_toNat_eq ?_))
          rw [hnc, hh]; rfl
        exact (List.mem_singleton.1 (hinv.newest hk0)).symm
    · rw [hroot, ← hin]; exact rootIn
    · rw [hnc]
      intro j hj
      simp only [hnode, hnw, BitVec.le_def]
      exact hinv.weights j hj
    · rw [hnc]
      intro j hj c hc
      simp only [hnode] at hc
      rw [← hin]
      exact hinv.childBefore j hj c hc
    · intro id
      rw [hroot, ← hin, hch]
      have hc := hinv.counts id
      rw [List.count_singleton] at hc
      by_cases hid : id = root
      · subst hid
        simp only [beq_self_eq_true, if_true, rootIn] at hc
        exact ⟨fun hh => absurd rfl hh.2, fun _ => by omega⟩
      · have hb : (root == id) = false := by simpa using fun he : root = id => hid he.symm
        simp only [hb, Bool.false_eq_true, if_false, Nat.add_zero] at hc
        refine ⟨fun hh => by rw [hc, if_pos hh.1], fun hh => ?_⟩
        rw [hc, if_neg (fun hi => hh ⟨hi, hid⟩)]
    · rw [hnc]
      simp only [hleaf, leafWeight_snapshot]
      have : s.initialList.length = (allSymbols.filter (fun x => s.weight x != 0)).length := by
        rw [State.initialList, List.length_map]
      omega
    · rw [hroot, hnw]
      simp only [hleaf]
      have ht := hinv.total
      simpa [State.totalWeight] using ht
  · intro x
    have hfr := hinv.frame
    simp only at hfr
    rw [← leafWeight_snapshot s x]
    exact leafWeight_congr (by show u.lw = _; rw [hfr]) (by show u.resets = _; rw [hfr]) x
  · have hfr := hinv.frame
    simp only at hfr
    rw [commitTree]
    simp only
    rw [hfr]
    rfl
  · have hfr := hinv.frame
    simp only at hfr
    show u.lw = _
    rw [hfr]
  · exact hinv.wf
  · show (BitVec.ofNat 8 k).toNat + 1 = _
    rw [hcount]; omega

end Sys2Proof.Machine
end

