-- ==== Sys2Proof/Laws/CodeGen.lean ====
section
/-! SUPPORT. GEN_TABLE's breadth-first loop on a tree of 41_tree_builder.md R127: it ends within its fuel, and the table
it leaves maps each leaf to its root-to-leaf path (spec/42_code_table_rom.md R141 to R143). -/

namespace Sys2Proof.Machine

theorem walk_append (s : State) (n : NodeId) (c d : BitString) :
    s.walk n (c ++ d) = (s.walk n c).bind (fun m => s.walk m d) := by
  induction c generalizing n with
  | nil => rfl
  | cons b c ih =>
    simp only [List.cons_append, State.walk]
    split
    · rfl
    · exact ih _

theorem walk_snoc (s : State) (n : NodeId) (c : BitString) (b : Bool) :
    s.walk n (c ++ [b]) = (s.walk n c).bind (fun m => if isLeaf m then none else some (s.child m b)) := by
  rw [walk_append]
  rfl

theorem inTree_internal {s : State} {n : NodeId} (hl : isLeaf n = false) (h : s.inTree n) :
    n.toNat - 256 < s.tree.nodeCount.toNat ∧ n.toNat = 256 + (n.toNat - 256) := by
  have h1 := (isLeaf_false_iff n).1 hl
  unfold State.inTree at h
  rw [if_neg (by simp [hl])] at h
  omega

section
variable {s : State} (ok : s.TreeOk)
include ok

theorem State.TreeOk.children_nodup : s.children.Nodup := by
  refine List.nodup_iff_count_le_one.2 (fun id => ?_)
  by_cases h : s.inTree id ∧ id ≠ s.tree.root
  · exact (ok.oneParent id).1 h |>.le
  · exact ((ok.oneParent id).2 h).le.trans (Nat.zero_le _)

omit ok in
/-- A child of an internal node of the tree is listed among the children. -/
theorem child_mem_children {n : NodeId} (hl : isLeaf n = false) (h : s.inTree n) (b : Bool) :
    s.child n b ∈ s.children := by
  refine List.mem_flatMap.2 ⟨n.toNat - 256, List.mem_range.2 (inTree_internal hl h).1, ?_⟩
  cases b <;> simp [State.child]

theorem State.TreeOk.child_inTree {n : NodeId} (hl : isLeaf n = false) (h : s.inTree n) (b : Bool) :
    s.inTree (s.child n b) ∧ s.child n b ≠ s.tree.root := by
  by_contra hn
  exact List.count_eq_zero.1 ((ok.oneParent _).2 hn) (child_mem_children hl h b)

theorem State.TreeOk.child_before {n : NodeId} (hl : isLeaf n = false) (h : s.inTree n) (b : Bool)
    (hc : isLeaf (s.child n b) = false) : (s.child n b).toNat < n.toNat := by
  have hk := inTree_internal hl h
  rw [hk.2]
  refine (ok.childBefore _ hk.1 _ ?_).2 hc
  cases b <;> simp [State.child]

theorem State.TreeOk.child_injective {n m : NodeId} (hn : isLeaf n = false) (hm : isLeaf m = false) (hni : s.inTree n)
    (hmi : s.inTree m) {a b : Bool} (h : s.child n a = s.child m b) : n = m ∧ a = b := by
  have hnd0 := ok.children_nodup
  unfold State.children at hnd0
  obtain ⟨hnd, hdis⟩ := List.nodup_flatMap.1 hnd0
  have hkn := inTree_internal hn hni
  have hkm := inTree_internal hm hmi
  by_cases he : n.toNat - 256 = m.toNat - 256
  · have hnm : n = m := BitVec.eq_of_toNat_eq (by omega)
    subst hnm
    refine ⟨rfl, ?_⟩
    have hlr := hnd _ (List.mem_range.2 hkn.1)
    have hne : (s.node (n.toNat - 256)).left ≠ (s.node (n.toNat - 256)).right := by simpa using hlr
    cases a <;> cases b
    · rfl
    · exact absurd (by simpa [State.child] using h) hne
    · exact absurd (by simpa [State.child] using h.symm) hne
    · rfl
  · exfalso
    have hsym : Std.Symm (Function.onFun List.Disjoint
        (fun j => [(s.node j).left, (s.node j).right])) := ⟨fun _ _ h => List.Disjoint.symm h⟩
    have hd := hdis.forall (List.mem_range.2 hkn.1) (List.mem_range.2 hkm.1) he
    refine hd (a := s.child n a) ?_ ?_
    · cases a <;> simp [State.child]
    · rw [h]; cases b <;> simp [State.child]

theorem State.TreeOk.walk_inTree {c : BitString} {n : NodeId} (h : s.walk s.tree.root c = some n) : s.inTree n := by
  induction c using List.reverseRecOn generalizing n with
  | nil =>
    simp only [State.walk, Option.some.injEq] at h
    exact h ▸ ok.rootIn
  | append_singleton c b ih =>
    rw [walk_snoc] at h
    obtain ⟨m, hm, h⟩ := Option.bind_eq_some_iff.1 h
    split at h
    · cases h
    · next hl =>
      simp only [Option.some.injEq] at h
      exact h ▸ (ok.child_inTree (by simpa using hl) (ih hm) b).1

/-- A node of the tree has one path from the root. -/
theorem State.TreeOk.walk_unique {c d : BitString} {n : NodeId} (hc : s.walk s.tree.root c = some n)
    (hd : s.walk s.tree.root d = some n) : c = d := by
  induction c using List.reverseRecOn generalizing d n with
  | nil =>
    simp only [State.walk, Option.some.injEq] at hc
    rcases List.eq_nil_or_concat d with rfl | ⟨d, b, rfl⟩
    · rfl
    · rw [List.concat_eq_append, walk_snoc] at hd
      obtain ⟨m, hm, hd⟩ := Option.bind_eq_some_iff.1 hd
      split at hd
      · cases hd
      · next hl =>
        simp only [Option.some.injEq] at hd
        exact absurd (hd.trans hc.symm) (ok.child_inTree (by simpa using hl) (ok.walk_inTree hm) b).2
  | append_singleton c a ih =>
    rw [walk_snoc] at hc
    obtain ⟨p, hp, hc⟩ := Option.bind_eq_some_iff.1 hc
    split at hc
    · cases hc
    next hlp =>
    simp only [Option.some.injEq] at hc
    rcases List.eq_nil_or_concat d with rfl | ⟨d, b, rfl⟩
    · simp only [State.walk, Option.some.injEq] at hd
      exact absurd (hc.trans hd.symm) (ok.child_inTree (by simpa using hlp) (ok.walk_inTree hp) a).2
    · rw [List.concat_eq_append, walk_snoc] at hd
      obtain ⟨q, hq, hd⟩ := Option.bind_eq_some_iff.1 hd
      split at hd
      · cases hd
      next hlq =>
      simp only [Option.some.injEq] at hd
      obtain ⟨rfl, rfl⟩ := ok.child_injective (by simpa using hlp) (by simpa using hlq) (ok.walk_inTree hp)
        (ok.walk_inTree hq) (hc.trans hd.symm)
      rw [ih hp hq, List.concat_eq_append]

/-- Every node of the tree has a path from the root. -/
theorem State.TreeOk.walk_exists (n : NodeId) (h : s.inTree n) : ∃ c, s.walk s.tree.root c = some n := by
  by_cases hr : n = s.tree.root
  · exact ⟨[], by rw [hr]; rfl⟩
  · have hm : n ∈ s.children := List.count_pos_iff.1 (by rw [(ok.oneParent n).1 ⟨h, hr⟩]; exact Nat.one_pos)
    obtain ⟨k, hk, hn⟩ := List.mem_flatMap.1 hm
    have hk := List.mem_range.1 hk
    have hk256 : k < 256 := hk.trans s.tree.nodeCount.isLt
    have hp := internalId_toNat hk256
    have hpl := isLeaf_internalId hk256
    have hpi : s.inTree (internalId k) := by simp [State.inTree, hpl, hp, hk]
    have hb : ∃ b, s.child (internalId k) b = n := by
      have he : (internalId k).toNat - 256 = k := by omega
      rcases List.mem_cons.1 hn with rfl | hn
      · exact ⟨false, by simp [State.child, he]⟩
      · exact ⟨true, by simp [State.child, he, List.mem_singleton.1 hn]⟩
    obtain ⟨b, hb⟩ := hb
    have hlt : n.toNat < (internalId k).toNat := by
      by_cases hl : isLeaf n = true
      · have := (isLeaf_iff n).1 hl; omega
      · exact hb ▸ ok.child_before hpl hpi b (by rw [hb]; simpa using hl)
    obtain ⟨c, hc⟩ := State.TreeOk.walk_exists (internalId k) hpi
    exact ⟨c ++ [b], by rw [walk_snoc, hc]; simp [hpl, hb]⟩
termination_by 512 - n.toNat
decreasing_by have := (internalId k).isLt; omega

/-- A path from internal node number k is at most k + 1 edges long. -/
theorem State.TreeOk.walk_length {c : BitString} {n m : NodeId} (hl : isLeaf n = false) (hi : s.inTree n)
    (h : s.walk n c = some m) : c.length + 256 ≤ n.toNat + 1 := by
  induction c generalizing n with
  | nil => have := (isLeaf_false_iff n).1 hl; simp; omega
  | cons b c ih =>
    rw [State.walk, if_neg (by simp [hl])] at h
    by_cases hc : isLeaf (s.child n b) = true
    · cases c with
      | nil => have := (isLeaf_false_iff n).1 hl; simp; omega
      | cons b' c => rw [State.walk, if_pos hc] at h; cases h
    · have hc' : isLeaf (s.child n b) = false := by simpa using hc
      have h1 := ih hc' (ok.child_inTree hl hi b).1 h
      have h2 := ok.child_before hl hi b hc'
      simp only [List.length_cons]
      omega

theorem State.TreeOk.root_leaf_iff : isLeaf s.tree.root = true ↔ s.tree.nodeCount = 0 := by
  have hr := ok.root
  constructor
  · intro hl
    by_contra h0
    rw [if_neg h0] at hr
    have : s.tree.nodeCount.toNat < 256 := s.tree.nodeCount.isLt
    rw [hr, isLeaf_internalId (by omega)] at hl
    cases hl
  · intro h0
    rw [if_pos h0] at hr
    rw [hr]; exact isLeaf_leafId _

/-- The path to a leaf has between 1 and NODE_COUNT edges, and none in a degenerate tree (42_code_table_rom.md R142). -/
theorem State.TreeOk.leaf_path_length {c : BitString} {x : Symbol} (h : s.walk s.tree.root c = some (leafId x)) :
    c.length ≤ s.tree.nodeCount.toNat ∧ (s.tree.nodeCount ≠ 0 → 1 ≤ c.length) := by
  by_cases h0 : s.tree.nodeCount = 0
  · have hl := ok.root_leaf_iff.2 h0
    cases c with
    | nil => simp [h0]
    | cons b c => rw [State.walk, if_pos hl] at h; cases h
  · have hl : isLeaf s.tree.root = false := by
      by_contra hh
      exact h0 (ok.root_leaf_iff.1 (by simpa using hh))
    have h1 := ok.walk_length hl ok.rootIn h
    have hr := ok.root
    rw [if_neg h0] at hr
    have hlt : s.tree.nodeCount.toNat < 256 := s.tree.nodeCount.isLt
    have hpos : 0 < s.tree.nodeCount.toNat :=
      Nat.pos_of_ne_zero (fun hh => h0 (BitVec.eq_of_toNat_eq hh))
    rw [hr, internalId_toNat (by omega)] at h1
    refine ⟨by omega, fun _ => ?_⟩
    cases c with
    | nil =>
      simp only [State.walk, Option.some.injEq] at h
      rw [h, isLeaf_leafId] at hl
      cases hl
    | cons b c => simp

omit ok in
/-- Leaf paths are prefix-free (42_code_table_rom.md R143). -/
theorem leaf_paths_prefixFree {c d : BitString} {x y : Symbol} (hc : s.walk s.tree.root c = some (leafId x))
    (hd : s.walk s.tree.root d = some (leafId y)) (hne : x ≠ y) : ¬ c <+: d := by
  rintro ⟨e, rfl⟩
  rw [walk_append, hc] at hd
  cases e with
  | nil =>
    simp only [Option.bind_some, State.walk, Option.some.injEq] at hd
    exact hne (leafId_injective hd)
  | cons b e =>
    simp [State.walk] at hd

omit ok in
/-- What holds before every turn of the breadth-first loop: `P` the entries dequeued so far, `Q` the worklist, `t` the
table so far. -/
structure GenInv (s : State) (P Q : List (BitString × NodeId)) (t : Memory BitString) : Prop where
  walks : ∀ e ∈ P ++ Q, s.walk s.tree.root e.1 = some e.2
  nodup : ((P ++ Q).map Prod.fst).Nodup
  rootMem : [] ∈ (P ++ Q).map Prod.fst
  closed : ∀ e ∈ P, isLeaf e.2 = false → ∀ b, e.1 ++ [b] ∈ (P ++ Q).map Prod.fst
  parent : ∀ e ∈ P ++ Q, ∀ c b, e.1 = c ++ [b] → c ∈ P.map Prod.fst
  table : ∀ (x : Symbol) c, t.read x.toNat = some c ↔ (c, leafId x) ∈ P
  wf : t.wf ∧ t.below 256

theorem GenInv.length_le {P Q : List (BitString × NodeId)} {t : Memory BitString} (h : GenInv s P Q t) :
    P.length + Q.length ≤ 511 := by
  have hids : ((P ++ Q).map (fun e => e.2.toNat)).Nodup := by
    refine List.Nodup.map_on (fun e he e' he' heq => ?_) (List.Nodup.of_map _ h.nodup)
    have h2 : e.2 = e'.2 := BitVec.eq_of_toNat_eq heq
    have h1 := ok.walk_unique (h.walks e he) (by rw [h2]; exact h.walks e' he')
    exact Prod.ext h1 h2
  have hsub : (P ++ Q).map (fun e => e.2.toNat) ⊆ List.range 511 := by
    intro a ha
    obtain ⟨e, he, rfl⟩ := List.mem_map.1 ha
    have hi := ok.walk_inTree (h.walks e he)
    have hlt : s.tree.nodeCount.toNat < 256 := s.tree.nodeCount.isLt
    rw [List.mem_range]
    unfold State.inTree at hi
    split at hi
    · next hl => have := (isLeaf_iff e.2).1 hl; omega
    · omega
  have := (List.subperm_of_subset hids hsub).length_le
  simpa using this

omit ok in
theorem GenInv.start (s : State) : GenInv s [] [([], s.tree.root)] [] := by
  refine ⟨by simp [State.walk], by simp, by simp, by simp, ?_, by simp, by simp [Memory.wf, Memory.below]⟩
  intro e he c b hc
  simp only [List.nil_append, List.mem_singleton] at he
  rw [he] at hc
  simp at hc

theorem GenInv.leaf {P Q : List (BitString × NodeId)} {t : Memory BitString} {c : BitString} {n : NodeId}
    (h : GenInv s P ((c, n) :: Q) t) (hl : isLeaf n = true) :
    GenInv s (P ++ [(c, n)]) Q (t.write (leafSymbol n).toNat c) := by
  have e : P ++ [(c, n)] ++ Q = P ++ (c, n) :: Q := by simp
  refine ⟨by rw [e]; exact h.walks, by rw [e]; exact h.nodup, by rw [e]; exact h.rootMem, ?_, ?_, ?_, ?_⟩
  · intro x hx hxl b
    rw [e]
    rcases List.mem_append.1 hx with hx | hx
    · exact h.closed x hx hxl b
    · rw [List.mem_singleton.1 hx] at hxl
      rw [hl] at hxl
      cases hxl
  · intro x hx d b hd
    rw [e] at hx
    rw [List.map_append]
    exact List.mem_append_left _ (h.parent x hx d b hd)
  · intro x d
    rw [Memory.read_write]
    split
    · next hx =>
      have hxn : leafId x = n := by
        rw [← leafId_leafSymbol hl]
        exact congrArg leafId (BitVec.eq_of_toNat_eq hx.symm)
      have hnotin : ∀ d, (d, n) ∉ P := fun d hd => by
        have hdc : d = c := ok.walk_unique (h.walks (d, n) (by simp [hd])) (h.walks (c, n) (by simp))
        have hn := h.nodup
        rw [List.map_append, List.map_cons] at hn
        exact (List.disjoint_of_nodup_append hn) (List.mem_map_of_mem hd) (by simp [hdc])
      simp only [hxn, Option.some.injEq, List.mem_append, hnotin, List.mem_singleton, Prod.mk.injEq, false_or, and_true]
      exact eq_comm
    · next hx =>
      rw [h.table]
      have hne : leafId x ≠ n := fun hh => hx (by rw [← hh, leafSymbol_leafId])
      simp [hne]
  · exact ⟨Memory.wf_write h.wf.1 _ _, Memory.below_write h.wf.2 (leafSymbol n).isLt _⟩

omit ok in
theorem GenInv.internal {P Q : List (BitString × NodeId)} {t : Memory BitString} {c : BitString} {n : NodeId}
    (h : GenInv s P ((c, n) :: Q) t) (hl : isLeaf n = false) :
    GenInv s (P ++ [(c, n)])
      (Q ++ [(c ++ [false], (s.node (n.toNat - 256)).left), (c ++ [true], (s.node (n.toNat - 256)).right)]) t := by
  have e : P ++ [(c, n)] ++
      (Q ++ [(c ++ [false], (s.node (n.toNat - 256)).left), (c ++ [true], (s.node (n.toNat - 256)).right)]) =
      (P ++ (c, n) :: Q) ++
        [(c ++ [false], (s.node (n.toNat - 256)).left), (c ++ [true], (s.node (n.toNat - 256)).right)] := by simp
  have hcw := h.walks (c, n) (by simp)
  have fresh : ∀ b, c ++ [b] ∉ (P ++ (c, n) :: Q).map Prod.fst := fun b hb => by
    obtain ⟨x, hx, hxe⟩ := List.mem_map.1 hb
    have hcP := h.parent x hx c b hxe
    have hn := h.nodup
    rw [List.map_append, List.map_cons] at hn
    exact (List.disjoint_of_nodup_append hn) hcP (by simp)
  refine ⟨?_, ?_, ?_, ?_, ?_, ?_, h.wf⟩
  · intro x hx
    rw [e] at hx
    rcases List.mem_append.1 hx with hx | hx
    · exact h.walks x hx
    · simp only [List.mem_cons, List.not_mem_nil, or_false] at hx
      rcases hx with rfl | rfl <;> simp [walk_snoc, hcw, hl, State.child]
  · rw [e, List.map_append]
    refine List.Nodup.append h.nodup (by simp) ?_
    intro d hd hd'
    simp only [List.map_cons, List.map_nil, List.mem_cons, List.not_mem_nil, or_false] at hd'
    rcases hd' with rfl | rfl
    · exact fresh _ hd
    · exact fresh _ hd
  · rw [e, List.map_append]
    exact List.mem_append_left _ h.rootMem
  · intro x hx hxl b
    rw [e, List.map_append]
    rcases List.mem_append.1 hx with hx | hx
    · exact List.mem_append_left _ (h.closed x hx hxl b)
    · rw [List.mem_singleton.1 hx]
      refine List.mem_append_right _ ?_
      cases b <;> simp
  · intro x hx d b hd
    rw [e] at hx
    rw [List.map_append]
    rcases List.mem_append.1 hx with hx | hx
    · exact List.mem_append_left _ (h.parent x hx d b hd)
    · refine List.mem_append_right _ ?_
      simp only [List.mem_cons, List.not_mem_nil, or_false] at hx
      have : d = c := by
        rcases hx with rfl | rfl
        · exact (List.append_inj' hd rfl).1.symm
        · exact (List.append_inj' hd rfl).1.symm
      simp [this]
  · intro x d
    rw [h.table, List.mem_append]
    have : (d, leafId x) ≠ (c, n) := fun hh => by
      have h2 : leafId x = n := (Prod.ext_iff.1 hh).2
      rw [← h2, isLeaf_leafId] at hl
      cases hl
    simp [this]

theorem GenInv.loop (fuel : Nat) {P Q : List (BitString × NodeId)} {t : Memory BitString} (h : GenInv s P Q t)
    (hf : fuel + P.length = genFuel) : ∃ P', GenInv s P' [] (s.genLoop fuel Q t) := by
  induction fuel generalizing P Q t with
  | zero =>
    have hlen := GenInv.length_le ok h
    have hQ : Q = [] := List.length_eq_zero_iff.1 (by simp only [genFuel] at hf; omega)
    subst hQ
    exact ⟨P, h⟩
  | succ fuel ih =>
    match Q, h with
    | [], h => exact ⟨P, h⟩
    | (c, n) :: Q, h =>
      rw [State.genLoop]
      split
      · next hl => exact ih (GenInv.leaf ok h hl) (by simp; omega)
      · next hl => exact ih (GenInv.internal h (by simpa using hl)) (by simp; omega)

/-- The table the loop leaves: each leaf of the tree with its root-to-leaf path (42_code_table_rom.md R142). -/
theorem genLoop_spec :
    (∀ (x : Symbol) c, (s.genLoop genFuel [([], s.tree.root)] []).read x.toNat = some c ↔
      s.walk s.tree.root c = some (leafId x)) ∧
    (s.genLoop genFuel [([], s.tree.root)] []).wf ∧
      Memory.below (s.genLoop genFuel [([], s.tree.root)] []) 256 := by
  obtain ⟨P, h⟩ := GenInv.loop ok genFuel (GenInv.start s) (by simp)
  refine ⟨fun x c => ?_, h.wf⟩
  rw [h.table]
  have hw := h.walks
  simp only [List.append_nil] at hw
  refine ⟨fun hm => hw _ hm, fun hwalk => ?_⟩
  have all : ∀ (d : BitString) (m : NodeId), s.walk s.tree.root d = some m → (d, m) ∈ P := by
    intro d
    have hclosed := h.closed
    simp only [List.append_nil] at hclosed
    induction d using List.reverseRecOn with
    | nil =>
      intro m hm
      have hr := h.rootMem
      simp only [List.append_nil] at hr
      obtain ⟨e, he, hee⟩ := List.mem_map.1 hr
      have h1 := hw e he
      rw [hee, hm] at h1
      rw [← hee, Option.some.inj h1]
      exact he
    | append_singleton d b ih =>
      intro m hm
      have hm' := hm
      rw [walk_snoc] at hm
      obtain ⟨p, hp, hpm⟩ := Option.bind_eq_some_iff.1 hm
      split at hpm
      · cases hpm
      next hl =>
      obtain ⟨e, he, hee⟩ := List.mem_map.1 (hclosed (d, p) (ih p hp) (by simpa using hl) b)
      have h1 := hw e he
      rw [hee, hm'] at h1
      simp only at hee
      rw [← hee, Option.some.inj h1]
      exact he
  exact all c _ hwalk

/-- A leaf of nonzero weight has an entry, and no other symbol has one. -/
theorem genLoop_valid (x : Symbol) :
    ((s.genLoop genFuel [([], s.tree.root)] []).read x.toNat).isSome = true ↔ s.leafWeight x ≠ 0 := by
  have hin : s.inTree (leafId x) ↔ s.leafWeight x ≠ 0 := by simp [State.inTree]
  rw [Option.isSome_iff_exists, ← hin]
  constructor
  · rintro ⟨c, hc⟩
    exact ok.walk_inTree (((genLoop_spec ok).1 x c).1 hc)
  · intro h
    obtain ⟨c, hc⟩ := ok.walk_exists _ h
    exact ⟨c, ((genLoop_spec ok).1 x c).2 hc⟩

end

end Sys2Proof.Machine
end

