-- ==== Sys2Proof/Laws/Search.lean ====
section
/-! SUPPORT. DECODE's search: the invariant of its loop, how it ends, what a state's bytes spell, and its agreement with
the source's unbounded worklist (spec/43_decoder_fsm.md R162 to R166). -/

namespace Sys2Proof.Machine

/-! ### Codes and the inverted table -/

theorem matchCode_eq_invert (s : State) (pos len : Nat) : s.matchCode pos len = s.invert (s.bitsFrom pos len) := rfl

theorem invert_eq_some {s : State} {c : BitString} {x : Symbol} (h : s.invert c = some x) :
    s.code x = some c ∧ ∀ y, s.code y = some c → x.toNat ≤ y.toNat := by
  obtain ⟨hx, l₁, l₂, hl, hbefore⟩ := List.find?_eq_some_iff_append.1 h
  refine ⟨by simpa using hx, fun y hy => ?_⟩
  by_contra hlt
  have hr := allSymbols_rising
  rw [hl] at hr
  have hm := mem_allSymbols y
  rw [hl] at hm
  rcases List.mem_append.1 hm with hm | hm
  · have := hbefore y hm
    simp [hy] at this
  · rcases List.mem_cons.1 hm with rfl | hm
    · exact hlt (Nat.le_refl _)
    · have := (List.pairwise_cons.1 (List.pairwise_append.1 hr).2.1).1 y hm
      omega

theorem invert_eq_none {s : State} {c : BitString} : s.invert c = none ↔ ∀ x, s.code x ≠ some c := by
  simp only [State.invert, List.find?_eq_none, beq_iff_eq]
  exact ⟨fun h x => h x (mem_allSymbols x), fun h x _ => h x⟩

theorem invert_exists {s : State} {c : BitString} {x : Symbol} (h : s.code x = some c) : ∃ y, s.invert c = some y := by
  cases hi : s.invert c with
  | none => exact absurd h (invert_eq_none.1 hi x)
  | some y => exact ⟨y, rfl⟩

theorem foldl_maxLen (s : State) (l : List Symbol) (m : Nat) :
    m ≤ l.foldl (fun m x => match s.code x with | some c => max m c.length | none => m) m ∧
      (∀ x ∈ l, ∀ c, s.code x = some c →
        c.length ≤ l.foldl (fun m x => match s.code x with | some c => max m c.length | none => m) m) ∧
      (l.foldl (fun m x => match s.code x with | some c => max m c.length | none => m) m = m ∨
        ∃ x ∈ l, ∃ c, s.code x = some c ∧
          l.foldl (fun m x => match s.code x with | some c => max m c.length | none => m) m = c.length) := by
  induction l generalizing m with
  | nil => simp
  | cons y l ih =>
    rw [List.foldl_cons]
    cases hy : s.code y with
    | none =>
      obtain ⟨h1, h2, h3⟩ := ih m
      refine ⟨h1, fun x hx c hc => ?_, h3.imp id (fun ⟨x, hx, hh⟩ => ⟨x, List.mem_cons_of_mem _ hx, hh⟩)⟩
      rcases List.mem_cons.1 hx with rfl | hx
      · rw [hy] at hc; cases hc
      · exact h2 x hx c hc
    | some d =>
      obtain ⟨h1, h2, h3⟩ := ih (max m d.length)
      refine ⟨(Nat.le_max_left _ _).trans h1, fun x hx c hc => ?_, ?_⟩
      · rcases List.mem_cons.1 hx with rfl | hx
        · rw [hy] at hc
          cases hc
          exact (Nat.le_max_right _ _).trans h1
        · exact h2 x hx c hc
      · rcases h3 with h3 | ⟨x, hx, hh⟩
        · rcases Nat.le_total m d.length with hle | hle
          · exact .inr ⟨y, List.mem_cons_self, d, hy, by rw [h3, Nat.max_eq_right hle]⟩
          · exact .inl (by rw [h3, Nat.max_eq_left hle])
        · exact .inr ⟨x, List.mem_cons_of_mem _ hx, hh⟩

/-- maxCodeLength bounds every valid code (10_state.md R28). -/
theorem length_le_maxLen {s : State} {x : Symbol} {c : BitString} (h : s.code x = some c) : c.length ≤ s.maxLen :=
  (foldl_maxLen s allSymbols 0).2.1 x (mem_allSymbols x) c h

/-- maxCodeLength is the length of some valid code, or 0 (10_state.md R28). -/
theorem maxLen_attained (s : State) : s.maxLen = 0 ∨ ∃ x c, s.code x = some c ∧ s.maxLen = c.length :=
  (foldl_maxLen s allSymbols 0).2.2.imp id (fun ⟨x, _, c, h⟩ => ⟨x, c, h⟩)

@[simp] theorem bitsFrom_length (s : State) (pos len : Nat) : (s.bitsFrom pos len).length = len := by
  simp [State.bitsFrom]

theorem bitsFrom_add (s : State) (pos a b : Nat) : s.bitsFrom pos (a + b) = s.bitsFrom pos a ++ s.bitsFrom (pos + a) b := by
  simp only [State.bitsFrom, List.range_add, List.map_append, List.map_map, Nat.add_assoc]
  rfl

theorem bitsFrom_eq_drop_take (s : State) {pos len n : Nat} (h : pos + len ≤ n) :
    s.bitsFrom pos len = ((s.bitsFrom 0 n).drop pos).take len := by
  obtain ⟨m, rfl⟩ := Nat.exists_eq_add_of_le h
  rw [bitsFrom_add, bitsFrom_add, Nat.zero_add, List.append_assoc, List.drop_left' (by simp), List.take_left' (by simp)]

theorem encodeBytes_append (s : State) (xs ys : List Symbol) :
    s.encodeBytes (xs ++ ys) =
      (s.encodeBytes xs).bind (fun e => (s.encodeBytes ys).map (fun f => e ++ f)) := by
  induction xs with
  | nil => simp [State.encodeBytes]
  | cons x xs ih =>
    simp only [List.cons_append, State.encodeBytes, ih]
    cases s.code x <;> cases s.encodeBytes xs <;> cases s.encodeBytes ys <;> simp

theorem encodeBytes_singleton (s : State) (x : Symbol) : s.encodeBytes [x] = s.code x := by
  simp only [State.encodeBytes]
  cases s.code x <;> simp

/-! ### One expansion -/

/-- The states one state enqueues: every matching prefix length, in increasing order (43_decoder_fsm.md R162). -/
def State.newStates (s : State) (cur : Nat) (st : SearchState) (lens : List Nat) : List SearchState :=
  lens.filterMap (fun len => (s.matchCode st.pos len).map
    (fun x => { pos := st.pos + len, parent := cur, sym := x, depth := st.depth + 1 }))

/-- What one expansion does: all the matches are enqueued if they fit, else the arena is filled to ARENA_DEPTH. -/
theorem expand_eq (s : State) (cur : Nat) (st : SearchState) (lens : List Nat) (arena : List SearchState)
    (h : arena.length ≤ s.params.arenaDepth) :
    s.expand cur st lens arena =
      if arena.length + (s.newStates cur st lens).length ≤ s.params.arenaDepth then
        .ok (arena ++ s.newStates cur st lens)
      else .error (arena ++ (s.newStates cur st lens).take (s.params.arenaDepth - arena.length)) := by
  induction lens generalizing arena with
  | nil => simp [State.expand, State.newStates, h]
  | cons len lens ih =>
    rw [State.expand]
    cases hm : s.matchCode st.pos len with
    | none =>
      have e : s.newStates cur st (len :: lens) = s.newStates cur st lens := by simp [State.newStates, hm]
      rw [e]
      exact ih arena h
    | some x =>
      have e : s.newStates cur st (len :: lens) =
          { pos := st.pos + len, parent := cur, sym := x, depth := st.depth + 1 } :: s.newStates cur st lens := by
        simp [State.newStates, hm]
      rw [e]
      simp only [List.length_cons]
      split
      · next hfull =>
        rw [if_neg (by omega)]
        simp [hfull]
      · next hroom =>
        rw [ih _ (by simp; omega)]
        simp only [List.length_append, List.length_singleton]
        split
        · next hfit => rw [if_pos (by omega)]; simp
        · next hno =>
          rw [if_neg (by omega), show s.params.arenaDepth - arena.length =
            s.params.arenaDepth - (arena.length + 1) + 1 by omega, List.take_succ_cons]
          simp

theorem mem_newStates {s : State} {cur : Nat} {st e : SearchState} {lens : List Nat} :
    e ∈ s.newStates cur st lens ↔ ∃ len ∈ lens, ∃ x, s.matchCode st.pos len = some x ∧
      e = { pos := st.pos + len, parent := cur, sym := x, depth := st.depth + 1 } := by
  simp only [State.newStates, List.mem_filterMap, Option.map_eq_some_iff]
  exact ⟨fun ⟨len, hl, x, hx, he⟩ => ⟨len, hl, x, hx, he.symm⟩, fun ⟨len, hl, x, hx, he⟩ => ⟨len, hl, x, hx, he.symm⟩⟩

theorem mem_prefixLengths {s : State} {st : SearchState} {len : Nat} :
    len ∈ s.prefixLengths st ↔ 1 ≤ len ∧ len ≤ s.maxLen ∧ len ≤ s.bitLen.toNat - st.pos := by
  rw [State.prefixLengths, List.mem_range'_1]
  omega

/-- A match has a length from 1 to maxCodeLength within the sequence. -/
theorem prefixLengths_of_match {s : State} {st : SearchState} {len : Nat} {x : Symbol} (h1 : 1 ≤ len)
    (h2 : st.pos + len ≤ s.bitLen.toNat) (h : s.matchCode st.pos len = some x) : len ∈ s.prefixLengths st := by
  have hc := (invert_eq_some (c := s.bitsFrom st.pos len) h).1
  have := length_le_maxLen hc
  rw [bitsFrom_length] at this
  exact mem_prefixLengths.2 ⟨h1, this, by omega⟩

/-! ### The arena -/

/-- Every arena entry but the seed extends an earlier one by a matching code (10_state.md R42; 43_decoder_fsm.md
R162). -/
structure ArenaOk (s : State) (A : List SearchState) : Prop where
  seed : A[0]? = some seedState
  entry : ∀ (a : Nat) (e : SearchState), 0 < a → A[a]? = some e → ∃ p, e.parent < a ∧ A[e.parent]? = some p ∧ e.depth = p.depth + 1 ∧
    p.pos < e.pos ∧ e.pos ≤ s.bitLen.toNat ∧ s.matchCode p.pos (e.pos - p.pos) = some e.sym

/-- The bytes of the arena's entry `a`. -/
def bytesAt (A : List SearchState) (a : Nat) : List Byte := chainBytes A (A.getD a seedState).depth a

theorem getD_of_getElem? {A : List SearchState} {a : Nat} {e : SearchState} (h : A[a]? = some e) :
    A.getD a seedState = e := by simp [List.getD, h]

theorem ArenaOk.bytesAt_zero {s : State} {A : List SearchState} (h : ArenaOk s A) : bytesAt A 0 = [] := by
  rw [bytesAt, getD_of_getElem? h.seed]
  rfl

theorem bytesAt_parent {A : List SearchState} {a : Nat} {e p : SearchState} (he : A[a]? = some e)
    (hp : A[e.parent]? = some p) (hd : e.depth = p.depth + 1) : bytesAt A a = bytesAt A e.parent ++ [e.sym] := by
  rw [bytesAt, bytesAt, getD_of_getElem? he, getD_of_getElem? hp, hd, chainBytes, getD_of_getElem? he]

/-- What an entry's bytes are: `depth` symbols, none with an empty code, each the lowest with its code, whose codes spell
the bits before `pos`. -/
theorem ArenaOk.bytesAt_spec {s : State} {A : List SearchState} (h : ArenaOk s A) (a : Nat) {e : SearchState}
    (he : A[a]? = some e) :
    (bytesAt A a).length = e.depth ∧ s.encodeBytes (bytesAt A a) = some (s.bitsFrom 0 e.pos) ∧
      (∀ x ∈ bytesAt A a, s.code x ≠ some [] ∧ ∀ y, s.code y = s.code x → x.toNat ≤ y.toNat) ∧ e.depth ≤ e.pos ∧
      e.pos ≤ s.bitLen.toNat := by
  induction a using Nat.strongRecOn generalizing e with
  | ind a ih =>
    rcases Nat.eq_zero_or_pos a with rfl | hpos
    · rw [h.seed] at he
      cases he
      rw [h.bytesAt_zero]
      simp [State.encodeBytes, seedState, State.bitsFrom]
    · obtain ⟨p, hlt, hp, hd, hpp, hle, hm⟩ := h.entry a e hpos he
      obtain ⟨h1, h2, h3, h4, h5⟩ := ih _ hlt hp
      obtain ⟨hc, hlow⟩ := invert_eq_some (c := s.bitsFrom p.pos (e.pos - p.pos)) hm
      rw [bytesAt_parent he hp hd]
      refine ⟨by simp [h1, hd], ?_, ?_, by omega, hle⟩
      · rw [encodeBytes_append, h2, encodeBytes_singleton, hc]
        have := bitsFrom_add s 0 p.pos (e.pos - p.pos)
        rw [Nat.zero_add, show p.pos + (e.pos - p.pos) = e.pos by omega] at this
        simp [this]
      · intro x hx
        rcases List.mem_append.1 hx with hx | hx
        · exact h3 x hx
        · rw [List.mem_singleton.1 hx, hc]
          refine ⟨fun hh => ?_, hlow⟩
          have := congrArg List.length (Option.some.inj hh)
          simp only [bitsFrom_length, List.length_nil] at this
          omega

theorem bytesAt_append {s : State} {A : List SearchState} (h : ArenaOk s A) (B : List SearchState) (a : Nat)
    (ha : a < A.length) : bytesAt (A ++ B) a = bytesAt A a := by
  induction a using Nat.strongRecOn with
  | ind a ih =>
    obtain ⟨e, he⟩ : ∃ e, A[a]? = some e := ⟨_, List.getElem?_eq_getElem ha⟩
    have he' : (A ++ B)[a]? = some e := by rw [List.getElem?_append_left ha, he]
    rcases Nat.eq_zero_or_pos a with rfl | hpos
    · rw [bytesAt, bytesAt, getD_of_getElem? he, getD_of_getElem? he']
      rw [h.seed] at he
      cases he
      rfl
    · obtain ⟨p, hlt, hp, hd, -⟩ := h.entry a e hpos he
      have hp' : (A ++ B)[e.parent]? = some p := by rw [List.getElem?_append_left (hlt.trans ha), hp]
      rw [bytesAt_parent he hp hd, bytesAt_parent he' hp' hd, ih _ hlt (hlt.trans ha)]

/-- The invariant of the search loop: entries below `h` are done, depths never fall along the arena. -/
structure SearchInv (s : State) (h : Nat) (A : List SearchState) : Prop extends ArenaOk s A where
  headLe : h ≤ A.length
  fits : A.length ≤ s.params.arenaDepth
  sorted : ∀ (i j : Nat) (ei ej : SearchState), i ≤ j → A[i]? = some ei → A[j]? = some ej → ei.depth ≤ ej.depth
  spread : ∀ e : SearchState, A[h]? = some e → ∀ (j : Nat) (ej : SearchState), A[j]? = some ej → ej.depth ≤ e.depth + 1
  done : ∀ (i : Nat) (e : SearchState), i < h → A[i]? = some e → e.pos ≠ s.bitLen.toNat ∧
    ∀ len x, 1 ≤ len → e.pos + len ≤ s.bitLen.toNat → s.matchCode e.pos len = some x →
      ∃ (j : Nat) (e' : SearchState), A[j]? = some e' ∧ e'.pos = e.pos + len ∧ e'.depth = e.depth + 1

theorem SearchInv.start (s : State) (h : 1 ≤ s.params.arenaDepth) : SearchInv s 0 [seedState] := by
  have one : ∀ (i : Nat) e, [seedState][i]? = some e → i = 0 ∧ e = seedState := fun i e he => by
    rcases i with _ | i
    · exact ⟨rfl, by simpa using he.symm⟩
    · simp at he
  refine ⟨⟨rfl, fun a e ha he => ?_⟩, by simp, by simpa using h, fun i j ei ej _ hi hj => ?_, fun e he j ej hj => ?_,
    fun i e hi _ => absurd hi (Nat.not_lt_zero i)⟩
  · exact absurd (one a e he).1 (by omega)
  · rw [(one i ei hi).2, (one j ej hj).2]
  · rw [(one 0 e he).2, (one j ej hj).2]
    exact Nat.le_succ _

section
variable {s : State} {h : Nat} {A : List SearchState} {st : SearchState}

/-- Entries of the arena grown by some of the new states. -/
theorem getElem?_grown {B : List SearchState} (hB : ∀ e ∈ B, e ∈ s.newStates h st (s.prefixLengths st)) {a : Nat}
    {e : SearchState} (he : (A ++ B)[a]? = some e) :
    A[a]? = some e ∨ A.length ≤ a ∧ e ∈ s.newStates h st (s.prefixLengths st) := by
  rcases Nat.lt_or_ge a A.length with ha | ha
  · rw [List.getElem?_append_left ha] at he
    exact .inl he
  · rw [List.getElem?_append_right ha] at he
    exact .inr ⟨ha, hB e (List.mem_of_getElem? he)⟩

theorem ArenaOk.grow (hA : ArenaOk s A) (hst : A[h]? = some st) {B : List SearchState}
    (hB : ∀ e ∈ B, e ∈ s.newStates h st (s.prefixLengths st)) : ArenaOk s (A ++ B) := by
  have hlen : h < A.length := by
    by_contra hh
    rw [List.getElem?_eq_none (by omega)] at hst
    cases hst
  have left : ∀ {a e}, A[a]? = some e → (A ++ B)[a]? = some e := fun {a e} hh => by
    have : a < A.length := by
      by_contra hn
      rw [List.getElem?_eq_none (by omega)] at hh
      cases hh
    rw [List.getElem?_append_left this, hh]
  refine ⟨left hA.seed, fun a e ha he => ?_⟩
  rcases getElem?_grown hB he with he | ⟨hge, hnew⟩
  · obtain ⟨p, h1, h2, h3⟩ := hA.entry a e ha he
    exact ⟨p, h1, left h2, h3⟩
  · obtain ⟨len, hl, x, hx, rfl⟩ := mem_newStates.1 hnew
    obtain ⟨h1, h2, h3⟩ := mem_prefixLengths.1 hl
    refine ⟨st, by simp only; omega, left hst, rfl, by simp only; omega, by simp only; omega, ?_⟩
    simp only [Nat.add_sub_cancel_left]
    exact hx

theorem SearchInv.step (hI : SearchInv s h A) (hst : A[h]? = some st) (hne : st.pos ≠ s.bitLen.toNat)
    (hfit : A.length + (s.newStates h st (s.prefixLengths st)).length ≤ s.params.arenaDepth) :
    SearchInv s (h + 1) (A ++ s.newStates h st (s.prefixLengths st)) := by
  have hlen : h < A.length := by
    by_contra hh
    rw [List.getElem?_eq_none (by omega)] at hst
    cases hst
  have grown := @getElem?_grown s h A st (s.newStates h st (s.prefixLengths st)) (fun _ he => he)
  have newDepth : ∀ e ∈ s.newStates h st (s.prefixLengths st), e.depth = st.depth + 1 := fun e he => by
    obtain ⟨len, -, x, -, rfl⟩ := mem_newStates.1 he
    rfl
  have left : ∀ {a e}, A[a]? = some e → (A ++ s.newStates h st (s.prefixLengths st))[a]? = some e :=
    fun {a e} hh => by
      have : a < A.length := by
        by_contra hn
        rw [List.getElem?_eq_none (by omega)] at hh
        cases hh
      rw [List.getElem?_append_left this, hh]
  refine ⟨hI.toArenaOk.grow hst (fun _ he => he), by simp; omega, by simpa using hfit, ?_, ?_, ?_⟩
  · intro i j ei ej hij hi hj
    rcases grown hi with hi | ⟨hgi, hi⟩
    · rcases grown hj with hj | ⟨hgj, hj⟩
      · exact hI.sorted i j ei ej hij hi hj
      · rw [newDepth ej hj]
        exact hI.spread st hst i ei hi
    · rcases grown hj with hj | ⟨hgj, hj⟩
      · rw [List.getElem?_eq_none (by omega)] at hj
        cases hj
      · rw [newDepth ei hi, newDepth ej hj]
  · intro e he j ej hj
    have hed : st.depth ≤ e.depth := by
      rcases grown he with he | ⟨-, he⟩
      · exact hI.sorted h (h + 1) st e (by omega) hst he
      · rw [newDepth e he]; omega
    rcases grown hj with hj | ⟨-, hj⟩
    · have := hI.spread st hst j ej hj
      omega
    · rw [newDepth ej hj]; omega
  · intro i e hi he
    rcases Nat.lt_or_eq_of_le (Nat.le_of_lt_succ hi) with hi | rfl
    · rcases grown he with he | ⟨hge, -⟩
      · obtain ⟨h1, h2⟩ := hI.done i e hi he
        refine ⟨h1, fun len x hl1 hl2 hm => ?_⟩
        obtain ⟨j, e', h3, h4⟩ := h2 len x hl1 hl2 hm
        exact ⟨j, e', left h3, h4⟩
      · omega
    · rw [left hst] at he
      cases he
      refine ⟨hne, fun len x hl1 hl2 hm => ?_⟩
      have hmem : ({ pos := st.pos + len, parent := i, sym := x, depth := st.depth + 1 } : SearchState) ∈
          s.newStates i st (s.prefixLengths st) :=
        mem_newStates.2 ⟨len, prefixLengths_of_match hl1 hl2 hm, x, hm, rfl⟩
      obtain ⟨j, hj⟩ := List.getElem?_of_mem hmem
      exact ⟨A.length + j, _, by rw [List.getElem?_append_right (by omega), Nat.add_sub_cancel_left]; exact hj, rfl, rfl⟩

end

/-- The three ways the search ends (43_decoder_fsm.md R162). -/
inductive SearchEnd (s : State) (r : SearchResult) : Prop where
  | success (cur : Nat) (e : SearchState) (inv : SearchInv s cur r.arena) (get : r.arena[cur]? = some e)
      (whole : e.pos = s.bitLen.toNat) (code : r.code = .none) (bytes : r.bytes = bytesAt r.arena cur)
  | exhausted (inv : SearchInv s r.arena.length r.arena) (code : r.code = .decodeError) (bytes : r.bytes = [])
  | overflow (inv : ArenaOk s r.arena) (full : r.arena.length = s.params.arenaDepth) (code : r.code = .arenaOverflow)
      (bytes : r.bytes = [])

theorem SearchInv.finish {s : State} (fuel : Nat) {h : Nat} {A : List SearchState} (hI : SearchInv s h A)
    (hf : s.params.arenaDepth + 1 ≤ fuel + h) : SearchEnd s (s.search fuel h A) := by
  induction fuel generalizing h A with
  | zero => have h1 := hI.headLe; have h2 := hI.fits; omega
  | succ fuel ih =>
    rw [State.search]
    cases hst : A[h]? with
    | none =>
      have : h = A.length := Nat.le_antisymm hI.headLe (by rw [List.getElem?_eq_none_iff] at hst; exact hst)
      subst this
      exact .exhausted hI rfl rfl
    | some st =>
      simp only
      split
      · next hw => exact .success h st hI hst hw rfl (by rw [bytesAt, getD_of_getElem? hst])
      · next hne =>
        rw [expand_eq s h st _ A hI.fits]
        split
        · next hres =>
          split at hres
          · cases hres
          · next hno =>
            cases hres
            refine .overflow ?_ ?_ rfl rfl
            · exact hI.toArenaOk.grow hst (fun e he => List.mem_of_mem_take he)
            · have := hI.fits
              simp only [List.length_append, List.length_take]
              omega
        · next hres =>
          split at hres
          · next hfit =>
            cases hres
            exact ih (hI.step hst hne hfit) (by omega)
          · cases hres

/-- How DECODE's search ends, for any legal or larger arena. -/
theorem decodeSearch_end (s : State) (h : 1 ≤ s.params.arenaDepth) : SearchEnd s s.decodeSearch :=
  (SearchInv.start s h).finish _ (by omega)

theorem SearchEnd.arenaOk {s : State} {r : SearchResult} (h : SearchEnd s r) : ArenaOk s r.arena := by
  cases h with
  | success _ _ inv => exact inv.toArenaOk
  | exhausted inv => exact inv.toArenaOk
  | overflow inv => exact inv

theorem SearchEnd.bounds {s : State} {r : SearchResult} (h : SearchEnd s r) :
    1 ≤ r.arena.length ∧ r.arena.length ≤ s.params.arenaDepth ∧ r.bytes.length ≤ s.bitLen.toNat := by
  have h1 : 1 ≤ r.arena.length := by
    have := h.arenaOk.seed
    by_contra hn
    rw [List.getElem?_eq_none (by omega)] at this
    cases this
  refine ⟨h1, ?_⟩
  cases h with
  | success cur e inv get whole code bytes =>
    obtain ⟨hl, -, -, hd, hp⟩ := inv.bytesAt_spec cur get
    exact ⟨inv.fits, by rw [bytes, hl]; omega⟩
  | exhausted inv code bytes => exact ⟨inv.fits, by rw [bytes]; simp⟩
  | overflow inv full code bytes => exact ⟨full.le, by rw [bytes]; simp⟩

/-! ### Full decodings -/

/-- The bits before the end of the first `m` symbols of a full decoding. -/
theorem encodeBytes_take {s : State} {ys : List Symbol} {e : BitString} (h : s.encodeBytes ys = some e) (m : Nat) :
    ∃ f g, s.encodeBytes (ys.take m) = some f ∧ s.encodeBytes (ys.drop m) = some g ∧ e = f ++ g := by
  rw [← List.take_append_drop m ys, encodeBytes_append] at h
  obtain ⟨f, hf, h⟩ := Option.bind_eq_some_iff.1 h
  obtain ⟨g, hg, h⟩ := Option.map_eq_some_iff.1 h
  exact ⟨f, g, hf, hg, h.symm⟩

theorem SearchInv.reaches {s : State} {h : Nat} {A : List SearchState} (hI : SearchInv s h A) {ys : List Symbol}
    (hy : s.FullDecoding ys) (m : Nat) (hm : m ≤ ys.length)
    (hdone : ∀ (a : Nat) (e : SearchState), A[a]? = some e → e.depth < m → a < h) :
    ∃ (a : Nat) (e : SearchState) (f : BitString), A[a]? = some e ∧ e.depth = m ∧ s.encodeBytes (ys.take m) = some f ∧ e.pos = f.length := by
  induction m with
  | zero => exact ⟨0, seedState, [], hI.seed, rfl, by simp [State.encodeBytes], rfl⟩
  | succ m ih =>
    obtain ⟨a, e, f, he, hd, hf, hp⟩ := ih (by omega) (fun a e h1 h2 => hdone a e h1 (by omega))
    have hah := hdone a e he (by omega)
    have hsplit : ys.take (m + 1) = ys.take m ++ [ys[m]] := by rw [List.take_succ_eq_append_getElem (by omega)]
    obtain ⟨f', g, hf', hg, hfg⟩ := encodeBytes_take hy.1 (m + 1)
    have hf'' := hf'
    rw [hsplit, encodeBytes_append, hf, encodeBytes_singleton] at hf'
    obtain ⟨f₀, hf0, hf'⟩ := Option.bind_eq_some_iff.1 hf'
    cases hf0
    obtain ⟨c, hc, rfl⟩ := Option.map_eq_some_iff.1 hf'
    have hlen : s.bitLen.toNat = f.length + c.length + g.length := by
      have := congrArg List.length hfg
      simpa [State.inputBits, Nat.add_assoc] using this
    have hcne : c ≠ [] := fun hh => hy.2 ys[m] (List.getElem_mem _) (hh ▸ hc)
    have hc1 : 1 ≤ c.length := List.length_pos_iff.2 hcne
    have hbits : s.bitsFrom e.pos c.length = c := by
      rw [bitsFrom_eq_drop_take s (n := s.bitLen.toNat) (by omega), hp]
      have hfg' : s.bitsFrom 0 s.bitLen.toNat = f ++ c ++ g := hfg
      rw [hfg', List.append_assoc, List.drop_left, List.take_left]
    obtain ⟨x, hx⟩ := invert_exists hc
    obtain ⟨j, e', h1, h2, h3⟩ := (hI.done a e hah he).2 c.length x hc1 (by omega)
      (by rw [matchCode_eq_invert, hbits]; exact hx)
    exact ⟨j, e', f ++ c, h1, by omega, hf'', by rw [h2, hp, List.length_append]⟩

theorem fullDecoding_length {s : State} {ys : List Symbol} (hy : s.FullDecoding ys) {f : BitString}
    (hf : s.encodeBytes (ys.take ys.length) = some f) : f.length = s.bitLen.toNat := by
  rw [List.take_length, hy.1] at hf
  cases hf
  simp [State.inputBits]

/-- An exhausted worklist means there is no full decoding (43_decoder_fsm.md R162, R164). -/
theorem SearchInv.no_decoding {s : State} {A : List SearchState} (hI : SearchInv s A.length A) (ys : List Symbol) :
    ¬ s.FullDecoding ys := fun hy => by
  have lt : ∀ {a e}, A[a]? = some e → a < A.length := fun {a e} hh => by
    by_contra hn
    rw [List.getElem?_eq_none (by omega)] at hh
    cases hh
  obtain ⟨a, e, f, he, -, hf, hp⟩ := hI.reaches hy ys.length (Nat.le_refl _) (fun a e h1 _ => lt h1)
  exact (hI.done a e (lt he) he).1 (by rw [hp, fullDecoding_length hy hf])

/-- The decoding found has the fewest symbols (43_decoder_fsm.md R164). -/
theorem SearchInv.fewest {s : State} {h : Nat} {A : List SearchState} (hI : SearchInv s h A) {st : SearchState}
    (hst : A[h]? = some st) {ys : List Symbol} (hy : s.FullDecoding ys) : st.depth ≤ ys.length := by
  by_contra hlt
  have before : ∀ (a : Nat) (e : SearchState), A[a]? = some e → e.depth < st.depth → a < h := fun a e he hd => by
    by_contra hge
    have := hI.sorted h a st e (by omega) hst he
    omega
  obtain ⟨a, e, f, he, hd, hf, hp⟩ := hI.reaches hy ys.length (Nat.le_refl _) (fun a e h1 h2 => before a e h1 (by omega))
  exact (hI.done a e (before a e he (by omega)) he).1 (by rw [hp, fullDecoding_length hy hf])

/-! ### Agreement with the source's worklist -/

/-- The source's state (bytes, remaining suffix) of an arena entry (10_state.md R42). -/
def sourceState (s : State) (A : List SearchState) (a : Nat) : List Byte × BitString :=
  (bytesAt A a, s.inputBits.drop (A.getD a seedState).pos)

/-- The source's FIFO worklist: the arena from head to tail (10_state.md R42). -/
def sourceQueue (s : State) (h : Nat) (A : List SearchState) : List (List Byte × BitString) :=
  (List.range' h (A.length - h)).map (sourceState s A)

theorem successors_eq {s : State} {h : Nat} {A : List SearchState} {st : SearchState} (hA : ArenaOk s A)
    (hst : A[h]? = some st) (hle : st.pos ≤ s.bitLen.toNat) :
    s.successors (sourceState s A h) =
      (List.range' A.length (s.newStates h st (s.prefixLengths st)).length).map
        (sourceState s (A ++ s.newStates h st (s.prefixLengths st))) := by
  have hlen : h < A.length := by
    by_contra hh
    rw [List.getElem?_eq_none (by omega)] at hst
    cases hst
  have key : ∀ B : List SearchState, (∀ e ∈ B, ∃ len, e.pos = st.pos + len ∧ e.parent = h ∧ e.depth = st.depth + 1) →
      (List.range' A.length B.length).map (sourceState s (A ++ B)) =
        B.map (fun e => (bytesAt A h ++ [e.sym], s.inputBits.drop e.pos)) := by
    intro B hB
    refine List.ext_getElem (by simp) (fun i hi hi' => ?_)
    have hiB : i < B.length := by simpa using hi
    simp only [List.getElem_map, List.getElem_range', Nat.one_mul]
    have hget : (A ++ B)[A.length + i]? = some B[i] := by
      rw [List.getElem?_append_right (by omega), Nat.add_sub_cancel_left, List.getElem?_eq_getElem hiB]
    obtain ⟨len, h1, h2, h3⟩ := hB B[i] (List.getElem_mem _)
    have hpar : (A ++ B)[B[i].parent]? = some st := by rw [h2, List.getElem?_append_left hlen, hst]
    rw [sourceState, getD_of_getElem? hget, bytesAt_parent hget hpar h3, h2, bytesAt_append hA B h hlen]
  rw [key _ (fun e he => by
    obtain ⟨len, -, x, -, rfl⟩ := mem_newStates.1 he
    exact ⟨len, rfl, rfl, rfl⟩)]
  have hlenB : (s.inputBits.drop st.pos).length = s.bitLen.toNat - st.pos := by simp [State.inputBits]
  simp only [State.successors, sourceState, getD_of_getElem? hst, hlenB, State.newStates, State.prefixLengths,
    List.map_filterMap]
  refine List.filterMap_congr (fun len hl => ?_)
  have hl' := List.mem_range'_1.1 hl
  rw [matchCode_eq_invert, bitsFrom_eq_drop_take s (n := s.bitLen.toNat) (by omega), State.inputBits]
  simp only [Option.map_map]
  refine congrArg (fun f => Option.map f _) (funext fun x => ?_)
  simp [List.drop_drop]

theorem sourceQueue_step {s : State} {h : Nat} {A : List SearchState} {st : SearchState} (hA : ArenaOk s A)
    (hst : A[h]? = some st) (hle : st.pos ≤ s.bitLen.toNat) :
    ∃ q, sourceQueue s h A = sourceState s A h :: q ∧
      q ++ s.successors (sourceState s A h) = sourceQueue s (h + 1) (A ++ s.newStates h st (s.prefixLengths st)) := by
  have hlen : h < A.length := by
    by_contra hh
    rw [List.getElem?_eq_none (by omega)] at hst
    cases hst
  refine ⟨(List.range' (h + 1) (A.length - h - 1)).map (sourceState s A), ?_, ?_⟩
  · rw [sourceQueue, show A.length - h = A.length - h - 1 + 1 by omega, List.range'_succ, List.map_cons,
      Nat.add_sub_cancel]
  · rw [successors_eq hA hst hle, sourceQueue, List.length_append,
      show A.length + (s.newStates h st (s.prefixLengths st)).length - (h + 1) =
        (A.length - h - 1) + (s.newStates h st (s.prefixLengths st)).length by omega,
      ← List.range'_append_1, List.map_append, show h + 1 + (A.length - h - 1) = A.length by omega]
    congr 1
    refine List.map_congr_left (fun a ha => ?_)
    have hal : a < A.length := by have := List.mem_range'_1.1 ha; omega
    rw [sourceState, sourceState, bytesAt_append hA _ a hal]
    congr 3
    simp [List.getD, List.getElem?_append_left hal]

/-- Without an overflow the search gives exactly the source's result (43_decoder_fsm.md R164). -/
theorem SearchInv.source {s : State} (fuel : Nat) {h : Nat} {A : List SearchState} (hI : SearchInv s h A)
    (hf : s.params.arenaDepth + 1 ≤ fuel + h) (hno : (s.search fuel h A).code ≠ .arenaOverflow) :
    s.sourceDecode fuel (sourceQueue s h A) =
      some (if (s.search fuel h A).code = .none then some (s.search fuel h A).bytes else none) := by
  induction fuel generalizing h A with
  | zero => have h1 := hI.headLe; have h2 := hI.fits; omega
  | succ fuel ih =>
    rw [State.search] at hno ⊢
    cases hst : A[h]? with
    | none =>
      have : h = A.length := Nat.le_antisymm hI.headLe (by rw [List.getElem?_eq_none_iff] at hst; exact hst)
      subst this
      simp [sourceQueue, State.sourceDecode]
    | some st =>
      have hle : st.pos ≤ s.bitLen.toNat := (hI.bytesAt_spec h hst).2.2.2.2
      obtain ⟨q, hq, hnext⟩ := sourceQueue_step hI.toArenaOk hst hle
      rw [hq, State.sourceDecode]
      rw [hst] at hno
      have hsuf : (sourceState s A h).2 = [] ↔ st.pos = s.bitLen.toNat := by
        rw [sourceState, getD_of_getElem? hst, List.drop_eq_nil_iff]
        simp only [State.inputBits, bitsFrom_length]
        omega
      simp only at hno ⊢
      by_cases hw : st.pos = s.bitLen.toNat
      · rw [if_pos (hsuf.2 hw), if_pos hw]
        simp [sourceState, bytesAt, hst]
      · rw [if_neg (fun hh => hw (hsuf.1 hh)), if_neg hw]
        rw [if_neg hw] at hno
        rw [expand_eq s h st _ A hI.fits] at hno ⊢
        by_cases hfit : A.length + (s.newStates h st (s.prefixLengths st)).length ≤ s.params.arenaDepth
        · rw [if_pos hfit] at hno ⊢
          simp only at hno ⊢
          rw [hnext]
          exact ih (hI.step hst hw hfit) (by omega) hno
        · rw [if_neg hfit] at hno
          exact absurd rfl hno

/-! ### How many states the source's search creates -/

/-- The suffixes a state enqueues are shorter, each length once, so their weights 2 ^ length sum to less than its own. -/
theorem successors_weight (s : State) (st : List Byte × BitString) (h : st.2 ≠ []) :
    ((s.successors st).map (fun p => 2 ^ p.2.length)).sum < 2 ^ st.2.length := by
  have pos : 0 < st.2.length := List.length_pos_iff.2 h
  have key : ∀ m, m ≤ st.2.length →
      (((List.range' 1 m).filterMap (fun len => (s.invert (st.2.take len)).map
        (fun x => (st.1 ++ [x], st.2.drop len)))).map (fun p => 2 ^ p.2.length)).sum + 2 ^ (st.2.length - m) ≤
          2 ^ st.2.length := by
    intro m
    induction m with
    | zero => simp
    | succ m ih =>
      intro hm
      have h1 := ih (by omega)
      have h0 := Nat.two_pow_pos (st.2.length - (m + 1))
      have h2 : 2 ^ (st.2.length - m) = 2 ^ (st.2.length - (m + 1)) + 2 ^ (st.2.length - (m + 1)) := by
        rw [show st.2.length - m = st.2.length - (m + 1) + 1 by omega, Nat.pow_succ]; omega
      rw [List.range'_concat, Nat.one_mul, List.filterMap_append, List.map_append, List.sum_append]
      cases hx : s.invert (st.2.take (1 + m)) with
      | none => simp only [List.filterMap_cons, hx, Option.map_none, List.filterMap_nil, List.map_nil, List.sum_nil]; omega
      | some x =>
        simp only [List.filterMap_cons, hx, Option.map_some, List.filterMap_nil, List.map_cons, List.map_nil,
          List.sum_cons, List.sum_nil, List.length_drop, show st.2.length - (1 + m) = st.2.length - (m + 1) by omega]
        omega
  rw [State.successors]
  exact Nat.lt_of_lt_of_le (Nat.lt_add_of_pos_right (Nat.two_pow_pos _)) (key _ (Nat.min_le_right _ _))

/-- The source's search ends, so the number of states it creates is defined (43_decoder_fsm.md R165). -/
theorem statesCreated_ends (s : State) (fuel : Nat) (q : List (List Byte × BitString))
    (h : (q.map (fun p => 2 ^ p.2.length)).sum < fuel) : ∃ n, s.statesCreated fuel q = some n := by
  induction fuel generalizing q with
  | zero => omega
  | succ fuel ih =>
    cases q with
    | nil => exact ⟨0, rfl⟩
    | cons st q =>
      rw [State.statesCreated]
      split
      · exact ⟨0, rfl⟩
      · next hne =>
        have hw := successors_weight s st hne
        obtain ⟨n, hn⟩ := ih (q ++ s.successors st) (by
          rw [List.map_append, List.sum_append]
          rw [List.map_cons, List.sum_cons] at h
          omega)
        exact ⟨_, by rw [hn]; rfl⟩

/-- The arena's count against the source's: the search overflows exactly when the source creates more states than the arena
holds, and else creates as many (43_decoder_fsm.md R162, R168). -/
theorem SearchInv.created {s : State} (fuel : Nat) {h : Nat} {A : List SearchState} (hI : SearchInv s h A)
    (hf : s.params.arenaDepth + 1 ≤ fuel + h) : ∃ f n, s.statesCreated f (sourceQueue s h A) = some n ∧
      ((s.search fuel h A).code = .arenaOverflow ↔ s.params.arenaDepth < A.length + n) ∧
      ((s.search fuel h A).code ≠ .arenaOverflow → (s.search fuel h A).arena.length = A.length + n) := by
  induction fuel generalizing h A with
  | zero => have h1 := hI.headLe; have h2 := hI.fits; omega
  | succ fuel ih =>
    have hfits := hI.fits
    rw [State.search]
    cases hst : A[h]? with
    | none =>
      have : h = A.length := Nat.le_antisymm hI.headLe (by rw [List.getElem?_eq_none_iff] at hst; exact hst)
      subst this
      exact ⟨1, 0, by simp [sourceQueue, State.statesCreated], by simpa using hfits, by simp⟩
    | some st =>
      have hle : st.pos ≤ s.bitLen.toNat := (hI.bytesAt_spec h hst).2.2.2.2
      obtain ⟨q, hq, hnext⟩ := sourceQueue_step hI.toArenaOk hst hle
      have hsuf : (sourceState s A h).2 = [] ↔ st.pos = s.bitLen.toNat := by
        rw [sourceState, getD_of_getElem? hst, List.drop_eq_nil_iff]
        simp only [State.inputBits, bitsFrom_length]
        omega
      simp only
      rw [hq]
      by_cases hw : st.pos = s.bitLen.toNat
      · rw [if_pos hw]
        exact ⟨1, 0, by rw [State.statesCreated, if_pos (hsuf.2 hw)], by simpa using hfits, by simp⟩
      · rw [if_neg hw, expand_eq s h st _ A hfits]
        have hcount : (s.successors (sourceState s A h)).length = (s.newStates h st (s.prefixLengths st)).length := by
          rw [successors_eq hI.toArenaOk hst hle]; simp
        have grow : ∀ {f n}, s.statesCreated f (q ++ s.successors (sourceState s A h)) = some n →
            s.statesCreated (f + 1) (sourceState s A h :: q) =
              some (n + (s.newStates h st (s.prefixLengths st)).length) := fun {f n} hn => by
          rw [State.statesCreated, if_neg (fun hh => hw (hsuf.1 hh)), hn, ← hcount]; rfl
        by_cases hfit : A.length + (s.newStates h st (s.prefixLengths st)).length ≤ s.params.arenaDepth
        · rw [if_pos hfit]
          obtain ⟨f, n, hn, hover, hlen⟩ := ih (hI.step hst hw hfit) (by omega)
          rw [List.length_append] at hover hlen
          refine ⟨f + 1, _, grow (hnext ▸ hn), ?_, fun hh => ?_⟩
          · rw [hover]; omega
          · rw [hlen hh]; omega
        · rw [if_neg hfit]
          obtain ⟨n, hn⟩ := statesCreated_ends s _ (q ++ s.successors (sourceState s A h)) (Nat.lt_succ_self _)
          exact ⟨_, _, grow hn, by simp only [true_iff]; omega, by simp⟩

/-! ### The table is read through its entries alone -/

section
variable {s s' : State} (hp : s'.params = s.params) (hl : s'.bitLen = s.bitLen) (hb : ∀ j, s'.bit j = s.bit j)
  (hc : ∀ x, s'.code x = s.code x)
include hc

theorem maxLen_code_congr : s'.maxLen = s.maxLen := by simp only [State.maxLen, hc]

include hb in
theorem matchCode_code_congr (pos len : Nat) : s'.matchCode pos len = s.matchCode pos len := by
  simp only [State.matchCode, State.bitsFrom, hc, hb]

include hp hb in
theorem expand_code_congr (cur : Nat) (st : SearchState) (lens : List Nat) (A : List SearchState) :
    s'.expand cur st lens A = s.expand cur st lens A := by
  induction lens generalizing A with
  | nil => rfl
  | cons len lens ih => simp only [State.expand, matchCode_code_congr hb hc, hp, ih]

include hp hl hb in
/-- DECODE's search sees the table's entries and not how they are listed (10_state.md R39). -/
theorem search_code_congr (fuel h : Nat) (A : List SearchState) : s'.search fuel h A = s.search fuel h A := by
  induction fuel generalizing h A with
  | zero => rfl
  | succ fuel ih =>
    simp only [State.search, State.prefixLengths, expand_code_congr hp hb hc, maxLen_code_congr hc, hl, ih]

end

/-! ### Prefix-free tables -/

/-- With a prefix-free table the states form one chain (43_decoder_fsm.md R166). -/
structure ChainInv (h : Nat) (A : List SearchState) : Prop where
  single : A.length ≤ h + 1
  index : ∀ (i : Nat) (e : SearchState), A[i]? = some e → e.depth = i ∧ i ≤ e.pos

theorem newStates_le_one {s : State} (hp : s.PrefixFree) (cur : Nat) (st : SearchState) :
    (s.newStates cur st (s.prefixLengths st)).length ≤ 1 := by
  have uniq : ∀ a b x y, 1 ≤ a → a < b → s.matchCode st.pos a = some x → s.matchCode st.pos b = some y → False := by
    intro a b x y ha hab hx hy
    have hcx := (invert_eq_some (c := s.bitsFrom st.pos a) hx).1
    have hcy := (invert_eq_some (c := s.bitsFrom st.pos b) hy).1
    have lenx : (s.bitsFrom st.pos a).length = a := bitsFrom_length _ _ _
    have leny : (s.bitsFrom st.pos b).length = b := bitsFrom_length _ _ _
    have hne : x ≠ y := fun hh => by
      rw [hh, hcy] at hcx
      have := congrArg List.length (Option.some.inj hcx)
      omega
    refine hp x y _ _ hcx hcy (fun hh => ?_) (fun hh => ?_) hne ?_
    · rw [hh] at lenx; simp at lenx; omega
    · rw [hh] at leny; simp at leny; omega
    · obtain ⟨d, rfl⟩ := Nat.exists_eq_add_of_lt hab
      rw [show a + d + 1 = a + (d + 1) by omega, bitsFrom_add]
      exact List.prefix_append _ _
  have sub : ∀ l : List Nat, l.Pairwise (· < ·) → (∀ a ∈ l, 1 ≤ a) → (s.newStates cur st l).length ≤ 1 := by
    intro l hl h1
    induction l with
    | nil => simp [State.newStates]
    | cons a l ih =>
      have hc := List.pairwise_cons.1 hl
      cases hm : s.matchCode st.pos a with
      | none =>
        have e : s.newStates cur st (a :: l) = s.newStates cur st l := by simp [State.newStates, hm]
        rw [e]
        exact ih hc.2 (fun b hb => h1 b (List.mem_cons_of_mem _ hb))
      | some x =>
        have e : s.newStates cur st l = [] := by
          rw [List.eq_nil_iff_forall_not_mem]
          intro e he
          obtain ⟨b, hb, y, hy, -⟩ := mem_newStates.1 he
          exact uniq a b x y (h1 a List.mem_cons_self) (hc.1 b hb) hm hy
        have e' : s.newStates cur st (a :: l) =
            { pos := st.pos + a, parent := cur, sym := x, depth := st.depth + 1 } :: s.newStates cur st l := by
          simp [State.newStates, hm]
        rw [e', e]
        simp
  exact sub _ List.pairwise_lt_range' (fun a ha => (mem_prefixLengths.1 ha).1)

theorem ChainInv.step {s : State} {h : Nat} {A : List SearchState} {st : SearchState} (hC : ChainInv h A)
    (hst : A[h]? = some st) (hp : s.PrefixFree) : ChainInv (h + 1) (A ++ s.newStates h st (s.prefixLengths st)) := by
  have hlen : h < A.length := by
    by_contra hh
    rw [List.getElem?_eq_none (by omega)] at hst
    cases hst
  have h1 := newStates_le_one hp h st
  have hs := hC.single
  refine ⟨by rw [List.length_append]; omega, fun i e he => ?_⟩
  rcases getElem?_grown (s := s) (h := h) (st := st) (fun _ he => he) he with he' | ⟨hge, hnew⟩
  · exact hC.index i e he'
  · obtain ⟨len, hl, x, -, rfl⟩ := mem_newStates.1 hnew
    have hl1 := (mem_prefixLengths.1 hl).1
    have hlt : i < (A ++ s.newStates h st (s.prefixLengths st)).length := by
      by_contra hn
      rw [List.getElem?_eq_none (by omega)] at he
      cases he
    rw [List.length_append] at hlt
    have hi := hC.index h st hst
    simp only
    omega

/-- With a prefix-free table the arena never overflows, and a decoding of n symbols uses n + 1 entries
(43_decoder_fsm.md R166, R167). -/
theorem SearchInv.chain {s : State} (hp : s.PrefixFree) (hd : s.bitLen.toNat + 1 ≤ s.params.arenaDepth) (fuel : Nat)
    {h : Nat} {A : List SearchState} (hI : SearchInv s h A) (hC : ChainInv h A)
    (hf : s.params.arenaDepth + 1 ≤ fuel + h) :
    (s.search fuel h A).code ≠ .arenaOverflow ∧ (s.search fuel h A).arena.length ≤ s.bitLen.toNat + 1 ∧
      ((s.search fuel h A).code = .none → (s.search fuel h A).arena.length = (s.search fuel h A).bytes.length + 1) := by
  have small : ∀ {h A}, SearchInv s h A → ChainInv h A → A.length ≤ s.bitLen.toNat + 1 := fun {h A} hI hC => by
    rcases Nat.eq_zero_or_pos A.length with h0 | hpos
    · omega
    · have hg : A[A.length - 1]? = some A[A.length - 1] := List.getElem?_eq_getElem (by omega)
      have h1 := (hC.index _ _ hg).2
      have h2 := (hI.bytesAt_spec _ hg).2.2.2.2
      omega
  induction fuel generalizing h A with
  | zero => have h1 := hI.headLe; have h2 := hI.fits; omega
  | succ fuel ih =>
    have hsm := small hI hC
    rw [State.search]
    cases hst : A[h]? with
    | none => exact ⟨by simp, hsm, by simp⟩
    | some st =>
      have hlen : h < A.length := by
        by_contra hh
        rw [List.getElem?_eq_none (by omega)] at hst
        cases hst
      simp only
      split
      · refine ⟨by simp, hsm, fun _ => ?_⟩
        have hb := (hI.bytesAt_spec h hst).1
        rw [bytesAt, getD_of_getElem? hst] at hb
        have := hC.single
        have hi := (hC.index h st hst).1
        simp only [hb]
        omega
      · next hne =>
        have hfit : A.length + (s.newStates h st (s.prefixLengths st)).length ≤ s.params.arenaDepth := by
          rcases Nat.eq_zero_or_pos (s.newStates h st (s.prefixLengths st)).length with h0 | hpos
          · rw [h0]; exact hI.fits
          · obtain ⟨e, he⟩ := List.exists_mem_of_length_pos hpos
            obtain ⟨len, hl, -⟩ := mem_newStates.1 he
            have hl' := mem_prefixLengths.1 hl
            have hi := (hC.index h st hst).2
            have h1 := newStates_le_one hp h st
            have h2 := hC.single
            omega
        rw [expand_eq s h st _ A hI.fits, if_pos hfit]
        exact ih (hI.step hst hne hfit) (hC.step hst hp) (by omega)

theorem ChainInv.start : ChainInv 0 [seedState] := by
  refine ⟨by simp, fun i e he => ?_⟩
  rcases i with _ | i
  · exact ⟨by simp at he; rw [← he]; rfl, Nat.zero_le _⟩
  · simp at he

/-- With a prefix-free table a bit sequence has at most one full decoding. -/
theorem fullDecoding_unique {s : State} (hp : s.PrefixFree) {xs ys : List Symbol} {e : BitString}
    (hx : s.encodeBytes xs = some e) (hy : s.encodeBytes ys = some e) (hxn : ∀ x ∈ xs, s.code x ≠ some [])
    (hyn : ∀ y ∈ ys, s.code y ≠ some []) : xs = ys := by
  have cons : ∀ {z : Symbol} {zs : List Symbol} {e : BitString}, s.encodeBytes (z :: zs) = some e →
      ∃ c f, s.code z = some c ∧ s.encodeBytes zs = some f ∧ e = c ++ f := fun {z zs e} h => by
    rw [State.encodeBytes] at h
    cases hc : s.code z with
    | none => simp [hc] at h
    | some c =>
      cases hf : s.encodeBytes zs with
      | none => simp [hc, hf] at h
      | some f =>
        simp only [hc, hf, Option.some.injEq] at h
        exact ⟨c, f, rfl, rfl, h.symm⟩
  induction xs generalizing ys e with
  | nil =>
    cases ys with
    | nil => rfl
    | cons y ys =>
      obtain ⟨c, f, hc, -, he⟩ := cons hy
      simp only [State.encodeBytes, Option.some.injEq] at hx
      rw [← hx] at he
      exact absurd (by rw [hc, (List.append_eq_nil_iff.1 he.symm).1]) (hyn y List.mem_cons_self)
  | cons x xs ih =>
    obtain ⟨c, f, hc, hf, rfl⟩ := cons hx
    cases ys with
    | nil =>
      simp only [State.encodeBytes, Option.some.injEq] at hy
      exact absurd (by rw [hc, (List.append_eq_nil_iff.1 hy.symm).1]) (hxn x List.mem_cons_self)
    | cons y ys =>
      obtain ⟨d, g, hd, hg, he⟩ := cons hy
      have hcn : c ≠ [] := fun hh => hxn x List.mem_cons_self (hh ▸ hc)
      have hdn : d ≠ [] := fun hh => hyn y List.mem_cons_self (hh ▸ hd)
      have hxy : x = y := by
        by_contra hne
        rcases List.prefix_or_prefix_of_prefix (List.prefix_append c f) (he ▸ List.prefix_append d g) with h | h
        · exact hp x y c d hc hd hcn hdn hne h
        · exact hp y x d c hd hc hdn hcn (Ne.symm hne) h
      subst hxy
      rw [hc] at hd
      cases hd
      have hfg := List.append_cancel_left he
      subst hfg
      rw [ih hf hg (fun z hz => hxn z (List.mem_cons_of_mem _ hz)) (fun z hz => hyn z (List.mem_cons_of_mem _ hz))]

end Sys2Proof.Machine
end

