-- ==== Sys2Proof/Laws/Invariant.lean ====
section
/-! SUPPORT. The invariant of Safety.lean under each operation of the block, and what GEN_TABLE and DECODE leave in the
stores they write. -/

namespace Sys2Proof.Machine

/-- The tree invariants see LW, IN, TREE and the reset number alone. -/
theorem State.TreeOk.congr {s t : State} (h : s.TreeOk) (hl : t.lw = s.lw) (hn : t.nodes = s.nodes)
    (ht : t.tree = s.tree) (hr : t.resets = s.resets) : t.TreeOk := by
  have hleaf : ∀ x, t.leafWeight x = s.leafWeight x := leafWeight_congr hl hr
  have hnode : ∀ k, t.node k = s.node k := node_congr hn hr
  have hnw : ∀ id, t.nodeWeight id = s.nodeWeight id := nodeWeight_congr hl hn hr
  have hin : ∀ id, t.inTree id = s.inTree id := fun id => by simp only [State.inTree, hleaf, ht]
  have hch : t.children = s.children := by simp only [State.children, hnode, ht]
  exact
    { leavesWritten := by rw [hl]; exact h.leavesWritten
      nodesWritten := by rw [hn, ht]; exact h.nodesWritten
      root := by rw [ht]; exact h.root
      rootIn := by rw [ht, hin]; exact h.rootIn
      weights := by simp only [ht, hnode, hnw]; exact h.weights
      childBefore := by simp only [ht, hnode, hin]; exact h.childBefore
      oneParent := by simp only [ht, hin, hch]; exact h.oneParent
      nodeCount := by simp only [ht, hleaf]; exact h.nodeCount
      rootWeight := by simp only [ht, hnw, hleaf]; exact h.rootWeight }

namespace State.Inv

variable {s : State}

/-- The registers, the flags and the environment are free in the invariant. -/
theorem control (h : s.Inv) (c : Ctrl) (st : Status) (a0 r0 r1 : Word) (cs co : Vector Word 8) (p : Word)
    (pr : List HostStmt) (rd : List Word) (tu : List Turn) (dr : Nat) :
    { s with
      ctrl := c, status := st, arg0 := a0, res0 := r0, res1 := r1, codeStage := cs, codeOut := co, pend := p, prog := pr,
      reads := rd, turns := tu, draws := dr }.Inv :=
  { params := h.params
    stores := ⟨h.stores.w, h.stores.lw, h.stores.nodes, h.stores.table, h.stores.bits, h.stores.out, h.stores.arena⟩
    lengths := ⟨h.lengths.bitLen, h.lengths.outLen, h.lengths.arenaUsed⟩
    buffers := ⟨h.buffers.bits, h.buffers.out⟩
    codes := h.codes
    noTree := h.noTree
    tree := fun hv => (h.tree hv).congr rfl rfl rfl rfl }

theorem finish (h : s.Inv) (code : ErrCode) : (s.finish code).Inv :=
  h.control s.ctrl _ s.arg0 s.res0 s.res1 s.codeStage s.codeOut s.pend s.prog s.reads s.turns s.draws

theorem legal (h : s.Inv) : s.params.bitbufBits % 32 = 0 ∧ 32 ≤ s.params.bitbufBits ∧ s.params.bitbufBits ≤ 32768 ∧
    s.params.bitbufBits + 1 ≤ s.params.arenaDepth ∧ s.params.arenaDepth ≤ 2 ^ 20 := by
  have := h.params
  simp only [Params.legal, Bool.and_eq_true, beq_iff_eq, decide_eq_true_eq] at this
  omega

/-- W is free in the invariant but for its form. -/
theorem weights (h : s.Inv) {w : Memory Word} (hw : w.wf ∧ w.below 256) : { s with w := w }.Inv :=
  { params := h.params
    stores := ⟨hw, h.stores.lw, h.stores.nodes, h.stores.table, h.stores.bits, h.stores.out, h.stores.arena⟩
    lengths := ⟨h.lengths.bitLen, h.lengths.outLen, h.lengths.arenaUsed⟩
    buffers := ⟨h.buffers.bits, h.buffers.out⟩
    codes := h.codes
    noTree := h.noTree
    tree := fun hv => (h.tree hv).congr rfl rfl rfl rfl }

/-- The ROM may take any well-formed table whose codes fit. -/
theorem table (h : s.Inv) {t : Memory BitString} (ht : t.wf ∧ t.below 256)
    (hc : ∀ (x : Symbol) c, t.read x.toNat = some c → c.length ≤ 255) : { s with table := t }.Inv :=
  { params := h.params
    stores := ⟨h.stores.w, h.stores.lw, h.stores.nodes, ht, h.stores.bits, h.stores.out, h.stores.arena⟩
    lengths := ⟨h.lengths.bitLen, h.lengths.outLen, h.lengths.arenaUsed⟩
    buffers := ⟨h.buffers.bits, h.buffers.out⟩
    codes := hc
    noTree := h.noTree
    tree := fun hv => (h.tree hv).congr rfl rfl rfl rfl }

/-- The input buffer may take any well-formed contents, written below its length. -/
theorem inputBuffer (h : s.Inv) {b : Memory Bool} {n : BitVec 16} (hb : b.wf ∧ b.below s.params.bitbufBits)
    (hn : n.toNat ≤ s.params.bitbufBits) (hw : ∀ j, j < n.toNat → (b.read j).isSome = true) :
    { s with bits := b, bitLen := n }.Inv :=
  { params := h.params
    stores := ⟨h.stores.w, h.stores.lw, h.stores.nodes, h.stores.table, hb, h.stores.out, h.stores.arena⟩
    lengths := ⟨hn, h.lengths.outLen, h.lengths.arenaUsed⟩
    buffers := ⟨hw, h.buffers.out⟩
    codes := h.codes
    noTree := h.noTree
    tree := fun hv => (h.tree hv).congr rfl rfl rfl rfl }

end State.Inv

/-! ### Each command -/

theorem clearedWeights_wf : Memory.wf ((List.range 256).map (fun k => (k, (0 : Word)))) ∧
    Memory.below ((List.range 256).map (fun k => (k, (0 : Word)))) 256 := by
  refine ⟨?_, fun p hp => ?_⟩
  · rw [Memory.wf, List.pairwise_map]
    exact List.pairwise_lt_range
  · obtain ⟨k, hk, rfl⟩ := List.mem_map.1 hp
    exact List.mem_range.1 hk

theorem weight_cleared (s : State) (x : Symbol) :
    ({ s with w := (List.range 256).map (fun k => (k, 0)) } : State).weight x = 0 := by
  have := Memory.read_map_of_mem (List.range 256) id (fun _ => (0 : Word)) Function.injective_id (b := x.toNat)
    (List.mem_range.2 x.isLt)
  simp only [id] at this
  simp only [State.weight, this]
  rfl

/-- Reading a weight after writing one (20_memory.md R64). -/
theorem weight_setWeight (s : State) (x y : Symbol) (v : Word) :
    (s.setWeight x v).weight y = if y = x then v else s.weight y := by
  simp only [State.weight, State.setWeight, Memory.read_write]
  by_cases h : y = x
  · rw [if_pos h, if_pos (by rw [h])]
    rfl
  · rw [if_neg h, if_neg (fun e => h (BitVec.eq_of_toNat_eq e.symm))]

theorem snapshot_wf (s : State) : s.snapshotWeights.lw.wf ∧ s.snapshotWeights.lw.below 256 := by
  refine ⟨?_, fun p hp => ?_⟩
  · exact List.pairwise_map.2 allSymbols_rising
  · obtain ⟨x, -, rfl⟩ := List.mem_map.1 hp
    exact x.isLt

namespace State.Inv

variable {s : State}

theorem buildTree (h : s.Inv) : s.buildTree.1.Inv := by
  by_cases he : s.initialList = []
  · rw [State.buildTree, if_pos he]
    exact
      { params := h.params
        stores := ⟨h.stores.w, snapshot_wf s, h.stores.nodes, h.stores.table, h.stores.bits, h.stores.out,
          h.stores.arena⟩
        lengths := ⟨h.lengths.bitLen, h.lengths.outLen, h.lengths.arenaUsed⟩
        buffers := ⟨h.buffers.bits, h.buffers.out⟩
        codes := h.codes
        noTree := fun _ => ⟨rfl, rfl⟩
        tree := fun hv => Bool.noConfusion hv }
  · obtain ⟨t, hb, hv, hok, -, hfr, hlw, hnodes, -⟩ := buildTree_spec s he
    rw [hb]
    simp only
    have hst : t.lw.wf ∧ t.lw.below 256 := by rw [hlw]; exact snapshot_wf s
    have hnd := hnodes h.stores.nodes
    revert hv hok hst hnd
    rw [hfr]
    intro hv hok hst hnd
    exact
      { params := h.params
        stores := ⟨h.stores.w, hst, hnd, h.stores.table, h.stores.bits, h.stores.out, h.stores.arena⟩
        lengths := ⟨h.lengths.bitLen, h.lengths.outLen, h.lengths.arenaUsed⟩
        buffers := ⟨h.buffers.bits, h.buffers.out⟩
        codes := h.codes
        noTree := fun hf => by rw [hv] at hf; cases hf
        tree := fun _ => hok }

end State.Inv

/-! ### The generated table -/

/-- The table GEN_TABLE leaves, symbol by symbol (42_code_table_rom.md R142). -/
theorem generatedTable_spec {s : State} (ok : s.TreeOk) (x : Symbol) (c : BitString) :
    s.generatedTable.read x.toNat = some c ↔
      if s.tree.nodeCount = 0 ∧ s.ctrl.degen1bit = true then leafId x = s.tree.root ∧ c = [false]
      else s.walk s.tree.root c = some (leafId x) := by
  rw [State.generatedTable]
  split
  · next h =>
    have hl := ok.root_leaf_iff.2 h.1
    rw [Memory.read_write]
    split
    · next hx =>
      have : leafId x = s.tree.root := by
        rw [← leafId_leafSymbol hl]
        exact congrArg leafId (BitVec.eq_of_toNat_eq hx.symm)
      simp [this, eq_comm]
    · next hx =>
      have hne : leafId x ≠ s.tree.root := fun hh => hx (by rw [← hh, leafSymbol_leafId])
      rw [(genLoop_spec ok).1 x c]
      simp only [hne, false_and, iff_false]
      cases c with
      | nil => simpa [State.walk] using hne.symm
      | cons b c => simp [State.walk, hl]
  · exact (genLoop_spec ok).1 x c

theorem generatedTable_wf {s : State} (ok : s.TreeOk) : s.generatedTable.wf ∧ s.generatedTable.below 256 := by
  have h := (genLoop_spec ok).2
  rw [State.generatedTable]
  split
  · exact ⟨Memory.wf_write h.1 _ _, Memory.below_write h.2 (leafSymbol s.tree.root).isLt _⟩
  · exact h

/-- A leaf of nonzero weight has an entry, and no other symbol has one (42_code_table_rom.md R142). -/
theorem generatedTable_valid {s : State} (ok : s.TreeOk) (x : Symbol) :
    (s.generatedTable.read x.toNat).isSome = true ↔ s.leafWeight x ≠ 0 := by
  rw [State.generatedTable]
  split
  · next h =>
    have hl := ok.root_leaf_iff.2 h.1
    rw [Memory.read_write]
    split
    · next hx =>
      have hi := ok.rootIn
      rw [State.inTree, if_pos hl] at hi
      rw [show x = leafSymbol s.tree.root from BitVec.eq_of_toNat_eq hx.symm]
      simpa using hi
    · exact genLoop_valid ok x
  · exact genLoop_valid ok x

theorem generatedTable_length {s : State} (ok : s.TreeOk) {x : Symbol} {c : BitString}
    (h : s.generatedTable.read x.toNat = some c) : c.length ≤ 255 := by
  have hlt : s.tree.nodeCount.toNat < 256 := s.tree.nodeCount.isLt
  have := (generatedTable_spec ok x c).1 h
  split at this
  · rw [this.2]; simp
  · have := (ok.leaf_path_length this).1
    omega

/-- Every generated table is prefix-free (42_code_table_rom.md R143). -/
theorem generatedTable_prefixFree {s : State} (ok : s.TreeOk) {x y : Symbol} {c d : BitString}
    (hc : s.generatedTable.read x.toNat = some c) (hd : s.generatedTable.read y.toNat = some d) (hne : x ≠ y) :
    ¬ c <+: d := by
  have h1 := (generatedTable_spec ok x c).1 hc
  have h2 := (generatedTable_spec ok y d).1 hd
  split at h1
  · next h =>
    rw [if_pos h] at h2
    exact absurd (leafId_injective (h1.1.trans h2.1.symm)) hne
  · next h =>
    rw [if_neg h] at h2
    exact leaf_paths_prefixFree h1 h2 hne

/-! ### DECODE's stores -/

theorem outputBytes_commit (s : State) (r : SearchResult) (h : r.bytes.length < 2 ^ 16) :
    (s.commitSearch r).outputBytes = r.bytes := by
  have hl : (s.commitSearch r).outLen.toNat = r.bytes.length := by
    show (BitVec.ofNat 16 r.bytes.length).toNat = _
    rw [BitVec.toNat_ofNat, Nat.mod_eq_of_lt h]
  rw [State.outputBytes, hl]
  refine List.ext_getElem (by simp) (fun i h1 h2 => ?_)
  simp only [List.getElem_map, List.getElem_range]
  have hr := Memory.read_writeRun_inside s.out 0 r.bytes h2
  rw [Nat.zero_add] at hr
  show ((s.out.writeRun 0 r.bytes).read i).getD _ = _
  rw [hr]
  rfl

/-- A stored arena entry reads back as the search state it was made from. -/
theorem arena_commit (s : State) (r : SearchResult) {a : Nat} (h : a < r.arena.length) :
    (s.commitSearch r).arena.read a = some r.arena[a].entry := by
  have hr := Memory.read_writeRun_inside s.arena 0 (r.arena.map SearchState.entry) (i := a) (by simpa using h)
  rw [Nat.zero_add] at hr
  show (s.arena.writeRun 0 (r.arena.map SearchState.entry)).read a = _
  rw [hr]
  simp

namespace State.Inv

variable {s : State}

theorem searchEnd (h : s.Inv) : SearchEnd s s.decodeSearch :=
  decodeSearch_end s (by have := h.legal; omega)

theorem commitSearch (h : s.Inv) : (s.commitSearch s.decodeSearch).Inv := by
  have hl := h.legal
  have hb := h.searchEnd.bounds
  have hbit := h.lengths.bitLen
  generalize s.decodeSearch = r at hb ⊢
  have ho : (BitVec.ofNat 16 r.bytes.length).toNat = r.bytes.length := by
    rw [BitVec.toNat_ofNat, Nat.mod_eq_of_lt (by omega)]
  have ha : (BitVec.ofNat 21 r.arena.length).toNat = r.arena.length := by
    rw [BitVec.toNat_ofNat, Nat.mod_eq_of_lt (by omega)]
  exact
    { params := h.params
      stores := ⟨h.stores.w, h.stores.lw, h.stores.nodes, h.stores.table, h.stores.bits,
        ⟨Memory.wf_writeRun h.stores.out.1 _ _, Memory.below_writeRun h.stores.out.2 (by omega)⟩,
        ⟨Memory.wf_writeRun h.stores.arena.1 _ _, Memory.below_writeRun h.stores.arena.2 (by simpa using hb.2.1)⟩⟩
      lengths := ⟨hbit, by show (BitVec.ofNat 16 _).toNat ≤ _; rw [ho]; exact hb.2.2.trans hbit,
        by show (BitVec.ofNat 21 _).toNat ≤ _; rw [ha]; exact hb.2.1⟩
      buffers := ⟨h.buffers.bits, fun i hi => by
        have hi' : i < r.bytes.length := by
          have : i < (BitVec.ofNat 16 r.bytes.length).toNat := hi
          rwa [ho] at this
        have hr := Memory.read_writeRun_inside s.out 0 r.bytes hi'
        rw [Nat.zero_add] at hr
        show ((s.out.writeRun 0 r.bytes).read i).isSome = true
        rw [hr]; rfl⟩
      codes := h.codes
      noTree := h.noTree
      tree := fun hv => (h.tree hv).congr rfl rfl rfl rfl }

theorem genTable (h : s.Inv) : s.genTable.Inv := by
  rw [State.genTable]
  split
  · exact h.finish .noTree
  · next hv =>
    have ok := h.tree (by simpa using hv)
    exact (h.table (generatedTable_wf ok) (fun x c hc => generatedTable_length ok hc)).finish .none

theorem setCode (h : s.Inv) (x : Symbol) {c : BitString} (hc : c.length ≤ 255) : (s.setCode x c).Inv :=
  h.table ⟨Memory.wf_write h.stores.table.1 _ _, Memory.below_write h.stores.table.2 x.isLt _⟩ (fun y d hd => by
    rw [Memory.read_write] at hd
    split at hd
    · cases hd; exact hc
    · exact h.codes y d hd)

theorem eraseCode (h : s.Inv) (x : Symbol) : { s with table := s.table.erase x.toNat }.Inv :=
  h.table ⟨Memory.wf_erase h.stores.table.1 _, Memory.below_erase h.stores.table.2 _⟩ (fun y d hd => by
    rw [Memory.read_erase] at hd
    split at hd
    · cases hd
    · exact h.codes y d hd)

theorem clearTable (h : s.Inv) : { s with table := [] }.Inv :=
  h.table ⟨List.Pairwise.nil, fun p hp => by cases hp⟩ (fun y d hd => by simp at hd)

theorem clearInput (h : s.Inv) : { s with bitLen := 0 }.Inv :=
  h.inputBuffer (b := s.bits) (n := 0) h.stores.bits (Nat.zero_le _) (fun j hj => absurd hj (Nat.not_lt_zero j))

theorem bitbufAppend (h : s.Inv) (n : BitVec 16) : (s.bitbufAppend n).Inv := by
  have hl := h.legal
  have hbit := h.lengths.bitLen
  rw [State.bitbufAppend]
  split
  · exact h.finish .badOperand
  · next hn =>
    split
    · exact h.finish .bufferFull
    · next hfit =>
      have hlen : (s.argBits n.toNat).length = n.toNat := by simp [State.argBits]
      have ht : (BitVec.ofNat 16 (s.bitLen.toNat + n.toNat)).toNat = s.bitLen.toNat + n.toNat := by
        rw [BitVec.toNat_ofNat, Nat.mod_eq_of_lt (by omega)]
      refine State.Inv.finish (h.inputBuffer ⟨Memory.wf_writeRun h.stores.bits.1 _ _,
        Memory.below_writeRun h.stores.bits.2 (by omega)⟩ (by omega) (fun j hj => ?_)) .none
      rw [Memory.read_writeRun]
      split
      · next hin => simp only [List.getElem?_eq_getElem (show j - s.bitLen.toNat < (s.argBits n.toNat).length by omega)]; rfl
      · next hout => exact h.buffers.bits j (by omega)

theorem setWeight (h : s.Inv) (x : Symbol) (v : Word) : (s.setWeight x v).Inv :=
  h.weights ⟨Memory.wf_write h.stores.w.1 _ _, Memory.below_write h.stores.w.2 x.isLt _⟩

theorem clearWeights (h : s.Inv) : { s with w := (List.range 256).map (fun k => (k, 0)) }.Inv :=
  h.weights clearedWeights_wf

/-- Reset leaves the invariant, for legal parameters. -/
theorem afterReset {p : Params} (hp : p.legal = true) (n : Nat) : (State.afterReset p n).Inv := by
  refine ⟨hp, ?_, ?_, ?_, ?_, fun _ => ⟨rfl, rfl⟩, fun hv => Bool.noConfusion hv⟩
  · constructor <;> exact ⟨List.Pairwise.nil, fun p hp => by cases hp⟩
  · constructor <;> exact Nat.zero_le _
  · constructor <;> exact fun j hj => absurd hj (Nat.not_lt_zero j)
  · intro x c hc; simp [State.code, State.afterReset] at hc

end State.Inv

end Sys2Proof.Machine
end

