-- ==== Sys2Proof/Laws/Bus.lean ====
section
/-! SUPPORT. Word addresses and the address map, and what a host access and a cycle in reset can do
(spec/20_memory.md R61 to R67; spec/40_command_control.md R101 to R105). -/

namespace Sys2Proof.Machine

/-! ### Addresses -/

theorem wordAddress_eq (a : Addr) : wordAddress a = a.toNat - a.toNat % 4 := by
  have mask : ∀ i < 16, (0xFFFC : BitVec 16).getLsbD i = decide (2 ≤ i) := by decide
  have h : a &&& 0xFFFC = BitVec.ofNat 16 (a.toNat / 4 * 4) := by
    apply BitVec.eq_of_getLsbD_eq
    intro i hi
    rw [BitVec.getLsbD_and, BitVec.getLsbD_ofNat, mask i hi,
      show a.toNat / 4 * 4 = (a.toNat >>> 2) <<< 2 by rw [Nat.shiftRight_eq_div_pow, Nat.shiftLeft_eq],
      Nat.testBit_shiftLeft, Nat.testBit_shiftRight]
    by_cases h2 : 2 ≤ i
    · rw [show 2 + (i - 2) = i by omega]
      simp [h2, hi, BitVec.testBit_toNat]
    · simp [h2]
  rw [wordAddress, h, BitVec.toNat_ofNat, Nat.mod_eq_of_lt (by have := a.isLt; omega)]
  omega

theorem wordAddress_aligned (a : Addr) : wordAddress a % 4 = 0 := by rw [wordAddress_eq]; omega

theorem wordAddress_lt (a : Addr) : wordAddress a < 2 ^ 16 := (a &&& 0xFFFC).isLt

/-- The word address of an aligned address is the address. -/
theorem wordAddress_ofNat {n : Nat} (h : n < 2 ^ 16) (h4 : n % 4 = 0) : wordAddress (BitVec.ofNat 16 n) = n := by
  rw [wordAddress_eq, BitVec.toNat_ofNat, Nat.mod_eq_of_lt h]
  omega

theorem else_of_ne {α : Type} {c : Prop} [Decidable c] {x y z : α} (h : (if c then x else y) = z) (hx : x ≠ z) :
    y = z := by
  split at h
  · exact absurd h hx
  · exact h

theorem regionAt_status_iff (p : Params) (n : Nat) : regionAt p n = .status ↔ n = 0x008 := by
  constructor
  · intro h
    by_contra hn
    unfold regionAt at h
    rw [if_neg hn] at h
    repeat replace h := else_of_ne h (fun e => by cases e)
    cases h
  · rintro rfl; rfl

theorem regionAt_cmd_iff (p : Params) (n : Nat) : regionAt p n = .cmd ↔ n = 0x00C := by
  constructor
  · intro h
    by_contra hn
    unfold regionAt at h
    rw [if_neg hn] at h
    repeat replace h := else_of_ne h (fun e => by cases e)
    cases h
  · rintro rfl; rfl

/-! ### The address map, word by word -/

theorem legal_bounds {p : Params} (h : p.legal = true) : p.bitbufBits % 32 = 0 ∧ 32 ≤ p.bitbufBits ∧
    p.bitbufBits ≤ 32768 ∧ p.bitbufBits + 1 ≤ p.arenaDepth ∧ p.arenaDepth ≤ 2 ^ 20 := by
  simp only [Params.legal, Bool.and_eq_true, beq_iff_eq, decide_eq_true_eq] at h
  omega

/-- Below the windows the map does not depend on the parameters. -/
theorem regionAt_registers (p q : Params) {n : Nat} (h : n < 0x80) : regionAt p n = regionAt q n := by
  unfold regionAt
  simp only [show ∀ m, ¬(0x1000 ≤ n ∧ n < m) by omega, show ∀ m, ¬(0x8000 ≤ n ∧ n < m) by omega, if_false]

theorem regionAt_codeStage (p : Params) (k : Fin 8) : regionAt p (0x040 + 4 * k.val) = .codeStage k := by
  rw [regionAt_registers p Params.default (by omega)]
  revert k
  decide

theorem regionAt_codeOut (p : Params) (k : Fin 8) : regionAt p (0x060 + 4 * k.val) = .codeOut k := by
  rw [regionAt_registers p Params.default (by omega)]
  revert k
  decide

/-- Above the registers the map is the three windows. -/
theorem regionAt_windows (p : Params) {n : Nat} (h : 0x80 ≤ n) : regionAt p n =
    if 0x400 ≤ n ∧ n ≤ 0x7FF then .weight (BitVec.ofNat 8 ((n - 0x400) / 4))
    else if 0x1000 ≤ n ∧ n < 0x1000 + p.bitbufBits / 8 then .bitbuf ((n - 0x1000) / 4)
    else if 0x8000 ≤ n ∧ n < 0x8000 + p.bitbufBits then .outbuf ((n - 0x8000) / 4)
    else .unmapped := by
  unfold regionAt
  iterate 16 rw [if_neg (by omega)]

theorem regionAt_weight (p : Params) (x : Symbol) : regionAt p (0x400 + 4 * x.toNat) = .weight x := by
  have := x.isLt
  rw [regionAt_windows p (by omega), if_pos (by omega), show (0x400 + 4 * x.toNat - 0x400) / 4 = x.toNat by omega]
  simp

theorem regionAt_bitbuf {p : Params} {j : Nat} (h : p.legal = true) (hj : j < p.bitbufBits / 32) :
    regionAt p (0x1000 + 4 * j) = .bitbuf j := by
  have := legal_bounds h
  rw [regionAt_windows p (by omega), if_neg (by omega), if_pos (by omega),
    show (0x1000 + 4 * j - 0x1000) / 4 = j by omega]

theorem regionAt_outbuf {p : Params} {j : Nat} (h : p.legal = true) (hj : j < p.bitbufBits / 4) :
    regionAt p (0x8000 + 4 * j) = .outbuf j := by
  have := legal_bounds h
  rw [regionAt_windows p (by omega), if_neg (by omega), if_neg (by omega), if_pos (by omega),
    show (0x8000 + 4 * j - 0x8000) / 4 = j by omega]

/-- A word that is neither readable nor writable is unmapped, and a host can write only the writable ones
(20_memory.md R62, R67). -/
theorem regionAt_cases {p : Params} {n : Nat} (h : p.legal = true) (h4 : n % 4 = 0) :
    (¬ readOnlyWord p n → ¬ writableWord n → regionAt p n = .unmapped) ∧
      (¬ writableWord n → ∀ (s : State) (v : Word), s.writeIdle v (regionAt p n) = s) := by
  have hb := legal_bounds h
  unfold readOnlyWord writableWord
  rcases Nat.lt_or_ge n 0x80 with hn | hn
  · obtain ⟨m, rfl⟩ := Nat.dvd_of_mod_eq_zero h4
    have hm : m < 32 := by omega
    rw [regionAt_registers p Params.default hn]
    refine ⟨fun h1 h2 => ?_, fun h2 s v => ?_⟩
    · interval_cases m <;> first | (exfalso; omega) | decide
    · generalize hr : regionAt Params.default (4 * m) = r
      interval_cases m <;> first | (exfalso; omega) | (cases hr; rfl)
  · rw [regionAt_windows p hn]
    refine ⟨fun h1 h2 => ?_, fun h2 s v => ?_⟩
    · rw [if_neg (by omega), if_neg (by omega), if_neg (by omega)]
    · rw [if_neg (by omega)]
      split_ifs <;> rfl

/-! ### Accesses -/

theorem memWrite_status {s : State} {a : Addr} (h : wordAddress a = 0x008) (v : Word) :
    s.memWrite a v = s.writeStatus v := by
  have hr : s.regionOf a = .status := (regionAt_status_iff _ _).2 h
  rw [State.memWrite, hr]

theorem memWrite_cmd {s : State} {a : Addr} (h : wordAddress a = 0x00C) (v : Word) :
    s.memWrite a v = if s.status.busy then s.loseCommand else s.accept v := by
  have hr : s.regionOf a = .cmd := (regionAt_cmd_iff _ _).2 h
  rw [State.memWrite, hr]

theorem memWrite_other {s : State} {a : Addr} (h1 : wordAddress a ≠ 0x008) (h2 : wordAddress a ≠ 0x00C) (v : Word) :
    s.memWrite a v = if s.status.busy then s.ignoreWrite else s.writeIdle v (s.regionOf a) := by
  have hs : s.regionOf a ≠ .status := fun h => h1 ((regionAt_status_iff _ _).1 h)
  have hc : s.regionOf a ≠ .cmd := fun h => h2 ((regionAt_cmd_iff _ _).1 h)
  rw [State.memWrite]
  generalize s.regionOf a = r at hs hc
  cases r <;> first | rfl | exact absurd rfl hs | exact absurd rfl hc

/-- Everything a host write can do. -/
theorem memWrite_frame (s : State) (a : Addr) (v : Word) :
    ∃ c st p a0 cs w, s.memWrite a v = { s with ctrl := c, status := st, pend := p, arg0 := a0, codeStage := cs, w := w } ∧
      (w = s.w ∨ ∃ x : Symbol, w = s.w.write x.toNat v) := by
  by_cases h1 : wordAddress a = 0x008
  · rw [memWrite_status h1]
    exact ⟨s.ctrl, _, s.pend, s.arg0, s.codeStage, s.w, rfl, .inl rfl⟩
  by_cases h2 : wordAddress a = 0x00C
  · rw [memWrite_cmd h2]
    split
    · exact ⟨s.ctrl, _, s.pend, s.arg0, s.codeStage, s.w, rfl, .inl rfl⟩
    · exact ⟨s.ctrl, _, _, s.arg0, s.codeStage, s.w, rfl, .inl rfl⟩
  rw [memWrite_other h1 h2]
  split
  · exact ⟨s.ctrl, _, s.pend, s.arg0, s.codeStage, s.w, rfl, .inl rfl⟩
  · generalize s.regionOf a = r
    cases r with
    | weight x => exact ⟨s.ctrl, s.status, s.pend, s.arg0, s.codeStage, _, rfl, .inr ⟨x, rfl⟩⟩
    | ctrl => exact ⟨_, s.status, s.pend, s.arg0, s.codeStage, s.w, rfl, .inl rfl⟩
    | arg0 => exact ⟨s.ctrl, s.status, s.pend, _, s.codeStage, s.w, rfl, .inl rfl⟩
    | codeStage k => exact ⟨s.ctrl, s.status, s.pend, s.arg0, _, s.w, rfl, .inl rfl⟩
    | _ => exact ⟨s.ctrl, s.status, s.pend, s.arg0, s.codeStage, s.w, rfl, .inl rfl⟩

/-- While a command is pending a host write changes flags alone, and never BUSY or ERR
(40_command_control.md R102, R103). -/
theorem memWrite_busy {s : State} (h : s.status.busy = true) (a : Addr) (v : Word) :
    ∃ st, s.memWrite a v = { s with status := st } ∧ st.busy = true ∧ st.err = s.status.err := by
  by_cases h1 : wordAddress a = 0x008
  · rw [memWrite_status h1]
    exact ⟨_, rfl, h, rfl⟩
  by_cases h2 : wordAddress a = 0x00C
  · rw [memWrite_cmd h2, if_pos h]
    exact ⟨_, rfl, h, rfl⟩
  · rw [memWrite_other h1 h2, if_pos h]
    exact ⟨_, rfl, h, rfl⟩

/-- A read changes nothing but the model's draw counter (20_memory.md R69). -/
theorem memRead_frame (s : State) (a : Addr) : ∃ d, (s.memRead a).2 = { s with draws := d } := by
  rw [State.memRead]
  split
  · exact ⟨_, rfl⟩
  · exact ⟨s.draws, rfl⟩

theorem memRead_idle {s : State} (h : s.status.busy = false) (a : Addr) : s.memRead a = (s.valueAt (s.regionOf a), s) := by
  rw [State.memRead, if_neg (by simp [h])]

theorem memRead_stable {s : State} {a : Addr} (h : (s.regionOf a).stableWhileBusy = true) :
    s.memRead a = (s.valueAt (s.regionOf a), s) := by
  rw [State.memRead, h]
  simp

theorem memRead_open {s : State} {a : Addr} (hb : s.status.busy = true) (h : (s.regionOf a).stableWhileBusy = false) :
    s.memRead a = (Config.busyRead s.draws, { s with draws := s.draws + 1 }) := by
  rw [State.memRead, h, hb]
  rfl

/-- STATUS reads its word at any time (40_command_control.md R105). -/
theorem memRead_status {s : State} {a : Addr} (h : wordAddress a = 0x008) : s.memRead a = (s.status.toWord, s) := by
  have hr : s.regionOf a = .status := (regionAt_status_iff _ _).2 h
  rw [memRead_stable (by rw [hr]; rfl), hr]
  rfl

/-- While a command is pending a host step changes the environment and flags alone (40_command_control.md R102 to
R105). -/
theorem hostStep_busy {s : State} (h : s.status.busy = true) :
    ∃ st pr rd dr, s.hostStep = s.withControl st s.pend pr rd s.turns dr ∧ st.busy = true ∧ st.err = s.status.err := by
  rw [State.hostStep]
  split
  · exact ⟨s.status, s.prog, s.reads, s.draws, rfl, h, rfl⟩
  · next a v rest hp =>
    obtain ⟨st, he, hb, herr⟩ := memWrite_busy (s := { s with prog := rest }) h a v
    rw [he]
    exact ⟨st, rest, s.reads, s.draws, rfl, hb, herr⟩
  · next a rest hp =>
    obtain ⟨d, hd⟩ := memRead_frame s a
    rw [hd]
    exact ⟨s.status, rest, _, d, rfl, h, rfl⟩
  · next rest hp =>
    split
    · exact ⟨s.status, s.prog, s.reads, s.draws, rfl, h, rfl⟩
    · exact ⟨s.status, rest, s.reads, s.draws, rfl, h, rfl⟩

/-! ### The invariant under the host's accesses and under reset -/

namespace State.Inv

variable {s : State}

theorem memWrite (h : s.Inv) (a : Addr) (v : Word) : (s.memWrite a v).Inv := by
  obtain ⟨c, st, p, a0, cs, w, he, hw⟩ := memWrite_frame s a v
  rw [he]
  have hw' : { s with w := w }.Inv := by
    rcases hw with rfl | ⟨x, rfl⟩
    · exact h
    · exact h.setWeight x v
  exact hw'.control c st a0 s.res0 s.res1 cs s.codeOut p s.prog s.reads s.turns s.draws

theorem hostStep (h : s.Inv) : s.hostStep.Inv := by
  have env : ∀ pr rd dr, ({ s with prog := pr, reads := rd, draws := dr } : State).Inv := fun pr rd dr =>
    h.control s.ctrl s.status s.arg0 s.res0 s.res1 s.codeStage s.codeOut s.pend pr rd s.turns dr
  rw [State.hostStep]
  split
  · exact h
  · next a v rest hp => exact (env rest s.reads s.draws).memWrite a v
  · next a rest hp =>
    obtain ⟨d, hd⟩ := memRead_frame s a
    rw [hd]
    exact env rest _ d
  · next rest hp =>
    split
    · exact h
    · exact env rest s.reads s.draws

theorem resetStep (h : s.Inv) (access : Bool) : (s.resetStep access).Inv := by
  have edge : ∀ {s : State}, s.Inv → s.resetEdge.Inv := fun {s} h =>
    (State.Inv.afterReset h.params (s.resets + 1)).control (State.afterReset s.params (s.resets + 1)).ctrl
      (State.afterReset s.params (s.resets + 1)).status 0 0 0 _ _ 0 s.prog s.reads s.turns s.draws
  have env : ∀ pr rd, ({ s with prog := pr, reads := rd } : State).Inv := fun pr rd =>
    h.control s.ctrl s.status s.arg0 s.res0 s.res1 s.codeStage s.codeOut s.pend pr rd s.turns s.draws
  rw [State.resetStep]
  split
  · refine edge ?_
    rw [State.hostStepInReset]
    split
    · exact h
    · exact env _ s.reads
    · exact env _ _
    · exact env _ s.reads
  · exact edge h

end State.Inv

end Sys2Proof.Machine
end

