-- ==== Sys2Proof/Laws/Encoding.lean ====
section
/-! SUPPORT. The fields of a command word (spec/30_encoding.md R80, R81). -/

namespace Sys2Proof

/-- Bit i of OP, RSV and IMM16 set side by side. -/
theorem getLsbD_fields (a : BitVec 8) (b : BitVec 8) (c : BitVec 16) (i : Nat) :
    BitVec.getLsbD (w := 32) (a ++ b ++ c) i =
      if i < 16 then c.getLsbD i else if i - 16 < 8 then b.getLsbD (i - 16) else a.getLsbD (i - 16 - 8) := by
  have h : BitVec.getLsbD (w := 8 + 8 + 16) (a ++ b ++ c) i =
      if i < 16 then c.getLsbD i else if i - 16 < 8 then b.getLsbD (i - 16) else a.getLsbD (i - 16 - 8) := by
    rw [BitVec.getLsbD_append, BitVec.getLsbD_append]
  exact h

theorem opField_append (a : BitVec 8) (b : BitVec 8) (c : BitVec 16) : opField (a ++ b ++ c) = a := by
  apply BitVec.eq_of_getLsbD_eq
  intro i hi
  rw [opField, BitVec.getLsbD_extractLsb', getLsbD_fields, if_neg (by omega), if_neg (by omega),
    show 24 + i - 16 - 8 = i by omega]
  simp [hi]

theorem rsvField_append (a : BitVec 8) (b : BitVec 8) (c : BitVec 16) : rsvField (a ++ b ++ c) = b := by
  apply BitVec.eq_of_getLsbD_eq
  intro i hi
  rw [rsvField, BitVec.getLsbD_extractLsb', getLsbD_fields, if_neg (by omega), if_pos (by omega),
    show 16 + i - 16 = i by omega]
  simp [hi]

theorem immField_append (a : BitVec 8) (b : BitVec 8) (c : BitVec 16) : immField (a ++ b ++ c) = c := by
  apply BitVec.eq_of_getLsbD_eq
  intro i hi
  rw [immField, BitVec.getLsbD_extractLsb', getLsbD_fields, if_pos (by omega)]
  simp [hi]

/-- A word is its three fields. -/
theorem word_of_fields (w : Word) : (opField w ++ rsvField w ++ immField w : Word) = w := by
  apply BitVec.eq_of_getLsbD_eq
  intro i hi
  rw [getLsbD_fields]
  simp only [opField, rsvField, immField, BitVec.getLsbD_extractLsb']
  split
  · simp [*]
  · split
    · next h1 h2 => simp [h2, show 16 + (i - 16) = i by omega]
    · next h1 h2 => simp [show i - 16 - 8 < 8 by omega, show 24 + (i - 16 - 8) = i by omega]

theorem symField_eq (w : Word) : symField w = (immField w).extractLsb' 0 8 := by
  apply BitVec.eq_of_getLsbD_eq
  intro i hi
  simp [symField, immField, hi]

theorem lenField_eq (w : Word) : lenField w = (immField w).extractLsb' 8 8 := by
  apply BitVec.eq_of_getLsbD_eq
  intro i hi
  simp [lenField, immField, hi]

theorem getLsbD_halves (a b : BitVec 8) (i : Nat) :
    BitVec.getLsbD (w := 16) (a ++ b) i = if i < 8 then b.getLsbD i else a.getLsbD (i - 8) := by
  have h : BitVec.getLsbD (w := 8 + 8) (a ++ b) i = if i < 8 then b.getLsbD i else a.getLsbD (i - 8) := by
    rw [BitVec.getLsbD_append]
  exact h

/-- IMM16 is its two halves. -/
theorem immField_halves (w : Word) : (lenField w ++ symField w : BitVec 16) = immField w := by
  apply BitVec.eq_of_getLsbD_eq
  intro i hi
  rw [getLsbD_halves]
  simp only [lenField, symField, immField, BitVec.getLsbD_extractLsb']
  split
  · next h => simp [h, show i < 16 by omega]
  · next h => simp [show i - 8 < 8 by omega, show 8 + (i - 8) = i by omega, hi]

theorem low_half_append (a b : BitVec 8) : BitVec.extractLsb' 0 8 (a ++ b : BitVec 16) = b := by
  apply BitVec.eq_of_getLsbD_eq
  intro i hi
  rw [BitVec.getLsbD_extractLsb', getLsbD_halves, if_pos (by omega)]
  simp [hi]

theorem high_half_append (a b : BitVec 8) : BitVec.extractLsb' 8 8 (a ++ b : BitVec 16) = a := by
  apply BitVec.eq_of_getLsbD_eq
  intro i hi
  rw [BitVec.getLsbD_extractLsb', getLsbD_halves, if_neg (by omega), show 8 + i - 8 = i by omega]
  simp [hi]

theorem ite_or {α : Type} {c : Prop} [Decidable c] {x y z : α} (h : (if c then x else y) = z) :
    (c ∧ x = z) ∨ (¬c ∧ y = z) := by
  by_cases hc : c
  · exact .inl ⟨hc, by rwa [if_pos hc] at h⟩
  · exact .inr ⟨hc, by rwa [if_neg hc] at h⟩

/-- What a decoded word is: RSV = 0, OP the command's, IMM16 its operands (30_encoding.md R80 to R82). -/
theorem fields_of_decode {w : Word} {i : Instr} (h : decode w = .ok i) :
    rsvField w = 0 ∧ opField w = opcode i ∧ immField w = immediate i := by
  unfold decode at h
  rcases ite_or h with ⟨_, e⟩ | ⟨h0, h⟩
  · cases e
  have h0 : rsvField w = 0 := by simpa using h0
  rcases ite_or h with ⟨hop, e⟩ | ⟨-, h⟩
  · cases e; exact ⟨h0, hop, rfl⟩
  rcases ite_or h with ⟨hop, e⟩ | ⟨-, h⟩
  · cases e; exact ⟨h0, hop, rfl⟩
  rcases ite_or h with ⟨hop, e⟩ | ⟨-, h⟩
  · cases e; exact ⟨h0, hop, rfl⟩
  rcases ite_or h with ⟨hop, e⟩ | ⟨-, h⟩
  · cases e; exact ⟨h0, hop, rfl⟩
  rcases ite_or h with ⟨hop, e⟩ | ⟨-, h⟩
  · cases e; exact ⟨h0, hop, rfl⟩
  rcases ite_or h with ⟨hop, e⟩ | ⟨-, h⟩
  · cases e; exact ⟨h0, hop, rfl⟩
  rcases ite_or h with ⟨hop, e⟩ | ⟨-, h⟩
  · cases e; exact ⟨h0, hop, (immField_halves w).symm⟩
  rcases ite_or h with ⟨hop, e⟩ | ⟨-, h⟩
  · cases e; exact ⟨h0, hop, (immField_halves w).symm⟩
  rcases ite_or h with ⟨hop, e⟩ | ⟨-, h⟩
  · cases e; exact ⟨h0, hop, (immField_halves w).symm⟩
  rcases ite_or h with ⟨hop, e⟩ | ⟨-, h⟩
  · cases e; exact ⟨h0, hop, rfl⟩
  rcases ite_or h with ⟨hop, e⟩ | ⟨-, h⟩
  · cases e; exact ⟨h0, hop, rfl⟩
  rcases ite_or h with ⟨hop, e⟩ | ⟨-, h⟩
  · cases e; exact ⟨h0, hop, rfl⟩
  cases h

/-- A word with a command's fields decodes to that command. -/
theorem decode_of_fields {w : Word} {i : Instr} (h0 : rsvField w = 0) (h1 : opField w = opcode i)
    (h2 : immField w = immediate i) : decode w = .ok i := by
  cases i <;> simp [decode, h0, h1, h2, opcode, symField_eq, lenField_eq, immediate]
  · exact ⟨low_half_append _ _, high_half_append _ _⟩
  · exact ⟨low_half_append _ _, high_half_append _ _⟩
  · exact ⟨low_half_append _ _, high_half_append _ _⟩

/-- A word whose OP is assigned and whose RSV is 0 is a command. -/
theorem decode_total {w : Word} (h0 : rsvField w = 0)
    (h1 : opField w ∈ [(0x00 : BitVec 8), 0x10, 0x11, 0x12, 0x20, 0x21, 0x22, 0x23, 0x24, 0x30, 0x31, 0x32]) :
    ∃ i, decode w = .ok i := by
  simp only [List.mem_cons, List.not_mem_nil, or_false] at h1
  rcases h1 with h | h | h | h | h | h | h | h | h | h | h | h <;>
    exact ⟨_, by simp only [decode, h0, h]; rfl⟩

/-- A word with RSV = 0 and an unassigned OP is rejected for its OP. -/
theorem decode_unassigned {w : Word} (h0 : rsvField w = 0)
    (h1 : opField w ∉ [(0x00 : BitVec 8), 0x10, 0x11, 0x12, 0x20, 0x21, 0x22, 0x23, 0x24, 0x30, 0x31, 0x32]) :
    decode w = .error .opcodeUnassigned := by
  simp only [List.mem_cons, List.not_mem_nil, or_false, not_or] at h1
  obtain ⟨a, b, c, d, e, f, g, h, i, j, k, l⟩ := h1
  simp only [decode, h0, a, b, c, d, e, f, g, h, i, j, k, l, if_false, ne_eq, not_true_eq_false]

/-- RSV is checked first (60_exceptions.md R202). -/
theorem decode_reserved {w : Word} (h : rsvField w ≠ 0) : decode w = .error .reservedNonzero := if_pos h

end Sys2Proof
end

