-- ==== Sys2Proof/Laws/Operands.lean ====
section
/-! SUPPORT. The bits of the words the operand forms build (spec/20_memory.md R65, R66, R68; spec/10_state.md R24, R25,
R33). -/

namespace Sys2Proof.Machine

@[simp] theorem wordOfBits_getLsbD (f : Nat → Bool) {i : Nat} (h : i < 32) : (wordOfBits f).getLsbD i = f i := by
  simp [wordOfBits, h]

/-- Bit i of a packed code (10_state.md R33). -/
theorem packCode_bit (c : BitString) {i : Nat} (h : i < 256) :
    ((packCode c).getD (i / 32) 0).getLsbD (i % 32) = c.getD i false := by
  have hk : i / 32 < 8 := by omega
  have : (packCode c).getD (i / 32) 0 = wordOfBits (fun j => c.getD (32 * (i / 32) + j) false) := by
    simp [packCode, Vector.getD, Array.getD, hk]
  rw [this, wordOfBits_getLsbD _ (by omega), show 32 * (i / 32) + i % 32 = i by omega]

/-- The four bytes of an OUTBUF word (20_memory.md R66). -/
theorem outbufWord_byte (s : State) (j : Nat) {b : Nat} (h : b < 4) :
    (s.outbufWord j).extractLsb' (8 * b) 8 = s.shownByte (4 * j + b) := by
  have bytes : ∀ (p q r t : BitVec 8) (i : Nat), BitVec.getLsbD (w := 32) (p ++ q ++ r ++ t) i =
      if i < 8 then t.getLsbD i else if i - 8 < 8 then r.getLsbD (i - 8)
      else if i - 8 - 8 < 8 then q.getLsbD (i - 8 - 8) else p.getLsbD (i - 8 - 8 - 8) := fun p q r t i => by
    have : BitVec.getLsbD (w := 8 + 8 + 8 + 8) (p ++ q ++ r ++ t) i =
        if i < 8 then t.getLsbD i else if i - 8 < 8 then r.getLsbD (i - 8)
        else if i - 8 - 8 < 8 then q.getLsbD (i - 8 - 8) else p.getLsbD (i - 8 - 8 - 8) := by
      rw [BitVec.getLsbD_append, BitVec.getLsbD_append, BitVec.getLsbD_append]
    exact this
  apply BitVec.eq_of_getLsbD_eq
  intro i hi
  rw [BitVec.getLsbD_extractLsb', State.outbufWord, bytes]
  have hd : decide (i < 8) = true := by simpa using hi
  rw [hd, Bool.true_and]
  interval_cases b
  · rw [if_pos (by omega)]; simp
  · rw [if_neg (by omega), if_pos (by omega), show 8 * 1 + i - 8 = i by omega]
  · rw [if_neg (by omega), if_neg (by omega), if_pos (by omega), show 8 * 2 + i - 8 - 8 = i by omega]
  · rw [if_neg (by omega), if_neg (by omega), if_neg (by omega), show 8 * 3 + i - 8 - 8 - 8 = i by omega]

/-- The fields of the STATUS word (10_state.md R25). -/
theorem Status.toWord_fields (t : Status) :
    t.toWord.getLsbD 0 = t.busy ∧ t.toWord.getLsbD 1 = t.done ∧ t.toWord.getLsbD 2 = t.cmdLost ∧
      t.toWord.getLsbD 3 = t.wrIgnored ∧ t.toWord.extractLsb' 4 4 = 0 ∧ t.toWord.extractLsb' 8 4 = t.err.number ∧
      t.toWord.extractLsb' 12 20 = 0 := by
  obtain ⟨b, d, c, w, e⟩ := t
  cases b <;> cases d <;> cases c <;> cases w <;> cases e <;> exact ⟨rfl, rfl, rfl, rfl, rfl, rfl, rfl⟩

/-- The fields of the CTRL word (10_state.md R24). -/
theorem Ctrl.toWord_fields (c : Ctrl) :
    c.toWord.getLsbD 0 = c.irqEn ∧ c.toWord.getLsbD 1 = c.degen1bit ∧ ∀ i, 2 ≤ i → c.toWord.getLsbD i = false := by
  obtain ⟨a, b⟩ := c
  refine ⟨by cases a <;> cases b <;> rfl, by cases a <;> cases b <;> rfl, fun i hi => ?_⟩
  rcases Nat.lt_or_ge i 32 with h | h
  · cases a <;> cases b <;> (interval_cases i <;> rfl)
  · exact BitVec.getLsbD_of_ge _ _ h

end Sys2Proof.Machine
end

