-- ==== Sys2Proof/Laws/PerInstr.lean ====
section
/-! SUPPORT. One lemma per command: the word of a command holds its opcode in OP, 0 in RSV and its operands in IMM16
(spec/30_encoding.md R80 to R82). -/

namespace Sys2Proof.Laws.EncodeShape

/-- The three fields of a command's word (30_encoding.md R80). -/
def Statement (i : Instr) : Prop :=
  opField (encode i) = opcode i ∧ rsvField (encode i) = 0 ∧ immField (encode i) = immediate i

theorem of_fields (i : Instr) : Statement i := ⟨opField_append _ _ _, rsvField_append _ _ _, immField_append _ _ _⟩

theorem nop (u : BitVec 16) : Statement (.nop u) := of_fields _
theorem clearWeights (u : BitVec 16) : Statement (.clearWeights u) := of_fields _
theorem buildTree (u : BitVec 16) : Statement (.buildTree u) := of_fields _
theorem nodeRead (id : BitVec 16) : Statement (.nodeRead id) := of_fields _
theorem tableClear (u : BitVec 16) : Statement (.tableClear u) := of_fields _
theorem genTable (u : BitVec 16) : Statement (.genTable u) := of_fields _
theorem tableWrite (sym : Symbol) (len : BitVec 8) : Statement (.tableWrite sym len) := of_fields _
theorem tableDelete (sym : Symbol) (u : BitVec 8) : Statement (.tableDelete sym u) := of_fields _
theorem tableRead (sym : Symbol) (u : BitVec 8) : Statement (.tableRead sym u) := of_fields _
theorem bitbufClear (u : BitVec 16) : Statement (.bitbufClear u) := of_fields _
theorem bitbufAppend (n : BitVec 16) : Statement (.bitbufAppend n) := of_fields _
theorem decode (u : BitVec 16) : Statement (.decode u) := of_fields _

end Sys2Proof.Laws.EncodeShape
end

