-- ==== Sys2Proof/Tests/Slice0.lean ====
section
/-! SUPPORT. Tests: ill-formed lines refused, words written out from spec/30_encoding.md decoded, one or two steps per
command with expected values from spec/95_test_vectors.md, and for every statement with hypotheses a state and operands
that meet them (the `witness_…` theorems). -/

open Sys2Proof Sys2Proof.Machine

namespace Sys2Proof.Tests

/-! ### Helpers -/

/-- The state an outcome goes on with. -/
def nextOf : Host.Outcome State Fault Refusal → Option State
  | .next t => some t
  | _ => none

/-- A field of the state that one step with the given word pending leads to. -/
def afterWord {α : Type} (s : State) (w : Nat) (f : State → α) : Option α :=
  (nextOf (step (s.withFetchWord 32 w))).map f

/-- Reset, with all weights 0 but those listed. -/
def weighted (l : List (Symbol × Word)) : State :=
  l.foldl (fun s p => s.setWeight p.1 p.2) { State.reset with w := (List.range 256).map (fun k => (k, 0)) }

/-- Tree T1 of spec/95_test_vectors.md: a 1, b 1, c 2. -/
@[irreducible] def treeT1 : State := (weighted [(0x61, 1), (0x62, 1), (0x63, 2)]).buildTree.1

/-- Tree T8: the single symbol a. -/
@[irreducible] def treeT8 : State := (weighted [(0x61, 4)]).buildTree.1

/-- The registers and stores of tree T1 as its row gives them. -/
def readableT1 : State :=
  { State.reset with
    tree := { root := 0x101, nodeCount := 2, valid := true }
    lw := [(0x61, 1), (0x62, 1), (0x63, 2)]
    nodes := [(0, ⟨2, 0x61, 0x62⟩), (1, ⟨4, 0x100, 0x63⟩)] }

/-- Reset with some parameters, with a table and an input bit sequence. -/
def loadedIn (p : Params) (codes : List (Symbol × BitString)) (bits : BitString) : State :=
  { codes.foldl (fun s p => s.setCode p.1 p.2) (State.afterReset p 0) with
    bits := (List.range bits.length).map (fun i => (i, bits.getD i false))
    bitLen := BitVec.ofNat 16 bits.length }

/-- Reset, with a table and an input bit sequence. -/
abbrev loaded (codes : List (Symbol × BitString)) (bits : BitString) : State := loadedIn Params.default codes bits

/-- The smallest block R7 allows. -/
def smallest : Params := { bitbufBits := 32, arenaDepth := 33 }

/-- Reset, with a word pending. -/
def pending (w : Word) : State := State.reset.accept w

/-- Reset, with a word pending and a schedule and host program. -/
def scheduled (w : Word) (prog : List HostStmt) (turns : List Turn) : State :=
  { pending w with prog := prog, turns := turns }

theorem weighted_inv (l : List (Symbol × Word)) : (weighted l).Inv := by
  unfold weighted
  generalize hs : ({ State.reset with w := (List.range 256).map (fun k => (k, 0)) } : State) = s
  have hI : s.Inv := hs ▸ (State.Inv.afterReset (p := Params.default) (by decide) 0).clearWeights
  clear hs
  induction l generalizing s with
  | nil => exact hI
  | cons p l ih => exact ih _ (hI.setWeight p.1 p.2)

theorem weighted_eq (l : List (Symbol × Word)) : weighted l = { State.reset with w := (weighted l).w } := by
  unfold weighted
  generalize hs : ({ State.reset with w := (List.range 256).map (fun k => (k, 0)) } : State) = s
  have h : s = { State.reset with w := s.w } := by rw [← hs]
  clear hs
  induction l generalizing s with
  | nil => exact h
  | cons p l ih => exact ih _ (by conv_lhs => rw [h]
                                  rfl)

theorem treeT1_inv : treeT1.Inv := by unfold treeT1; exact (weighted_inv _).buildTree

theorem treeT8_inv : treeT8.Inv := by unfold treeT8; exact (weighted_inv _).buildTree

theorem loadedIn_inv {p : Params} (hl : p.legal = true) (codes : List (Symbol × BitString)) (bits : BitString) (hc : ∀ q ∈ codes, q.2.length ≤ 255)
    (hb : bits.length ≤ p.bitbufBits) : (loadedIn p codes bits).Inv := by
  have key : ∀ (l : List (Symbol × BitString)) (s : State), s.Inv → s.params = p →
      (∀ q ∈ l, q.2.length ≤ 255) → (l.foldl (fun s q => s.setCode q.1 q.2) s).Inv ∧
        (l.foldl (fun s q => s.setCode q.1 q.2) s).params = p := by
    intro l
    induction l with
    | nil => intro s h hp _; exact ⟨h, hp⟩
    | cons q l ih =>
      intro s h hp hq
      exact ih _ (h.setCode q.1 (hq q (by simp))) hp (fun r hr => hq r (List.mem_cons_of_mem _ hr))
  obtain ⟨h, hp⟩ := key codes (State.afterReset p 0) (State.Inv.afterReset hl 0) rfl hc
  refine h.inputBuffer ⟨?_, ?_⟩ ?_ ?_
  · rw [Memory.wf, List.pairwise_map]
    exact List.pairwise_lt_range
  · intro p hp'
    obtain ⟨k, hk, rfl⟩ := List.mem_map.1 hp'
    rw [hp]
    exact (List.mem_range.1 hk).trans_le hb
  · rw [hp, BitVec.toNat_ofNat]
    exact (Nat.mod_le _ _).trans hb
  · intro j hj
    have hj' : j < bits.length := by
      rw [BitVec.toNat_ofNat] at hj
      exact hj.trans_le (Nat.mod_le _ _)
    have := Memory.read_map_of_mem (List.range bits.length) id (fun i => bits.getD i false) Function.injective_id
      (List.mem_range.2 hj')
    simp only [id] at this
    exact Option.isSome_iff_exists.2 ⟨_, this⟩

theorem loaded_inv (codes : List (Symbol × BitString)) (bits : BitString) (hc : ∀ q ∈ codes, q.2.length ≤ 255)
    (hb : bits.length ≤ 4096) : (loaded codes bits).Inv := loadedIn_inv (by decide) codes bits hc hb

/-! ### Ill-formed lines are refused: one term for each check of WellFormed.lean (30_encoding.md R86, R88, R89) -/

theorem test_wf_nodeRead : (AsmCmd.nodeRead 0x10000).wellFormed = false := by decide
theorem test_wf_tableWrite_sym : (AsmCmd.tableWrite 256 0).wellFormed = false := by decide
theorem test_wf_tableWrite_len : (AsmCmd.tableWrite 0 256).wellFormed = false := by decide
theorem test_wf_tableDelete : (AsmCmd.tableDelete 256).wellFormed = false := by decide
theorem test_wf_tableRead : (AsmCmd.tableRead 256).wellFormed = false := by decide
theorem test_wf_bitbufAppend : (AsmCmd.bitbufAppend 0x10000).wellFormed = false := by decide
theorem test_wf_codeStage : (RegName.codeStage 8).wellFormed = false := by decide
theorem test_wf_codeOut : (RegName.codeOut 8).wellFormed = false := by decide
theorem test_wf_w : (RegName.w 256).wellFormed = false := by decide
theorem test_wf_bitbuf : (RegName.bitbuf 1024).wellFormed = false := by decide
theorem test_wf_outbuf : (RegName.outbuf 8192).wellFormed = false := by decide
theorem test_wf_addr : (AddrExpr.num 0x10000).wellFormed = false := by decide
theorem test_wf_command : (HostLine.command (.tableRead 256)).wellFormed = false := by decide
theorem test_wf_issue : (HostLine.issue (.tableRead 256)).wellFormed = false := by decide
theorem test_wf_setw_sym : (HostLine.setw 256 0).wellFormed = false := by decide
theorem test_wf_setw_value : (HostLine.setw 0 (2 ^ 32)).wellFormed = false := by decide
theorem test_wf_stage : (HostLine.stage (List.replicate 256 true)).wellFormed = false := by decide +kernel
theorem test_wf_loadcode_sym : (HostLine.loadcode 256 []).wellFormed = false := by decide
theorem test_wf_loadcode_bits : (HostLine.loadcode 0 (List.replicate 256 true)).wellFormed = false := by decide +kernel
theorem test_wf_setctrl : (HostLine.setctrl (2 ^ 32)).wellFormed = false := by decide
theorem test_wf_write_addr : (HostLine.write (.num 0x10000) 0).wellFormed = false := by decide
theorem test_wf_write_value : (HostLine.write (.num 0) (2 ^ 32)).wellFormed = false := by decide
theorem test_wf_read : (HostLine.read (.reg (.w 256))).wellFormed = false := by decide
theorem test_wf_program : assembleProgram [.ack, .command (.nodeRead 0x10000)] = none := by decide

/-! ### Decoding words written out from 30_encoding.md R80 to R82: OP ‖ RSV ‖ IMM16 -/

theorem test_decode_nop : decodeTableWord 32 0b00000000_00000000_00000000_00000000 = some (.nop 0) := by decide
theorem test_decode_clearWeights :
    decodeTableWord 32 0b00010000_00000000_00000000_00000000 = some (.clearWeights 0) := by decide
theorem test_decode_buildTree :
    decodeTableWord 32 0b00010001_00000000_00000000_00000000 = some (.buildTree 0) := by decide
theorem test_decode_nodeRead :
    decodeTableWord 32 0b00010010_00000000_00000001_11111110 = some (.nodeRead 0x1FE) := by decide
theorem test_decode_tableClear :
    decodeTableWord 32 0b00100000_00000000_00000000_00000000 = some (.tableClear 0) := by decide
theorem test_decode_genTable :
    decodeTableWord 32 0b00100001_00000000_00000000_00000000 = some (.genTable 0) := by decide
theorem test_decode_tableWrite :
    decodeTableWord 32 0b00100010_00000000_00000011_01100011 = some (.tableWrite 0x63 3) := by decide
theorem test_decode_tableDelete :
    decodeTableWord 32 0b00100011_00000000_00000000_01100001 = some (.tableDelete 0x61 0) := by decide
theorem test_decode_tableRead :
    decodeTableWord 32 0b00100100_00000000_11111111_01100010 = some (.tableRead 0x62 0xFF) := by decide
theorem test_decode_bitbufClear :
    decodeTableWord 32 0b00110000_00000000_00000000_00000000 = some (.bitbufClear 0) := by decide
theorem test_decode_bitbufAppend :
    decodeTableWord 32 0b00110001_00000000_00000000_00000101 = some (.bitbufAppend 5) := by decide
theorem test_decode_decode :
    decodeTableWord 32 0b00110010_00000000_00000000_00000000 = some (.decode 0) := by decide
theorem test_decode_reserved : decodeTableWord 32 0x11010000 = none := by decide
theorem test_decode_unassigned : decodeTableWord 32 0x25000000 = none := by decide

/-- 30_encoding.md R86 and R144's example: the text of a line, its command, its word. -/
theorem test_parse_tableWrite :
    (parseCommand ['T', 'A', 'B', 'L', 'E', '_', 'W', 'R', 'I', 'T', 'E', ' ', '\'', 'c', '\'', ',', ' ', '3']).bind
      assemble = some 0x22000363 := by decide +kernel
theorem test_parse_nodeRead :
    (parseCommand ['N', 'O', 'D', 'E', '_', 'R', 'E', 'A', 'D', ' ', ' ', '0', 'x', '1', '0', '1']).bind
      assemble = some 0x12000101 := by decide +kernel

/-! ### One step of each command (spec/95_test_vectors.md; the rules' own examples) -/

/-- R106's example. -/
theorem test_nop : afterWord State.reset 0x0000FFFF (·.status.toWord) = some 0x00000002 := by decide +kernel

/-- R107's example. -/
theorem test_illegal : afterWord State.reset 0x13000000 (·.status.toWord) = some 0x00000402 := by decide +kernel

/-- R121's example. -/
theorem test_clearWeights : afterWord (State.reset.setWeight 0x61 7) 0x10000000 (·.weight 0x61) = some 0 := by
  decide +kernel

/-- T1: TREE and IN, where the tie of the seed goes to index 0 and c is not below b. -/
theorem test_buildTree : afterWord (weighted [(0x61, 1), (0x62, 1), (0x63, 2)]) 0x11000000
    (fun t => (t.tree.toWord, t.nodes)) = some (0x80020101, readableT1.nodes) := by decide +kernel

/-- T20's merges: the smaller candidate is not the lower symbol; IN1 = (12, 0x100, a). -/
theorem test_buildTree_order :
    (State.mergeLoop 3 { State.reset with lw := [(0x61, 9), (0x62, 1), (0x63, 2)] } [0x61, 0x62, 0x63] 0).1.nodes =
      [(0, ⟨3, 0x62, 0x63⟩), (1, ⟨12, 0x100, 0x61⟩)] := by decide +kernel

/-- R125's example. -/
theorem test_nodeRead : afterWord readableT1 0x12000101 (fun t => (t.res0, t.res1)) = some (4, 0x80C70000) := by
  decide +kernel

/-- T16: id = 256 + NODE_COUNT. -/
theorem test_nodeRead_bad : afterWord readableT1 0x12000102 (fun t => (t.status.err, t.res0)) =
    some (.badOperand, 0) := by decide +kernel

/-- G15. -/
theorem test_tableClear : afterWord (loaded [(0x61, [true])] []) 0x20000000 (·.maxLen) = some 0 := by decide +kernel

/-- G1. -/
theorem test_genTable : afterWord readableT1 0x21000000 (·.table) =
    some [(0x61, [false, false]), (0x62, [false, true]), (0x63, [true])] := by decide +kernel

/-- G12: the degenerate policy of one bit. -/
theorem test_genTable_degenerate :
    afterWord { State.reset with
        ctrl := { irqEn := false, degen1bit := true }, tree := { root := 0x61, nodeCount := 0, valid := true } } 0x21000000 (·.table) =
      some [(0x61, [false])] := by decide +kernel

/-- G17: staged bits at and above len are dropped. -/
theorem test_tableWrite :
    afterWord { State.reset with codeStage := Vector.replicate 8 0xFFFFFFFF } 0x22000378 (·.table) =
      some [(0x78, [true, true, true])] := by decide +kernel

/-- R144's example: the first bit of a code is staged bit 0. -/
theorem test_tableWrite_order :
    afterWord { State.reset with codeStage := (Vector.replicate 8 0).set 0 1 } 0x22000363 (·.code 0x63) =
      some (some [true, false, false]) := by decide +kernel

/-- G19. -/
theorem test_tableDelete : afterWord (loaded [(0x61, [true]), (0x79, [false, true])] []) 0x23000079
    (fun t => (t.code 0x79, t.maxLen)) = some (none, 1) := by decide +kernel

/-- R146's example. -/
theorem test_tableRead : afterWord (loaded [(0x61, [false, false]), (0x62, [false, true]), (0x63, [true])] [])
    0x24000062 (fun t => (t.res0, t.codeOut[0])) = some (0x80000002, 2) := by decide +kernel

/-- G14: a miss writes zeros. -/
theorem test_tableRead_miss : afterWord { State.reset with res0 := 5, codeOut := Vector.replicate 8 1 } 0x24000064
    (fun t => (t.res0, t.codeOut[7], t.status.toWord)) = some (0, 0, 0x302) := by decide +kernel

/-- B8. -/
theorem test_bitbufClear : afterWord (loaded [] [true, true, true, false, false]) 0x30000000
    (fun t => (t.bitLen, t.bitbufWord 0)) = some (0, 0) := by decide +kernel

/-- B1's second append. -/
theorem test_bitbufAppend : afterWord (loaded [] [true, true, true]) 0x31000002
    (fun t => (t.bitLen, t.bitbufWord 0)) = some (5, 7) := by decide +kernel

/-- B7: BAD_OPERAND comes before BUFFER_FULL. -/
theorem test_bitbufAppend_priority : afterWord { State.reset with bitLen := 4096 } 0x31000000 (·.status.err) =
    some .badOperand := by decide +kernel

/-- D1. -/
theorem test_decode : afterWord (loaded [(0x61, [true]), (0x62, [true, false]), (0x63, [true, false, false])]
    [true, false, true, true, true]) 0x32000000 (fun t => (t.outbufWord 0, t.outLen, t.arenaUsed)) =
    some (0x61616162, 4, 6) := by decide +kernel

/-- D14: the lowest symbol of a shared code. -/
theorem test_decode_shared : afterWord (loaded [(0x62, [true]), (0x61, [true])] [true]) 0x32000000
    (fun t => (t.outbufWord 0, t.arenaUsed)) = some (0x61, 2) := by decide +kernel

/-! ### Witnesses: states and operands that meet the hypotheses of each statement -/

theorem witness_DecodeAndEncodeAgree : Sys2Proof.decode 0x2200FFFF = .ok (.tableWrite 0xFF 0xFF) ∧
    Sys2Proof.decode 0x3200FFFF = .ok (.decode 0xFFFF) := by decide

theorem witness_IllegalWordsAreRejected : (pending 0x00010000).status.busy = true ∧
    Sys2Proof.decode (pending 0x00010000).pend = .error .reservedNonzero ∧ (pending 0x33000000).status.busy = true ∧
    Sys2Proof.decode (pending 0x33000000).pend = .error .opcodeUnassigned ∧ State.reset.status.cmdLost = false ∧
    State.reset.status.wrIgnored = false := by decide

theorem witness_IgnoredOperandsHaveNoEffect : Sys2Proof.decode 0x32000000 = .ok (.decode 0) ∧
    (0x32000000 : Word).extractLsb' 16 16 = (0x3200FFFF : Word).extractLsb' 16 16 ∧
    (0x32000000 : Word).extractLsb' 24 8 ∈ [(0x00 : BitVec 8), 0x10, 0x11, 0x20, 0x21, 0x30, 0x32] ∧
    Sys2Proof.decode 0x240000FF = .ok (.tableRead 0xFF 0) ∧
    (0x240000FF : Word).extractLsb' 16 16 = (0x2400FFFF : Word).extractLsb' 16 16 ∧
    (0x240000FF : Word).extractLsb' 24 8 ∈ [(0x23 : BitVec 8), 0x24] ∧
    (0x240000FF : Word).extractLsb' 0 8 = (0x2400FFFF : Word).extractLsb' 0 8 := by decide

theorem witness_AssembledWordsDecode : (AsmCmd.nodeRead 0xFFFF).wellFormed = true ∧
    (AsmCmd.nodeRead 0x10000).wellFormed = false ∧ assemble (.tableWrite 255 255) = some 0x2200FFFF ∧
    (AsmCmd.bitbufAppend 0xFFFF).wellFormed = true ∧ (AsmCmd.tableDelete 255).wellFormed = true ∧
    (AsmCmd.tableRead 255).wellFormed = true := by decide

theorem witness_PseudoInstructionsExpand : (List.replicate 255 true).length ≤ 255 ∧ 7 < 8 ∧ 31 < 32 := by
  decide +kernel

theorem witness_StepRunsTheDecodedCommand :
    (pending 0x32000000).status.busy = true ∧ Sys2Proof.decode (pending 0x32000000).pend = .ok (.decode 0) ∧
    (pending 0x32000000).turns = [] ∧ (scheduled 0x32000000 [] [.engine, .host]).turns = .engine :: [.host] ∧
    decodeTableWord 32 0x32000000 = some (.decode 0) ∧ State.reset.turns = [] ∧ State.reset.status.busy = false ∧
    { State.reset with turns := [.host] }.turns = .host :: [] ∧
    { State.reset with turns := [.reset true] }.turns = .reset true :: [] ∧
    { State.reset with turns := [.engine] }.turns = .engine :: [] := by decide

theorem witness_AcceptanceEffects : wordAddress 0x00C = 0x00C ∧ wordAddress 0x00F = 0x00C ∧
    State.reset.status.busy = false := by decide

theorem witness_CommandWhileBusyIsLost : wordAddress 0x00F = 0x00C ∧ (pending 0).status.busy = true := by decide

theorem witness_WriteWhileBusyIsIgnored : (pending 0).status.busy = true ∧ wordAddress 0x007 ≠ 0x008 ∧
    wordAddress 0x007 ≠ 0x00C ∧ wordAddress 0xFFFF ≠ 0x00C ∧ wordAddress 0x00B = 0x008 ∧
    wordAddress 0x00C = 0x00C := by decide

theorem witness_EveryCommandCompletes : (pending 0xFFFFFFFF).status.busy = true := by decide

theorem witness_HostAccessBeforeCompletion :
    (scheduled 0 [.write 0x008 2] [.host, .engine]).status.busy = true ∧
    (scheduled 0 [.write 0x008 2] [.host, .engine]).turns = .host :: .engine :: [] ∧
    (scheduled 0 [.write 0x008 2] [.host, .engine]).prog = .write 0x008 2 :: [] ∧
    (scheduled 0 [.write 0x00C 2] [.host, .engine]).prog = .write 0x00C 2 :: [] ∧ wordAddress 0x00C = 0x00C ∧
    (scheduled 0 [.read 0x00B] [.host, .engine]).prog = .read 0x00B :: [] ∧ wordAddress 0x00B = 0x008 := by decide

theorem witness_HostStatementsAreAccesses :
    { State.reset with prog := [.write 0 0] }.prog = .write 0 0 :: [] ∧
    { State.reset with prog := [.read 0] }.prog = .read 0 :: [] ∧ State.reset.status.busy = false ∧
    (scheduled 0 [.wait] []).prog = .wait :: [] ∧ (scheduled 0 [.wait] []).status.busy = true ∧
    { State.reset with prog := [.wait] }.prog = .wait :: [] ∧ State.reset.prog = [] := by decide

/-- Every clause at the last byte of its first and last word. -/
theorem witness_RegisterReadValues : State.reset.status.busy = false ∧ wordAddress 0x003 = 0x000 ∧ wordAddress 0x007 = 0x004 ∧
    wordAddress 0x00F = 0x00C ∧ wordAddress 0x013 = 0x010 ∧ wordAddress 0x017 = 0x014 ∧ wordAddress 0x01B = 0x018 ∧
    wordAddress 0x01F = 0x01C ∧ wordAddress 0x027 = 0x024 ∧ wordAddress 0x02B = 0x028 ∧ wordAddress 0x02F = 0x02C ∧
    wordAddress 0x033 = 0x030 ∧ wordAddress 0x037 = 0x034 ∧ wordAddress 0x040 = 0x040 + 4 * (0 : Fin 8).val ∧
    wordAddress 0x05F = 0x040 + 4 * (7 : Fin 8).val ∧ wordAddress 0x060 = 0x060 + 4 * (0 : Fin 8).val ∧
    wordAddress 0x07F = 0x060 + 4 * (7 : Fin 8).val := by decide

theorem witness_StatusRegister : wordAddress 0x008 = 0x008 ∧ wordAddress 0x00B = 0x008 := by decide

theorem witness_MaxCodeLength : (loaded [(0x61, [true, false])] []).CodesFit ∧ wordAddress 0x023 = 0x020 ∧
    (loaded [(0x61, [true, false])] []).status.busy = false ∧
    (loaded [(0x61, [true, false])] []).code 0x61 = some [true, false] ∧ State.reset.CodesFit ∧
    ∀ y, State.reset.code y = none := by
  refine ⟨?_, by decide, by decide, by decide, ?_, fun _ => rfl⟩
  · exact (((State.Inv.afterReset (p := Params.default) (by decide) 0).setCode 0x61 (c := [true, false]) (by decide))).codes
  · exact (State.Inv.afterReset (p := Params.default) (by decide) 0).codes

theorem witness_RegisterWrites : State.reset.status.busy = false ∧ wordAddress 0x007 = 0x004 ∧ wordAddress 0x013 = 0x010 ∧
    wordAddress 0x043 = 0x040 + 4 * (0 : Fin 8).val ∧ wordAddress 0x05F = 0x040 + 4 * (7 : Fin 8).val ∧
    (6 : Fin 8) ≠ 7 := by decide

theorem witness_WeightWindowAccess : wordAddress 0x400 = 0x400 + 4 * (0x00 : Symbol).toNat ∧
    wordAddress 0x7FF = 0x400 + 4 * (0xFF : Symbol).toNat ∧ State.reset.status.busy = false ∧
    (pending 0).status.busy = true ∧ (0xFE : Symbol) ≠ 0xFF := by decide

theorem witness_BitbufWindowIsReadOnly : State.reset.params.legal = true ∧ 127 < State.reset.params.bitbufBits / 32 ∧
    wordAddress 0x11FF = 0x1000 + 4 * 127 ∧ State.reset.status.busy = false ∧ 31 < 32 ∧
    nextOf (exec (.nop 0) State.reset) = some (State.reset.finish .none) ∧
    ∀ n, (Instr.nop 0) ≠ .bitbufAppend n := by
  exact ⟨by decide, by decide, by decide, by decide, by decide, by decide, fun _ => nofun⟩

theorem witness_OutbufWindowIsReadOnly : State.reset.params.legal = true ∧ 1023 < State.reset.params.bitbufBits / 4 ∧
    wordAddress 0x8FFF = 0x8000 + 4 * 1023 ∧ State.reset.status.busy = false ∧ 3 < 4 := by decide

/-- The first unmapped word after a window, a read-only word, and CMD's neighbour. -/
theorem witness_UnmappedAndReadOnlyWords : State.reset.params.legal = true ∧
    ¬ readOnlyWord State.reset.params (wordAddress 0x9000) ∧ ¬ writableWord (wordAddress 0x9000) ∧
    ¬ readOnlyWord State.reset.params (wordAddress 0x038) ∧ ¬ writableWord (wordAddress 0x038) ∧
    ¬ writableWord (wordAddress 0x8FFF) ∧ ¬ writableWord (wordAddress 0x014) := by
  refine ⟨by decide, ?_, ?_, ?_, ?_, ?_, ?_⟩ <;> simp only [readOnlyWord, writableWord] <;> decide

theorem witness_ReadsWhileBusy : (pending 0).params.legal = true ∧ (pending 0).status.busy = true ∧
    wordAddress 0x003 = 0x000 ∧ wordAddress 0x007 = 0x004 ∧ wordAddress 0x00B = 0x008 ∧ wordAddress 0x00F = 0x00C ∧
    wordAddress 0x013 = 0x010 ∧ wordAddress 0x033 = 0x030 ∧ wordAddress 0x037 = 0x034 ∧
    wordAddress 0x05F = 0x040 + 4 * (7 : Fin 8).val ∧ wordAddress 0x014 = 0x014 ∧ wordAddress 0x02F ≤ 0x02C ∧
    0x060 ≤ wordAddress 0x060 ∧ wordAddress 0x07F ≤ 0x07C ∧ 0x400 ≤ wordAddress 0x400 ∧ wordAddress 0x7FF ≤ 0x7FC ∧
    0x1000 ≤ wordAddress 0x1000 ∧ wordAddress 0x11FF ≤ 0x1000 + (pending 0).params.bitbufBits / 8 - 4 ∧
    0x8000 ≤ wordAddress 0x8000 ∧ wordAddress 0x8FFF ≤ 0x8000 + (pending 0).params.bitbufBits - 4 := by decide

theorem witness_ReadsAndRepeatedWrites : State.reset.status.busy = false ∧ wordAddress 0x007 ≠ 0x008 ∧
    wordAddress 0x010 ≠ 0x00C := by decide

theorem witness_NopChangesNothing : State.reset.status.cmdLost = false ∧ State.reset.status.wrIgnored = false := by decide

theorem weight_cleared_reset (x : Symbol) : (weighted []).weight x = 0 := weight_cleared State.reset x

theorem weight_single (y : Symbol) : (weighted [(0x61, 4)]).weight y = if y = 0x61 then 4 else 0 := by
  rw [show weighted [(0x61, 4)] = (weighted []).setWeight 0x61 4 from rfl, weight_setWeight, weight_cleared_reset]

theorem weight_T1 (y : Symbol) : (weighted [(0x61, 1), (0x62, 1), (0x63, 2)]).weight y =
    if y = 0x63 then 2 else if y = 0x62 then 1 else if y = 0x61 then 1 else 0 := by
  rw [show weighted [(0x61, 1), (0x62, 1), (0x63, 2)] =
    (((weighted []).setWeight 0x61 1).setWeight 0x62 1).setWeight 0x63 2 from rfl, weight_setWeight, weight_setWeight,
    weight_setWeight, weight_cleared_reset]

theorem witness_BuildTreeCornerCases : (∀ x, (weighted []).weight x = 0) ∧
    (weighted [(0x61, 4)]).weight 0x61 ≠ 0 ∧ ∀ y, y ≠ 0x61 → (weighted [(0x61, 4)]).weight y = 0 := by
  refine ⟨weight_cleared_reset, ?_, fun y h => ?_⟩
  · rw [weight_single]; decide
  · rw [weight_single, if_neg h]

/-- A degenerate tree, and three symbols of nonzero weight. -/
theorem witness_BuildTreeBuildsATree : (∃ x, (weighted [(0x61, 4)]).weight x ≠ 0) ∧
    ∀ x ∈ [(0x61 : Symbol), 0x62, 0x63], (weighted [(0x61, 1), (0x62, 1), (0x63, 2)]).weight x ≠ 0 := by
  refine ⟨⟨0x61, witness_BuildTreeCornerCases.2.1⟩, fun x hx => ?_⟩
  rw [weight_T1]
  revert x
  decide

theorem witness_TreeDependsOnWeightsAlone :
    weighted [(0x61, 4)] ≠ { weighted [(0x61, 4)] with arg0 := 1 } ∧
    ∀ x, (weighted [(0x61, 4)]).weight x = { weighted [(0x61, 4)] with arg0 := 1 }.weight x :=
  ⟨fun h => absurd (congrArg State.arg0 h) (by rw [weighted_eq]; decide), fun _ => rfl⟩

/-- A list of two and a list of three; ties at the least weight, at position 2 and before it. -/
theorem witness_CandidateSelectionRule : 2 ≤ [(0x61 : NodeId), 0x62].length ∧ [(0x61 : NodeId), 0x62].length = 2 ∧
    2 < [(0x61 : NodeId), 0x62, 0x63].length ∧
    { State.reset with lw := [(0x61, 1), (0x62, 1), (0x63, 1)] }.select [0x61, 0x62, 0x63] = (2, 0) ∧
    { State.reset with lw := [(0x61, 1), (0x62, 1), (0x63, 2)] }.select [0x61, 0x62, 0x63] = (0, 1) := by
  decide +kernel

theorem witness_MergeStepEffects : (∃ x, (weighted [(0x61, 1), (0x62, 1), (0x63, 2)]).weight x ≠ 0) ∧
    [(0x61 : NodeId), 0x62, 0x63].length ≤ 3 ∧ 2 ≤ [(0x61 : NodeId), 0x62].length ∧ 254 < 255 :=
  ⟨⟨0x61, witness_BuildTreeBuildsATree.2 0x61 (by decide)⟩, by decide, by decide, by decide⟩

theorem witness_NodeReadResults : State.reset.tree.valid = false ∧ readableT1.tree.valid = true ∧
    256 + readableT1.tree.nodeCount.toNat ≤ (0x102 : BitVec 16).toNat ∧
    (0x00FF : BitVec 16) = (0xFF : Symbol).setWidth 16 ∧ 1 < readableT1.tree.nodeCount.toNat ∧
    (0x101 : BitVec 16).toNat = 256 + 1 := by decide

theorem witness_TableClearEmptiesTable : State.reset.params.legal = true := by decide

theorem treeT1_fields : (treeT1.tree, treeT1.generatedTable, treeT1.leafWeight 0x61, treeT1.leafWeight 0x62) =
    ({ root := 0x101, nodeCount := 2, valid := true },
      [(0x61, [false, false]), (0x62, [false, true]), (0x63, [true])], 1, 1) := by
  decide +kernel

theorem treeT1_valid : treeT1.tree = { root := 0x101, nodeCount := 2, valid := true } := (Prod.mk.inj treeT1_fields).1

theorem treeT1_codes : treeT1.generatedTable = [(0x61, [false, false]), (0x62, [false, true]), (0x63, [true])] :=
  (Prod.mk.inj (Prod.mk.inj treeT1_fields).2).1

theorem treeT8_valid : treeT8.tree = { root := 0x61, nodeCount := 0, valid := true } := by decide +kernel

/-- A tree with merges and a degenerate one, and no tree. -/
theorem witness_GenTableGivesRootToLeafPaths : State.reset.tree.valid = false ∧ treeT1.Inv ∧
    treeT1.tree.valid = true ∧ treeT1.tree.nodeCount ≠ 0 ∧ treeT8.Inv ∧ treeT8.tree.valid = true ∧
    treeT8.tree.nodeCount = 0 := by
  rw [treeT1_valid, treeT8_valid]
  exact ⟨by decide, treeT1_inv, by decide, by decide, treeT8_inv, by decide, by decide⟩

theorem witness_GeneratedTablesArePrefixFree : treeT1.Inv ∧ treeT1.tree.valid = true ∧ treeT8.Inv ∧
    treeT8.tree.valid = true ∧ treeT8.tree.nodeCount = 0 :=
  ⟨treeT1_inv, witness_GenTableGivesRootToLeafPaths.2.2.1, treeT8_inv, witness_GenTableGivesRootToLeafPaths.2.2.2.2.2⟩

theorem witness_TableWriteLoadsStagedCode : 254 < (255 : BitVec 8).toNat ∧ (0x62 : Symbol) ≠ 0x61 := by decide

theorem witness_TableDeleteRemovesEntry : (0x62 : Symbol) ≠ 0x61 := by decide

theorem witness_TableReadResults : (loaded [(0x61, List.replicate 255 true)] []).code 0x61 = some (List.replicate 255 true) ∧
    (List.replicate 255 true).length ≤ 255 ∧ State.reset.code 0x61 = none ∧ 255 < 256 := by decide +kernel

/-- A state in form and two symbols; and one table listed in two ways. -/
theorem witness_TableHasNoInsertionHistory : (loaded [(0x63, [true])] []).StoresOk ∧ (0x61 : Symbol) ≠ 0x62 ∧
    (∀ x, { State.reset with table := [(0x62, [false]), (0x61, [true])] }.code x =
      { State.reset with table := [(0x61, [true]), (0x62, [false])] }.code x) ∧
    { State.reset with table := [(0x62, [false]), (0x61, [true])] } ≠
      { State.reset with table := [(0x61, [true]), (0x62, [false])] } :=
  ⟨(loaded_inv _ _ (by decide) (by decide)).stores, by decide, by decide +kernel, by decide⟩

theorem witness_BitbufClearEmptiesBuffer : State.reset.params.legal = true ∧ 127 < State.reset.params.bitbufBits / 32 ∧
    wordAddress 0x1000 = 0x1000 + 4 * 0 ∧ wordAddress 0x11FF = 0x1000 + 4 * 127 := by decide

/-- n = 0, n = 33; a full buffer; the append that fills it exactly (B5, B6). -/
theorem witness_BitbufAppendAddsBits : State.reset.params.legal = true ∧ (0 : BitVec 16).toNat < 1 ∧
    32 < (33 : BitVec 16).toNat ∧ 1 ≤ (1 : BitVec 16).toNat ∧ (32 : BitVec 16).toNat ≤ 32 ∧
    { State.reset with bitLen := 4090 }.params.bitbufBits <
      { State.reset with bitLen := 4090 }.bitLen.toNat + (7 : BitVec 16).toNat ∧
    { State.reset with bitLen := 4090 }.bitLen.toNat + (6 : BitVec 16).toNat ≤
      { State.reset with bitLen := 4090 }.params.bitbufBits ∧ 5 < (6 : BitVec 16).toNat := by decide

theorem witness_LowestSymbolMatches : (loaded [(0x62, [true]), (0x61, [true])] [true]).matchCode 0 1 = some 0x61 ∧
    State.reset.matchCode 0 1 = none := by decide +kernel

theorem only_empty_code (x : Symbol) (c : BitString) (h : (loaded [(0x61, [])] [false]).code x = some c) : c = [] := by
  have h : Memory.read [(0x61, ([] : BitString))] x.toNat = some c := h
  simp only [Memory.read] at h
  split at h
  · exact (Option.some.inj h).symm
  · cases h

theorem witness_DecodeCornerCases : State.reset.params.legal = true ∧ State.reset.bitLen = 0 ∧
    (loaded [(0x61, [])] [false]).params.legal = true ∧ (loaded [(0x61, [])] [false]).bitLen ≠ 0 ∧
    (∀ x c, (loaded [(0x61, [])] [false]).code x = some c → c = []) ∧ (loaded [(0x61, [])] [false]).Inv :=
  ⟨by decide, by decide, by decide, by decide, only_empty_code, loaded_inv _ _ (by decide) (by decide)⟩

/-- D1: the invariant, and an arena of six states. -/
theorem witness_DecodeBounds :
    (loaded [(0x61, [true]), (0x62, [true, false]), (0x63, [true, false, false])] [true, false, true, true, true]).Inv :=
  loaded_inv _ _ (by decide) (by decide)

/-- The three outcomes each occur: D9, with three states beside the seed; D3, with none; an overflow of the smallest arena,
where the source creates 142 beside the seed (the table under D21: 143 for nine zeros and a one). -/
theorem witness_DecodeOutcomes : (loaded [(0x61, [false]), (0x62, [false, false])] [false, false]).Inv ∧
    (loaded [(0x61, [false]), (0x62, [false, false])] [false, false]).decodeSearch.code = .none ∧
    (loaded [(0x61, [false]), (0x62, [false, false])] [false, false]).statesCreated 5 [([], [false, false])] = some 3 ∧
    (loaded [(0x61, [true])] [false]).Inv ∧ (loaded [(0x61, [true])] [false]).decodeSearch.code = .decodeError ∧
    (loaded [(0x61, [true])] [false]).statesCreated 5 [([], [false])] = some 0 ∧
    (loadedIn smallest [(0x61, [false]), (0x62, [false, false])] (List.replicate 9 false ++ [true])).Inv ∧
    (loadedIn smallest [(0x61, [false]), (0x62, [false, false])]
      (List.replicate 9 false ++ [true])).decodeSearch.code = .arenaOverflow ∧
    (loadedIn smallest [(0x61, [false]), (0x62, [false, false])] (List.replicate 9 false ++ [true])).statesCreated 150
      [([], List.replicate 9 false ++ [true])] = some 142 :=
  ⟨loaded_inv _ _ (by decide) (by decide), by decide +kernel, by decide +kernel, loaded_inv _ _ (by decide) (by decide),
    by decide +kernel, by decide +kernel, loadedIn_inv (by decide) _ _ (by decide) (by decide), by decide +kernel,
    by decide +kernel⟩

/-- D9: the search does not overflow, and both "b" and "aa" are full decodings. -/
theorem witness_DecodeIsTheSourcesDecoder : (loaded [(0x61, [false]), (0x62, [false, false])] [false, false]).Inv ∧
    (loaded [(0x61, [false]), (0x62, [false, false])] [false, false]).decodeSearch.code = .none ∧
    (loaded [(0x61, [false]), (0x62, [false, false])] [false, false]).FullDecoding [0x61, 0x61] ∧
    (loaded [(0x61, [false]), (0x62, [false, false])] [false, false]).FullDecoding [0x62] := by
  refine ⟨loaded_inv _ _ (by decide) (by decide), by decide +kernel, ⟨by decide +kernel, ?_⟩, by decide +kernel, ?_⟩ <;>
    decide +kernel

theorem code_genTable {s : State} (h : s.tree.valid = true) (x : Symbol) :
    s.genTable.code x = s.generatedTable.read x.toNat := by
  rw [State.genTable, h]; rfl

theorem treeT1_isValid : treeT1.tree.valid = true := by rw [treeT1_valid]

theorem witness_PrefixFreeTablesGiveASingleChain : treeT1.genTable.Inv ∧ treeT1.genTable.PrefixFree := by
  refine ⟨treeT1_inv.genTable, fun x y c d hx hy _ _ hne => ?_⟩
  rw [code_genTable treeT1_isValid] at hx hy
  exact generatedTable_prefixFree (treeT1_inv.tree treeT1_isValid) hx hy hne

theorem ctrl_buildTree (s : State) : s.buildTree.1.ctrl = s.ctrl := by
  obtain ⟨t, ht, h⟩ := exec_completes (.buildTree 0) s
  cases ht
  exact h.2.2.1

theorem roundTrip_chain (s : State) (he : s.genTable.encodeBytes [0x62, 0x61] = some [false, true, false, false]) :
    ∃ g b l, exec (.genTable 0) s = .next g ∧ exec (.bitbufClear 0) g = .next b ∧
      g.encodeBytes [0x62, 0x61] = some [false, true, false, false] ∧ Loads b [false, true, false, false] l := by
  obtain ⟨l, hl⟩ : ∃ l, exec (.bitbufAppend (BitVec.ofNat 16 4))
      { { s.genTable with bitLen := 0 }.finish .none with arg0 := 0x2 } = .next l := ⟨_, rfl⟩
  exact ⟨_, _, l, rfl, rfl, he,
    Loads.chunk _ _ _ 0x2 [false, true, false, false] [] (by decide) (by decide) (by decide) hl (Loads.done _)⟩

theorem treeT1_text : ∀ x ∈ [(0x62 : Symbol), 0x61], treeT1.leafWeight x ≠ 0 := by
  obtain ⟨ha, hb⟩ := Prod.mk.inj (Prod.mk.inj (Prod.mk.inj treeT1_fields).2).2
  simp only [List.mem_cons, List.not_mem_nil, or_false]
  rintro x (rfl | rfl)
  · rw [hb]; decide
  · rw [ha]; decide

theorem treeT8_ctrl : treeT8.ctrl.degen1bit = false := by
  unfold treeT8
  rw [ctrl_buildTree, weighted_eq]
  rfl

theorem treeT1_encode : treeT1.genTable.encodeBytes [0x62, 0x61] = some [false, true, false, false] := by
  rw [State.encodeBytes, State.encodeBytes, State.encodeBytes, code_genTable treeT1_isValid,
    code_genTable treeT1_isValid, treeT1_codes]
  decide

/-- The text "ba": its codes "01" and "00" go into one chunk. -/
theorem witness_DecodeInvertsEncoding : treeT1.Inv ∧ treeT1.tree.valid = true ∧
    (∀ x ∈ [(0x62 : Symbol), 0x61], treeT1.leafWeight x ≠ 0) ∧ treeT1.tree.nodeCount ≠ 0 ∧
    (∃ g b e l, exec (.genTable 0) treeT1 = .next g ∧ exec (.bitbufClear 0) g = .next b ∧
      g.encodeBytes [0x62, 0x61] = some e ∧ e.length ≤ treeT1.params.bitbufBits ∧ Loads b e l) ∧ treeT8.Inv ∧
    treeT8.tree.valid = true ∧ treeT8.tree.nodeCount = 0 ∧ treeT8.ctrl.degen1bit = false := by
  have hp : 4 ≤ treeT1.params.bitbufBits := by have := treeT1_inv.legal; omega
  obtain ⟨g, b, l, h⟩ := roundTrip_chain treeT1 treeT1_encode
  exact ⟨treeT1_inv, treeT1_isValid, treeT1_text, by rw [treeT1_valid]; decide,
    ⟨g, b, [false, true, false, false], l, h.1, h.2.1, h.2.2.1, hp, h.2.2.2⟩, treeT8_inv, by rw [treeT8_valid],
    by rw [treeT8_valid], treeT8_ctrl⟩

theorem witness_ErrorsWriteOnlyWhatTheyList : (pending 0x00010000).status.busy = true ∧
    Sys2Proof.decode (pending 0x00010000).pend = .error .reservedNonzero ∧ State.reset.Inv ∧
    (nextOf (exec (.nodeRead 0) State.reset)).map (·.status.err) = some .noTree ∧
    (nextOf (exec (.bitbufAppend 0) State.reset)).map (·.status.err) = some .badOperand ∧
    (nextOf (exec (.bitbufAppend 7) { State.reset with bitLen := 4090 })).map (·.status.err) = some .bufferFull ∧
    (nextOf (exec (.tableRead 0 0) State.reset)).map (·.status.err) = some .unknownSymbol ∧
    (nextOf (exec (.decode 0) (loaded [] [true]))).map (·.status.err) = some .decodeError ∧
    (weighted []).buildTree.2 = .emptyAlphabet :=
  ⟨by decide, by decide, State.Inv.afterReset (by decide) 0, by decide +kernel, by decide +kernel, by decide +kernel,
    by decide +kernel, by decide +kernel,
    by rw [State.buildTree, if_pos ((initialList_eq_nil_iff _).2 weight_cleared_reset)]⟩

theorem witness_InterruptLevel : (pending 0).status.busy = true ∧ wordAddress 0x00F = 0x00C ∧
    State.reset.status.busy = false ∧ wordAddress 0x00B = 0x008 ∧ (0x0000000E : Word).getLsbD 1 = true ∧
    wordAddress 0x00C ≠ 0x008 ∧ wordAddress 0x007 = 0x004 := by decide

theorem witness_ResetCycleEffects :
    (scheduled 0 [.write 0 0] [.reset false]).turns = .reset false :: [] ∧
    (scheduled 0 [.write 0 0] [.reset true]).turns = .reset true :: [] ∧
    (scheduled 0 [.write 0 0] [.reset true]).prog = .write 0 0 :: [] ∧
    (scheduled 0 [.read 0] [.reset true]).prog = .read 0 :: [] ∧
    (∀ access rest, (pending 0).turns ≠ .reset access :: rest) ∧
    nextOf (step (pending 0)) = some ((pending 0).finish .none) :=
  ⟨by decide, by decide, by decide, by decide, fun _ _ => nofun, by decide⟩

theorem witness_IdleAfterReset : State.reset = State.afterReset Params.default 0 := rfl

theorem witness_ResetMeetsInvariant : ({ bitbufBits := 32, arenaDepth := 33 } : Params).legal = true ∧
    ({ bitbufBits := 32768, arenaDepth := 2 ^ 20 } : Params).legal = true := by decide

theorem step_buildTree (s : State) : ∃ t, step (s.withFetchWord 32 0x11000000) = .next t := by
  obtain ⟨t, h, -⟩ := engineStep_completes (s := { s.accept (BitVec.ofNat 32 (0x11000000 % 2 ^ 32)) with turns := s.turns }) rfl
  exact ⟨t, h⟩

/-- A state with weights, and the step that builds its tree. -/
theorem witness_StepKeepsInvariant : ((weighted [(0x61, 4)]).withFetchWord 32 0x11000000).Inv ∧
    ∃ t, step ((weighted [(0x61, 4)]).withFetchWord 32 0x11000000) = .next t :=
  ⟨(weighted_inv [(0x61, 4)]).control _ _ _ _ _ _ _ _ _ _ _ _, step_buildTree _⟩

theorem witness_EveryRunIsSafe : State.reset.Inv ∧ treeT1.Inv := ⟨State.Inv.afterReset (by decide) 0, treeT1_inv⟩

theorem witness_OnlyTheseCommandsWrite :
    (nextOf (exec (.nodeRead 0x101) readableT1)).map (fun t => (t.res0, t.res1)) = some (4, 0x80C70000) ∧
    readableT1.res0 ≠ 4 ∧ readableT1.res1 ≠ 0x80C70000 := by decide +kernel

theorem witness_LateEffectHazards : (∀ u, (Instr.nop 0) ≠ .genTable u) ∧ (∀ u, (Instr.nop 0) ≠ .decode u) ∧
    nextOf (exec (.nop 0) State.reset) = some (State.reset.finish .none) :=
  ⟨fun _ => nofun, fun _ => nofun, by decide⟩

end Sys2Proof.Tests
end

section
/-! PROOFS. The scheduler: what `step` does for each turn at the head of `turns` and, with no turn left, for each value of
BUSY (00_scope.md R9; log 2). -/

namespace Sys2Proof.Machine

/-! ### One equation of `step` per agent -/

theorem step_of_engine_turn {s : State} {rest : List Turn} (h : s.turns = .engine :: rest) :
    step s = engineStep { s with turns := rest } := by
  rw [step, h]

theorem step_of_host_turn {s : State} {rest : List Turn} (h : s.turns = .host :: rest) :
    step s = .next { s with turns := rest }.hostStep := by
  rw [step, h]

theorem step_of_reset_turn {s : State} {access : Bool} {rest : List Turn} (h : s.turns = .reset access :: rest) :
    step s = .next ({ s with turns := rest }.resetStep access) := by
  rw [step, h]

theorem step_of_busy {s : State} (h : s.turns = []) (hb : s.status.busy = true) : step s = engineStep s := by
  rw [step, h]
  exact if_pos hb

theorem step_of_idle {s : State} (h : s.turns = []) (hb : s.status.busy = false) : step s = .next s.hostStep := by
  rw [step, h]
  exact if_neg (by simp [hb])

/-! ### The word `withFetchWord` makes pending -/

/-- A numbered word that is a command decodes to it as the bus word with its low `nbits` bits (30_encoding.md R80). -/
theorem decode_of_decodeTableWord {nbits w : Nat} {i : Instr} (h : decodeTableWord nbits w = some i) :
    decode (BitVec.ofNat 32 (w % 2 ^ nbits)) = .ok i := by
  unfold decodeTableWord at h
  split at h
  next j hd => rw [hd, Option.some.inj h]
  next => cases h

/-- A step of the state `withFetchWord` makes takes off the engine's turn and completes the accepted word
(40_command_control.md R100, R101; log 12). -/
theorem step_withFetchWord {nbits w : Nat} {i : Instr} (s : State) (h : decodeTableWord nbits w = some i) :
    step (s.withFetchWord nbits w) = exec i (s.accept (BitVec.ofNat 32 (w % 2 ^ nbits))) :=
  (step_of_engine_turn rfl).trans
    (engineStep_ok (s := s.accept (BitVec.ofNat 32 (w % 2 ^ nbits))) rfl (decode_of_decodeTableWord h))

/-- Settles O7: each clause is the equation of `step` for its turn, followed by what the engine does with the pending
word. -/
theorem stepRunsTheDecodedCommand : Obligations.StepRunsTheDecodedCommand := by
  refine ⟨fun s i rest hb hd => ⟨fun ht => ?noTurn, fun ht => ?engineTurn⟩, fun s nbits w i h => step_withFetchWord s h,
    fun s rest access => ⟨step_of_idle, step_of_host_turn, step_of_reset_turn, fun ht hb => ?idleEngineTurn⟩⟩
  case noTurn => rw [step_of_busy ht hb, engineStep_ok hb hd]
  case engineTurn => rw [step_of_engine_turn ht, engineStep_ok (s := { s with turns := rest }) hb hd]
  case idleEngineTurn => rw [step_of_engine_turn ht, engineStep_idle (s := { s with turns := rest }) hb]

end Sys2Proof.Machine
end

section
/-! PROOFS. The invariant of Safety.lean under a command's completion, a pending word and a step of any agent
(spec/10_state.md R27 to R42; spec/40_command_control.md R104, R107). -/

namespace Sys2Proof.Machine

@[simp] theorem stagedCode_length (s : State) (len : Nat) : (s.stagedCode len).length = len := by
  simp [State.stagedCode]

namespace State.Inv

variable {s : State}

/-- The schedule is free in the invariant. -/
theorem withTurns (h : s.Inv) (rest : List Turn) : { s with turns := rest }.Inv :=
  h.control s.ctrl s.status s.arg0 s.res0 s.res1 s.codeStage s.codeOut s.pend s.prog s.reads rest s.draws

/-- The result registers are free in the invariant. -/
theorem results (h : s.Inv) (r0 r1 : Word) (co : Vector Word 8) :
    { s with res0 := r0, res1 := r1, codeOut := co }.Inv :=
  h.control s.ctrl s.status s.arg0 r0 r1 s.codeStage co s.pend s.prog s.reads s.turns s.draws

theorem nodeRead (h : s.Inv) (id : BitVec 16) : (s.nodeRead id).Inv := by
  rw [State.nodeRead]
  split_ifs
  · exact h.finish .noTree
  · exact h.finish .badOperand
  · exact (h.results _ _ s.codeOut).finish .none
  · exact (h.results _ _ s.codeOut).finish .none

theorem tableRead (h : s.Inv) (sym : Symbol) : (s.tableRead sym).Inv := by
  rw [State.tableRead]
  split
  · exact (h.results _ s.res1 _).finish .none
  · exact (h.results _ s.res1 _).finish .unknownSymbol

end State.Inv

/-- Each of the twelve commands keeps the invariant. -/
theorem exec_keeps_inv {i : Instr} {s t : State} (h : s.Inv) (ht : exec i s = .next t) : t.Inv := by
  cases i with
  | nop u => cases ht; exact h.finish .none
  | clearWeights u => cases ht; exact h.clearWeights.finish .none
  | buildTree u => cases ht; exact h.buildTree.finish _
  | nodeRead id => cases ht; exact h.nodeRead id
  | tableClear u => cases ht; exact h.clearTable.finish .none
  | genTable u => cases ht; exact h.genTable
  | tableWrite sym len =>
    cases ht
    have hlen : (s.stagedCode len.toNat).length ≤ 255 := by
      rw [stagedCode_length]
      exact Nat.le_of_lt_succ len.isLt
    exact (h.setCode sym hlen).finish .none
  | tableDelete sym u => cases ht; exact (h.eraseCode sym).finish .none
  | tableRead sym u => cases ht; exact h.tableRead sym
  | bitbufClear u => cases ht; exact h.clearInput.finish .none
  | bitbufAppend n => cases ht; exact h.bitbufAppend n
  | decode u => cases ht; exact h.commitSearch

/-- The engine's turn keeps the invariant: with nothing pending, on an illegal word and on a command. -/
theorem engineStep_keeps_inv {s t : State} (h : s.Inv) (ht : engineStep s = .next t) : t.Inv := by
  cases hb : s.status.busy with
  | false =>
    rw [engineStep_idle hb] at ht
    cases ht
    exact h
  | true =>
    cases hd : decode s.pend with
    | error r =>
      rw [engineStep_error hb hd] at ht
      cases ht
      exact h.finish .illegalCommand
    | ok i =>
      rw [engineStep_ok hb hd] at ht
      exact exec_keeps_inv h ht

/-- Settles O56, by the agent that moves: the invariant under the engine's step, a host access and a cycle in reset. -/
theorem stepKeepsInvariant : Obligations.StepKeepsInvariant := by
  intro s t h ht
  match hs : s.turns with
  | .engine :: rest =>
    rw [step_of_engine_turn hs] at ht
    exact engineStep_keeps_inv (h.withTurns rest) ht
  | .host :: rest =>
    rw [step_of_host_turn hs] at ht
    cases ht
    exact (h.withTurns rest).hostStep
  | .reset access :: rest =>
    rw [step_of_reset_turn hs] at ht
    cases ht
    exact (h.withTurns rest).resetStep access
  | [] =>
    cases hb : s.status.busy with
    | true =>
      rw [step_of_busy hs hb] at ht
      exact engineStep_keeps_inv h ht
    | false =>
      rw [step_of_idle hs hb] at ht
      cases ht
      exact h.hostStep

end Sys2Proof.Machine
end

section
/-! PROOFS. The STATUS and MAXLEN words on the bus (spec/10_state.md R25, R28; spec/60_exceptions.md R200). -/

namespace Sys2Proof.Machine

/-- Settles O17: the read is the STATUS word, whose fields are those of the register, and the write clears ones. -/
theorem statusRegister : Obligations.StatusRegister := by
  intro s a v ha
  obtain ⟨hbusy, hdone, hlost, hign, hlow, herr, hhigh⟩ := s.status.toWord_fields
  refine ⟨⟨s.status.toWord, memRead_status ha, hbusy, hdone, hlost, hign, hlow, ?errNumber, hhigh⟩, memWrite_status ha v⟩
  case errNumber =>
    rw [herr]
    cases s.status.err <;> rfl

theorem maxLen_eq_zero {s : State} (h : ∀ x, s.code x = none) : s.maxLen = 0 := by
  rcases maxLen_attained s with h0 | ⟨x, c, hc, -⟩
  · exact h0
  · simp [h x] at hc

/-- When the codes fit the ROM, so does the longest of them (10_state.md R28, R38). -/
theorem maxLen_le {s : State} (h : s.CodesFit) : s.maxLen ≤ 255 := by
  rcases maxLen_attained s with h0 | ⟨x, c, hc, hm⟩
  · omega
  · exact hm ▸ h x c hc

theorem regionOf_maxlen {s : State} {a : Addr} (h : wordAddress a = 0x020) : s.regionOf a = .maxlen := by
  rw [State.regionOf, h]
  rfl

/-- The MAXLEN word holds maxCodeLength uncut (10_state.md R28). -/
theorem memRead_maxlen {s : State} {a : Addr} (h : s.CodesFit) (ha : wordAddress a = 0x020)
    (hb : s.status.busy = false) : ∃ x, s.memRead a = (x, s) ∧ x.toNat = s.maxLen := by
  refine ⟨BitVec.ofNat 32 s.maxLen, by rw [memRead_idle hb, regionOf_maxlen ha]; rfl, ?_⟩
  have := maxLen_le h
  rw [BitVec.toNat_ofNat, Nat.mod_eq_of_lt (by omega)]

/-- Settles O18: MAXLEN reads maxCodeLength, an upper bound of the code lengths that is 0 or attained. -/
theorem maxCodeLength : Obligations.MaxCodeLength := by
  refine ⟨fun s a hfit ha hb => ?_, fun p n => maxLen_eq_zero (fun x => rfl)⟩
  obtain ⟨x, hread, hx⟩ := memRead_maxlen hfit ha hb
  refine ⟨x, hread, fun y c hc => hx ▸ length_le_maxLen hc, fun hnone => ?_, fun hne => ?_⟩
  · exact BitVec.eq_of_toNat_eq (hx.trans (maxLen_eq_zero hnone))
  · rcases maxLen_attained s with h0 | ⟨y, c, hc, hm⟩
    · exact absurd (BitVec.eq_of_toNat_eq (y := 0) (hx.trans h0)) hne
    · exact ⟨y, c, hc, by rw [hx, hm]⟩

end Sys2Proof.Machine
end

section
/-! PROOFS. The frame of each command: the fields it may write, everything else being as it was
(spec/70_reset_and_hazards.md R236). -/

namespace Sys2Proof.Machine

/-- What a command may write beside the flags; every field not named is as it was. -/
def WritesOnly : Instr → State → State → Prop
  | .nop _, s, t => ∃ st, t = { s with status := st }
  | .clearWeights _, s, t => ∃ w st, t = { s with w := w, status := st }
  | .buildTree _, s, t => ∃ lw nodes tree st, t = { s with lw := lw, nodes := nodes, tree := tree, status := st }
  | .nodeRead _, s, t => ∃ r0 r1 st, t = { s with res0 := r0, res1 := r1, status := st }
  | .tableClear _, s, t | .genTable _, s, t | .tableWrite _ _, s, t | .tableDelete _ _, s, t =>
    ∃ table st, t = { s with table := table, status := st }
  | .tableRead _ _, s, t => ∃ r0 co st, t = { s with res0 := r0, codeOut := co, status := st }
  | .bitbufClear _, s, t => ∃ n st, t = { s with bitLen := n, status := st }
  | .bitbufAppend _, s, t => ∃ bits n st, t = { s with bits := bits, bitLen := n, status := st }
  | .decode _, s, t => ∃ out n arena used st,
    t = { s with out := out, outLen := n, arena := arena, arenaUsed := used, status := st }

/-- BUILD_TREE writes LW, IN and TREE alone, whatever the weights (41_tree_builder.md R122). -/
theorem buildTree_frame (s : State) : ∃ lw nodes tree, s.buildTree.1 = { s with lw := lw, nodes := nodes, tree := tree } := by
  by_cases h : s.initialList = []
  · rw [State.buildTree, if_pos h]
    exact ⟨_, s.nodes, _, rfl⟩
  · obtain ⟨t, hb, -, -, -, hframe, -⟩ := buildTree_spec s h
    rw [hb]
    exact ⟨_, _, _, hframe⟩

theorem exec_writesOnly {i : Instr} {s t : State} (ht : exec i s = .next t) : WritesOnly i s t := by
  cases i with
  | nop u => cases ht; exact ⟨_, rfl⟩
  | clearWeights u => cases ht; exact ⟨_, _, rfl⟩
  | buildTree u =>
    cases ht
    obtain ⟨lw, nodes, tree, hframe⟩ := buildTree_frame s
    rw [hframe]
    exact ⟨lw, nodes, tree, _, rfl⟩
  | nodeRead id =>
    cases ht
    rw [State.nodeRead]
    split_ifs
    · exact ⟨s.res0, s.res1, _, rfl⟩
    · exact ⟨s.res0, s.res1, _, rfl⟩
    · exact ⟨_, _, _, rfl⟩
    · exact ⟨_, _, _, rfl⟩
  | tableClear u => cases ht; exact ⟨_, _, rfl⟩
  | genTable u =>
    cases ht
    rw [State.genTable]
    split
    · exact ⟨s.table, _, rfl⟩
    · exact ⟨_, _, rfl⟩
  | tableWrite sym len => cases ht; exact ⟨_, _, rfl⟩
  | tableDelete sym u => cases ht; exact ⟨_, _, rfl⟩
  | tableRead sym u =>
    cases ht
    rw [State.tableRead]
    split <;> exact ⟨_, _, _, rfl⟩
  | bitbufClear u => cases ht; exact ⟨_, _, rfl⟩
  | bitbufAppend n =>
    cases ht
    rw [State.bitbufAppend]
    split_ifs
    · exact ⟨s.bits, s.bitLen, _, rfl⟩
    · exact ⟨s.bits, s.bitLen, _, rfl⟩
    · exact ⟨_, _, _, rfl⟩
  | decode u => cases ht; exact ⟨_, _, _, _, _, rfl⟩

/-- Settles O58: by its frame a command changes only the fields it may write. -/
theorem onlyTheseCommandsWrite : Obligations.OnlyTheseCommandsWrite := by
  intro i s t ht
  have hframe := exec_writesOnly ht
  clear ht
  cases i with
  | nop _ => obtain ⟨st, rfl⟩ := hframe; simp
  | clearWeights _ => obtain ⟨w, st, rfl⟩ := hframe; simp
  | buildTree _ => obtain ⟨lw, nodes, tree, st, rfl⟩ := hframe; simp
  | nodeRead _ => obtain ⟨r0, r1, st, rfl⟩ := hframe; simp
  | tableClear _ | genTable _ | tableWrite _ _ | tableDelete _ _ => obtain ⟨table, st, rfl⟩ := hframe; simp
  | tableRead _ _ => obtain ⟨r0, co, st, rfl⟩ := hframe; simp
  | bitbufClear _ => obtain ⟨n, st, rfl⟩ := hframe; simp
  | bitbufAppend _ => obtain ⟨bits, n, st, rfl⟩ := hframe; simp
  | decode _ => obtain ⟨out, n, arena, used, st, rfl⟩ := hframe; simp

end Sys2Proof.Machine
end

section
/-! PROOFS. The code table holds entries and no history: writes of distinct symbols commute, and no command sees how the
table is listed (spec/10_state.md R39). -/

namespace Sys2Proof.Machine

theorem Memory.write_comm {α : Type} {m : Memory α} (h : m.wf) {a b : Nat} (hab : a ≠ b) (x y : α) :
    Memory.write (Memory.write m a x) b y = Memory.write (Memory.write m b y) a x := by
  refine Memory.ext_of_wf (Memory.wf_write (Memory.wf_write h a x) b y) (Memory.wf_write (Memory.wf_write h b y) a x)
    (fun k => ?_)
  simp only [Memory.read_write]
  split_ifs with hb ha
  · exact absurd (ha.trans hb.symm) hab
  all_goals rfl

theorem setCode_comm {s : State} (h : s.table.wf) {x y : Symbol} (hxy : x ≠ y) (c d : BitString) :
    (s.setCode x c).setCode y d = (s.setCode y d).setCode x c := by
  have hne : x.toNat ≠ y.toNat := fun e => hxy (BitVec.eq_of_toNat_eq e)
  simp only [State.setCode, Memory.write_comm h hne]

/-- Two states that differ at most in how the table is listed, with the same entry for every symbol. -/
def SameButListing (s s' : State) : Prop := s' = { s with table := s'.table } ∧ ∀ x, s'.code x = s.code x

/-! ### A command sees the entries of the table and not its listing -/

theorem nodeRead_withTable (s : State) (m : Memory BitString) (id : BitVec 16) :
    { s with table := m }.nodeRead id = { s.nodeRead id with table := m } := by
  simp only [State.nodeRead]
  split_ifs <;> rfl

theorem bitbufAppend_withTable (s : State) (m : Memory BitString) (n : BitVec 16) :
    { s with table := m }.bitbufAppend n = { s.bitbufAppend n with table := m } := by
  simp only [State.bitbufAppend]
  split_ifs <;> rfl

/-- A command outside the code table's four writers keeps the table. -/
theorem exec_table_kept {i : Instr} {s t : State} (ht : exec i s = .next t)
    (hi : ¬((∃ u, i = .tableClear u) ∨ (∃ u, i = .genTable u) ∨ (∃ x l, i = .tableWrite x l) ∨
      ∃ x v, i = .tableDelete x v)) : t.table = s.table := by
  obtain ⟨-, -, -, -, htable, -⟩ := onlyTheseCommandsWrite i s t ht
  exact Classical.not_not.1 (mt htable hi)

section
variable {s : State} {m : Memory BitString} (hm : ∀ x, { s with table := m }.code x = s.code x)
include hm

/-- TABLE_READ sees the entry of its symbol alone (42_code_table_rom.md R146). -/
theorem tableRead_sameEntries (sym : Symbol) :
    { s with table := m }.tableRead sym = { s.tableRead sym with table := m } := by
  rw [State.tableRead, State.tableRead, hm sym]
  split <;> rfl

/-- DECODE's search sees the entries alone (43_decoder_fsm.md R163). -/
theorem decodeSearch_sameEntries : { s with table := m }.decodeSearch = s.decodeSearch :=
  search_code_congr (s := s) (s' := { s with table := m }) rfl rfl (fun _ => rfl) hm _ _ _

/-- GEN_TABLE keeps the two listings when there is no tree, and otherwise makes one table of both
(42_code_table_rom.md R141). -/
theorem genTable_sameListing : SameButListing s.genTable { s with table := m }.genTable := by
  by_cases hv : s.tree.valid = false
  · rw [State.genTable, State.genTable, if_pos hv, if_pos hv]
    exact ⟨rfl, hm⟩
  · rw [State.genTable, State.genTable, if_neg hv, if_neg hv, generatedTable_withTable s m]
    exact ⟨rfl, fun x => rfl⟩

theorem write_sameEntries (a : Nat) (c : BitString) (x : Symbol) :
    (m.write a c).read x.toNat = (s.table.write a c).read x.toNat := by
  rw [Memory.read_write, Memory.read_write, show m.read x.toNat = s.table.read x.toNat from hm x]

theorem erase_sameEntries (a : Nat) (x : Symbol) : (m.erase a).read x.toNat = (s.table.erase a).read x.toNat := by
  rw [Memory.read_erase, Memory.read_erase, show m.read x.toNat = s.table.read x.toNat from hm x]

/-- A command that keeps the table and sees its entries alone keeps both listings. -/
theorem exec_sameListing_of_table_kept {i : Instr} {t : State} (ht : exec i s = .next t)
    (ht' : exec i { s with table := m } = .next { t with table := m }) (hk : t.table = s.table) :
    ∃ t t', exec i s = .next t ∧ exec i { s with table := m } = .next t' ∧ SameButListing t t' :=
  ⟨t, _, ht, ht', rfl, fun x => (hm x).trans (code_congr hk x).symm⟩

theorem exec_sameListing (i : Instr) :
    ∃ t t', exec i s = .next t ∧ exec i { s with table := m } = .next t' ∧ SameButListing t t' := by
  cases i with
  | nop u => exact exec_sameListing_of_table_kept hm rfl rfl rfl
  | clearWeights u => exact exec_sameListing_of_table_kept hm rfl rfl rfl
  | buildTree u =>
    refine exec_sameListing_of_table_kept hm rfl ?_ (exec_table_kept (i := .buildTree u) rfl (by simp))
    rw [exec, execBuildTree, buildTree_withTable]
    rfl
  | nodeRead id =>
    exact exec_sameListing_of_table_kept hm rfl (congrArg Host.Outcome.next (nodeRead_withTable s m id))
      (exec_table_kept (i := .nodeRead id) rfl (by simp))
  | tableClear u => exact ⟨_, _, rfl, rfl, rfl, fun x => rfl⟩
  | genTable u => exact ⟨_, _, rfl, rfl, genTable_sameListing hm⟩
  | tableWrite sym len => exact ⟨_, _, rfl, rfl, rfl, write_sameEntries hm sym.toNat _⟩
  | tableDelete sym u => exact ⟨_, _, rfl, rfl, rfl, erase_sameEntries hm sym.toNat⟩
  | tableRead sym u =>
    exact exec_sameListing_of_table_kept hm rfl (congrArg Host.Outcome.next (tableRead_sameEntries hm sym))
      (exec_table_kept (i := .tableRead sym u) rfl (by simp))
  | bitbufClear u => exact exec_sameListing_of_table_kept hm rfl rfl rfl
  | bitbufAppend n =>
    exact exec_sameListing_of_table_kept hm rfl (congrArg Host.Outcome.next (bitbufAppend_withTable s m n))
      (exec_table_kept (i := .bitbufAppend n) rfl (by simp))
  | decode u =>
    refine exec_sameListing_of_table_kept hm rfl ?_ rfl
    rw [exec, execDecode, decodeSearch_sameEntries hm]
    rfl

end

/-- Settles O40: writes of distinct symbols commute on a table in form, and each command answers states that differ only in
the listing with states that differ only so. -/
theorem tableHasNoInsertionHistory : Obligations.TableHasNoInsertionHistory := by
  refine ⟨fun x y lx ly s hs hxy => ⟨_, _, _, rfl, rfl, rfl, ?commute⟩, fun i s s' heq hcode => ?blind⟩
  case commute =>
    have hcomm := setCode_comm hs.table.1 hxy (s.stagedCode lx.toNat) (s.stagedCode ly.toNat)
    exact congrArg (fun u : State => Host.Outcome.next ((u.finish .none).finish .none)) hcomm.symm
  case blind =>
    generalize s'.table = m at heq
    subst heq
    exact exec_sameListing hcode i

end Sys2Proof.Machine
end

section
/-! PROOFS. A run of steps from a state that meets the invariant: every step has an answer (spec/20_memory.md R67;
spec/30_encoding.md R84; spec/40_command_control.md R104). -/

namespace Sys2Proof.Machine

theorem engineStep_total (s : State) : ∃ t, engineStep s = .next t := by
  cases hb : s.status.busy with
  | false => exact ⟨s, engineStep_idle hb⟩
  | true =>
    obtain ⟨t, ht, -⟩ := engineStep_completes hb
    exact ⟨t, ht⟩

/-- No step faults and none is refused, whichever agent moves. -/
theorem step_total (s : State) : ∃ t, step s = .next t := by
  match hs : s.turns with
  | .engine :: rest =>
    rw [step_of_engine_turn hs]
    exact engineStep_total _
  | .host :: rest => exact ⟨_, step_of_host_turn hs⟩
  | .reset access :: rest => exact ⟨_, step_of_reset_turn hs⟩
  | [] =>
    cases hb : s.status.busy with
    | true =>
      rw [step_of_busy hs hb]
      exact engineStep_total s
    | false => exact ⟨_, step_of_idle hs hb⟩

/-- Settles O57, by induction on the number of steps: each step has an answer, which meets the invariant again. -/
theorem everyRunIsSafe : Obligations.EveryRunIsSafe := by
  intro n
  induction n with
  | zero => exact fun s h => h
  | succ n ih =>
    intro s h
    obtain ⟨t, ht⟩ := step_total s
    exact ⟨h, t, ht, ih t (stepKeepsInvariant s t h ht)⟩

end Sys2Proof.Machine
end

section
/-! PROOFS. An access to a word of known kind: what it reads and what a write there does, for each kind of word of the
address map (spec/20_memory.md R62 to R69; spec/40_command_control.md R103). -/

namespace Sys2Proof.Machine

/-! ### The word an address selects -/

/-- Clearing the ignored bits a second time changes nothing (20_memory.md R63). -/
theorem regionOf_mask (s : State) (a : Addr) : s.regionOf (a &&& 0xFFFC) = s.regionOf a := by
  rw [State.regionOf, State.regionOf, wordAddress, wordAddress, BitVec.and_assoc, BitVec.and_self]

/-- The map at a given word address. -/
theorem regionOf_eq {s : State} {a : Addr} {n : Nat} {r : Region} (ha : wordAddress a = n) (hr : regionAt s.params n = r) :
    s.regionOf a = r := by
  rw [State.regionOf, ha, hr]

/-- Settles O15: a read and a write see of the address only the word it selects. -/
theorem alignmentIsIgnored : Obligations.AlignmentIsIgnored := by
  intro s a v
  refine ⟨?read, ?write, ?arith⟩
  case read => rw [State.memRead, State.memRead, regionOf_mask]
  case write => rw [State.memWrite, State.memWrite, regionOf_mask]
  case arith =>
    rw [wordAddress_eq]
    omega

/-! ### Accesses by the kind of the word -/

section
variable {s : State} {a : Addr} {n : Nat} {r : Region}

theorem memRead_region (hb : s.status.busy = false) (ha : wordAddress a = n) (hr : regionAt s.params n = r) :
    s.memRead a = (s.valueAt r, s) := by
  rw [memRead_idle hb, regionOf_eq ha hr]

theorem memWrite_idle (hb : s.status.busy = false) (h1 : wordAddress a ≠ 0x008) (h2 : wordAddress a ≠ 0x00C) (v : Word) :
    s.memWrite a v = s.writeIdle v (s.regionOf a) := by
  rw [memWrite_other h1 h2, if_neg (by simp [hb])]

theorem memWrite_region (hb : s.status.busy = false) (ha : wordAddress a = n) (h1 : n ≠ 0x008) (h2 : n ≠ 0x00C)
    (hr : regionAt s.params n = r) (v : Word) : s.memWrite a v = s.writeIdle v r := by
  rw [memWrite_idle hb (ha ▸ h1) (ha ▸ h2), regionOf_eq ha hr]

/-- A word that a host may not write ignores the write, which sets WR_IGNORED while BUSY = 1 (20_memory.md R67). -/
theorem memWrite_not_writable (hp : s.params.legal = true) (h : ¬ writableWord (wordAddress a)) (v : Word) :
    s.memWrite a v = if s.status.busy then s.ignoreWrite else s := by
  have hkept : s.writeIdle v (s.regionOf a) = s := (regionAt_cases hp (wordAddress_aligned a)).2 h s v
  unfold writableWord at h
  rw [memWrite_other (by omega) (by omega), hkept]

end

/-! ### Registers -/

theorem extractLsb'_append_add {m k len : Nat} (i : Nat) (x : BitVec m) (y : BitVec k) :
    (x ++ y).extractLsb' (k + i) len = x.extractLsb' i len := by
  rw [BitVec.extractLsb'_append_eq_of_le (by omega), Nat.add_sub_cancel_left]

/-- The five fields of a word laid out as TREE is (10_state.md R27). -/
theorem fields_of_treeLayout (v : BitVec 1) (a : BitVec 7) (n : BitVec 8) (b : BitVec 7) (r : BitVec 9) :
    (v ++ a ++ n ++ b ++ r).extractLsb' 0 9 = r ∧ (v ++ a ++ n ++ b ++ r).extractLsb' 9 7 = b ∧
      (v ++ a ++ n ++ b ++ r).extractLsb' 16 8 = n ∧ (v ++ a ++ n ++ b ++ r).extractLsb' 24 7 = a ∧
      (v ++ a ++ n ++ b ++ r).getLsbD 31 = v.getLsbD 0 := by
  refine ⟨BitVec.extractLsb'_append_eq_right, ?_, ?_, ?_, ?_⟩
  · exact (extractLsb'_append_add 0 _ r).trans BitVec.extractLsb'_append_eq_right
  · exact (extractLsb'_append_add 7 _ r).trans
      ((extractLsb'_append_add 0 _ b).trans BitVec.extractLsb'_append_eq_right)
  · exact (extractLsb'_append_add 15 _ r).trans ((extractLsb'_append_add 8 _ b).trans
      ((extractLsb'_append_add 0 _ n).trans BitVec.extractLsb'_append_eq_right))
  · simp only [BitVec.getLsbD_append]
    rfl

/-- The fields of the TREE word (10_state.md R27). -/
theorem TreeReg.toWord_fields (t : TreeReg) :
    t.toWord.extractLsb' 0 9 = t.root ∧ t.toWord.extractLsb' 9 7 = 0 ∧ t.toWord.extractLsb' 16 8 = t.nodeCount ∧
      t.toWord.extractLsb' 24 7 = 0 ∧ t.toWord.getLsbD 31 = t.valid := by
  obtain ⟨hroot, hlow, hcount, hhigh, hvalid⟩ := fields_of_treeLayout (BitVec.ofBool t.valid) 0 t.nodeCount 0 t.root
  exact ⟨hroot, hlow, hcount, hhigh, hvalid.trans (by simp)⟩

/-- Settles O16: at each register's address the map gives the register, and the read its value and the same state. -/
theorem registerReadValues : Obligations.RegisterReadValues := by
  intro s a hb
  refine ⟨fun ha => memRead_region hb ha rfl, fun ha => ⟨_, memRead_region hb ha rfl, s.ctrl.toWord_fields⟩,
    fun ha => memRead_region hb ha rfl, fun ha => memRead_region hb ha rfl, fun ha => memRead_region hb ha rfl,
    fun ha => memRead_region hb ha rfl, fun ha => ⟨_, memRead_region hb ha rfl, s.tree.toWord_fields⟩,
    fun ha => memRead_region hb ha rfl, fun ha => memRead_region hb ha rfl, fun ha => memRead_region hb ha rfl,
    fun ha => memRead_region hb ha rfl, fun ha => memRead_region hb ha rfl,
    fun k ha => memRead_region hb ha (regionAt_codeStage _ k), fun k ha => memRead_region hb ha (regionAt_codeOut _ k)⟩

/-- Settles O19: the write of each register is the record update of `writeIdle`. -/
theorem registerWrites : Obligations.RegisterWrites := by
  intro s a v hb
  refine ⟨fun ha => memWrite_region hb ha (by decide) (by decide) rfl v,
    fun ha => memWrite_region hb ha (by decide) (by decide) rfl v, fun k ha => ⟨s.codeStage.set k v, ?_, ?_, ?_⟩⟩
  · exact memWrite_region hb ha (by omega) (by omega) (regionAt_codeStage _ k) v
  · exact Vector.getElem_set_self k.isLt
  · exact fun j hj => Vector.getElem_set_ne k.isLt j.isLt (fun e => hj (Fin.ext e.symm))

/-! ### The windows -/

/-- Settles O20: the word is W[s], a write to it is `setWeight`, and while BUSY = 1 the write is ignored. -/
theorem weightWindowAccess : Obligations.WeightWindowAccess := by
  intro s x a v ha
  have hr := regionAt_weight s.params x
  refine ⟨fun hb => ⟨memRead_region hb ha hr, s.setWeight x v, ?write, rfl, ?same, fun y hy => ?other⟩, fun hb => ?busy⟩
  case write => exact memWrite_region hb ha (by omega) (by omega) hr v
  case same => rw [weight_setWeight, if_pos rfl]
  case other => rw [weight_setWeight, if_neg hy]
  case busy =>
    rw [memWrite_other (by omega) (by omega), if_pos hb]
    rfl

/-- From the BITBUF window on no word is writable (20_memory.md R62). -/
theorem not_writableWord {n : Nat} (h : 0x1000 ≤ n) : ¬ writableWord n := by
  unfold writableWord
  omega

/-- No command but BITBUF_APPEND writes the input buffer (20_memory.md R65). -/
theorem exec_bits_kept {i : Instr} {s t : State} (ht : exec i s = .next t) (hi : ∀ n, i ≠ .bitbufAppend n) :
    t.bits = s.bits := by
  have hframe := exec_writesOnly ht
  clear ht
  cases i with
  | nop _ => obtain ⟨st, rfl⟩ := hframe; rfl
  | clearWeights _ => obtain ⟨w, st, rfl⟩ := hframe; rfl
  | buildTree _ => obtain ⟨lw, nodes, tree, st, rfl⟩ := hframe; rfl
  | nodeRead _ => obtain ⟨r0, r1, st, rfl⟩ := hframe; rfl
  | tableClear _ | genTable _ | tableWrite _ _ | tableDelete _ _ => obtain ⟨table, st, rfl⟩ := hframe; rfl
  | tableRead _ _ => obtain ⟨r0, co, st, rfl⟩ := hframe; rfl
  | bitbufClear _ => obtain ⟨n, st, rfl⟩ := hframe; rfl
  | bitbufAppend n => exact absurd rfl (hi n)
  | decode _ => obtain ⟨out, n, arena, used, st, rfl⟩ := hframe; rfl

/-- Bit k of a word of the BITBUF window (20_memory.md R65). -/
theorem bitbufWord_bit (s : State) (j : Nat) {k : Nat} (hk : k < 32) :
    (s.bitbufWord j).getLsbD k = if 32 * j + k < s.bitLen.toNat then s.bit (32 * j + k) else false := by
  rw [State.bitbufWord, wordOfBits_getLsbD _ hk]
  by_cases h : 32 * j + k < s.bitLen.toNat <;> simp [h]

/-- Settles O21: the window is read-only and reads BITS below BIT_LEN, and by their frames the commands keep BITS. -/
theorem bitbufWindowIsReadOnly : Obligations.BitbufWindowIsReadOnly := by
  refine ⟨fun s a j hp hj ha => ⟨fun hb => ?read, memWrite_not_writable hp (not_writableWord (by omega))⟩,
    fun i s t => exec_bits_kept⟩
  exact ⟨_, memRead_region hb ha (regionAt_bitbuf hp hj), fun k => bitbufWord_bit s j⟩

/-- Settles O22: the window is read-only and its word holds the four shown bytes, the first one lowest. -/
theorem outbufWindowIsReadOnly : Obligations.OutbufWindowIsReadOnly := by
  refine fun s a j hp hj ha => ⟨fun hb => ?read, memWrite_not_writable hp (not_writableWord (by omega))⟩
  exact ⟨_, memRead_region hb ha (regionAt_outbuf hp hj), fun b => outbufWord_byte s j⟩

/-- Settles O23: such a word is unmapped, whose read is stable and 0, and a word that is not writable ignores a write. -/
theorem unmappedAndReadOnlyWords : Obligations.UnmappedAndReadOnlyWords := by
  refine fun s a v hp => ⟨fun hro hwr => ?read, fun hwr => memWrite_not_writable hp hwr v⟩
  have hr : s.regionOf a = .unmapped := (regionAt_cases hp (wordAddress_aligned a)).1 hro hwr
  rw [memRead_stable (by rw [hr]; rfl), hr]
  rfl

/-! ### Repeated accesses -/

theorem Memory.write_write_same {α : Type} (m : Memory α) (a : Nat) (x y : α) :
    Memory.write (Memory.write m a x) a y = Memory.write m a y := by
  induction m with
  | nil => simp [Memory.write]
  | cons p m ih =>
    obtain ⟨b, z⟩ := p
    rcases Nat.lt_trichotomy a b with hlt | rfl | hgt
    · simp [Memory.write, hlt]
    · simp [Memory.write]
    · simp [Memory.write, show ¬ a < b by omega, show a ≠ b by omega, ih]

/-- A write while BUSY = 0 touches neither the flags nor the parameters. -/
theorem writeIdle_status_params (s : State) (v : Word) (r : Region) :
    (s.writeIdle v r).status = s.status ∧ (s.writeIdle v r).params = s.params := by
  cases r <;> exact ⟨rfl, rfl⟩

/-- Storing a value a second time stores nothing new. -/
theorem writeIdle_writeIdle (s : State) (v : Word) (r : Region) : (s.writeIdle v r).writeIdle v r = s.writeIdle v r := by
  cases r with
  | codeStage k => simp only [State.writeIdle, Vector.set_set]
  | weight x => simp only [State.writeIdle, State.setWeight, Memory.write_write_same]
  | _ => rfl

/-- Settles O25: with BUSY = 0 a read draws nothing, and a write keeps what selects the word, which then takes the same
value again. -/
theorem readsAndRepeatedWrites : Obligations.ReadsAndRepeatedWrites := by
  refine fun s a v hb => ⟨by rw [memRead_idle hb], fun h1 h2 => ?_⟩
  obtain ⟨hstatus, hparams⟩ := writeIdle_status_params s v (s.regionOf a)
  have hr : (s.writeIdle v (s.regionOf a)).regionOf a = s.regionOf a := by rw [State.regionOf, hparams, State.regionOf]
  rw [memWrite_idle hb h1 h2, memWrite_idle (by rw [hstatus, hb]) h1 h2, hr, writeIdle_writeIdle]

end Sys2Proof.Machine
end

section
/-! PROOFS. The decoder and the encoder are inverse, and a command's operands are the fields of its word
(spec/30_encoding.md R80 to R85). -/

namespace Sys2Proof

/-! ### The two directions -/

theorem decode_encode (i : Instr) : decode (encode i) = .ok i := by
  obtain ⟨hop, hrsv, himm⟩ := Laws.EncodeShape.of_fields i
  exact decode_of_fields hrsv hop himm

theorem encode_of_decode {w : Word} {i : Instr} (h : decode w = .ok i) : encode i = w := by
  obtain ⟨hrsv, hop, himm⟩ := fields_of_decode h
  rw [encode, ← hop, ← himm, ← hrsv, word_of_fields]

/-- Settles O1: the encoder's fields are those the decoder reads, and a word is its three fields. -/
theorem decodeAndEncodeAgree : Obligations.DecodeAndEncodeAgree := ⟨decode_encode, fun _ _ => encode_of_decode⟩

/-- Settles O3: the first seven words are encodings of their commands, the last three fail the decoder's two checks. -/
theorem sampleWordsDecode : Obligations.SampleWordsDecode :=
  ⟨decode_encode (.nop 0), decode_encode (.clearWeights 0), decode_encode (.nodeRead 0x101),
    decode_encode (.tableWrite 0x63 3), decode_encode (.tableRead 0x62 0), decode_encode (.bitbufAppend 5),
    decode_encode (.decode 0), decode_reserved (by decide), decode_unassigned (by decide) (by decide),
    decode_unassigned (by decide) (by decide)⟩

/-! ### The operands of a word -/

/-- The command of the same kind whose operands are the fields of the word v (30_encoding.md R81). -/
def Instr.withOperandsOf (v : Word) : Instr → Instr
  | .nop _ => .nop (immField v)
  | .clearWeights _ => .clearWeights (immField v)
  | .buildTree _ => .buildTree (immField v)
  | .nodeRead _ => .nodeRead (immField v)
  | .tableClear _ => .tableClear (immField v)
  | .genTable _ => .genTable (immField v)
  | .tableWrite _ _ => .tableWrite (symField v) (lenField v)
  | .tableDelete _ _ => .tableDelete (symField v) (lenField v)
  | .tableRead _ _ => .tableRead (symField v) (lenField v)
  | .bitbufClear _ => .bitbufClear (immField v)
  | .bitbufAppend _ => .bitbufAppend (immField v)
  | .decode _ => .decode (immField v)

@[simp] theorem opcode_withOperandsOf (v : Word) (i : Instr) : opcode (i.withOperandsOf v) = opcode i := by
  cases i <;> rfl

@[simp] theorem immediate_withOperandsOf (v : Word) (i : Instr) : immediate (i.withOperandsOf v) = immField v := by
  cases i with
  | tableWrite _ _ | tableDelete _ _ | tableRead _ _ => exact immField_halves v
  | _ => rfl

/-- OP and RSV alone select the kind of a command (30_encoding.md R82, R83). -/
theorem decode_withOperandsOf {v : Word} {i : Instr} (hrsv : rsvField v = 0) (hop : opField v = opcode i) :
    decode v = .ok (i.withOperandsOf v) :=
  decode_of_fields hrsv (hop.trans (opcode_withOperandsOf v i).symm) (immediate_withOperandsOf v i).symm

/-- A decoded command has the operands of its own word. -/
theorem withOperandsOf_of_decode {w : Word} {i : Instr} (h : decode w = .ok i) : i.withOperandsOf w = i := by
  obtain ⟨hrsv, hop, -⟩ := fields_of_decode h
  exact Except.ok.inj ((decode_withOperandsOf hrsv hop).symm.trans h)

/-- Words with the same upper half agree in OP and RSV. -/
theorem op_rsv_of_upper_half {w v : Word} (h : w.extractLsb' 16 16 = v.extractLsb' 16 16) :
    opField v = opField w ∧ rsvField v = rsvField w := by
  have split (x : Word) : opField x = (x.extractLsb' 16 16).extractLsb' 8 8 ∧
      rsvField x = (x.extractLsb' 16 16).extractLsb' 0 8 := by
    constructor <;> apply BitVec.eq_of_getLsbD_eq <;> intro i hi
    · simp [opField, hi, show 8 + i < 16 by omega, ← Nat.add_assoc]
    · simp [rsvField, hi, show i < 16 by omega]
  rw [(split v).1, (split w).1, (split v).2, (split w).2, h]
  exact ⟨rfl, rfl⟩

/-! ### The number a command's word is -/

theorem toNat_append_eq_add {m n : Nat} (x : BitVec m) (y : BitVec n) :
    (x ++ y).toNat = x.toNat * 2 ^ n + y.toNat := by
  rw [BitVec.toNat_append, ← Nat.shiftLeft_add_eq_or_of_lt y.isLt, Nat.shiftLeft_eq]

/-- OP weighs 2^24 in the word and IMM16 starts at bit 0 (30_encoding.md R80). -/
theorem encode_toNat (i : Instr) : (encode i).toNat = (opcode i).toNat * 2 ^ 24 + (immediate i).toNat := by
  calc (encode i).toNat
      _ = (opcode i ++ (0 : BitVec 8)).toNat * 2 ^ 16 + (immediate i).toNat := toNat_append_eq_add _ _
      _ = (opcode i).toNat * 2 ^ 8 * 2 ^ 16 + (immediate i).toNat := by
        rw [toNat_append_eq_add, BitVec.ofNat_eq_ofNat, BitVec.toNat_zero, Nat.add_zero]
      _ = (opcode i).toNat * 2 ^ 24 + (immediate i).toNat := by omega

theorem encode_tableWrite {sym len : Nat} (hs : sym ≤ 255) (hl : len ≤ 255) :
    encode (.tableWrite (BitVec.ofNat 8 sym) (BitVec.ofNat 8 len)) = BitVec.ofNat 32 (0x22000000 + len * 256 + sym) := by
  have himm : (immediate (.tableWrite (BitVec.ofNat 8 sym) (BitVec.ofNat 8 len))).toNat =
      (BitVec.ofNat 8 len).toNat * 2 ^ 8 + (BitVec.ofNat 8 sym).toNat := toNat_append_eq_add _ _
  apply BitVec.eq_of_toNat_eq
  rw [encode_toNat, himm, show (opcode (.tableWrite _ _)).toNat = 0x22 from rfl]
  simp only [BitVec.toNat_ofNat]
  omega

theorem encode_bitbufAppend {n : Nat} (h : n ≤ 0xFFFF) :
    encode (.bitbufAppend (BitVec.ofNat 16 n)) = BitVec.ofNat 32 (0x31000000 + n) := by
  apply BitVec.eq_of_toNat_eq
  rw [encode_toNat, show (opcode (.bitbufAppend _)).toNat = 0x31 from rfl]
  simp only [immediate, BitVec.toNat_ofNat]
  omega

end Sys2Proof
end

section
/-! PROOFS. The bits a command ignores (spec/30_encoding.md R83), and the words and statements the lines of a host program
assemble to (R86 to R88). -/

namespace Sys2Proof.Machine

/-! ### Ignored operand bits -/

/-- The seven commands that ignore all of IMM16 take any value there (30_encoding.md R83). -/
theorem exec_withOperandsOf_of_ignored {i : Instr} (h : opcode i ∈ [(0x00 : BitVec 8), 0x10, 0x11, 0x20, 0x21, 0x30, 0x32])
    (v : Word) (s : State) : exec (i.withOperandsOf v) s = exec i s := by
  cases i with
  | nodeRead _ | tableWrite _ _ | tableDelete _ _ | tableRead _ _ | bitbufAppend _ => exact absurd h (by simp [opcode])
  | _ => rfl

/-- TABLE_DELETE and TABLE_READ take from the word its symbol alone (30_encoding.md R83). -/
theorem exec_withOperandsOf_of_symField {i : Instr} (h : opcode i ∈ [(0x23 : BitVec 8), 0x24]) {w v : Word}
    (hsym : symField w = symField v) (s : State) : exec (i.withOperandsOf v) s = exec (i.withOperandsOf w) s := by
  cases i with
  | tableDelete _ _ => exact congrArg (fun x => execTableDelete x 0 s) hsym.symm
  | tableRead _ _ => exact congrArg (fun x => execTableRead x 0 s) hsym.symm
  | _ => exact absurd h (by simp [opcode])

/-- Settles O4: the other word is the same command with its own operands, of which `exec` uses those not ignored. -/
theorem ignoredOperandsHaveNoEffect : Obligations.IgnoredOperandsHaveNoEffect := by
  intro w v i hw hupper
  obtain ⟨hrsv, hop, -⟩ := fields_of_decode hw
  obtain ⟨hopv, hrsvv⟩ := op_rsv_of_upper_half hupper
  refine ⟨i.withOperandsOf v, decode_withOperandsOf (hrsvv.trans hrsv) (hopv.trans hop), fun hmem s => ?all,
    fun hmem hlow s => ?high⟩
  case all => exact exec_withOperandsOf_of_ignored (hop ▸ hmem) v s
  case high =>
    rw [exec_withOperandsOf_of_symField (w := w) (hop ▸ hmem) hlow s, withOperandsOf_of_decode hw]

/-! ### Command lines -/

theorem assemble_of_wellFormed {c : AsmCmd} (h : c.wellFormed = true) : assemble c = some (encode (asmInstr c)) := if_pos h

theorem assemble_of_not_wellFormed {c : AsmCmd} (h : c.wellFormed = false) : assemble c = none := if_neg (by simp [h])

/-- The ill-formed lines are the assembly errors (30_encoding.md R86). -/
theorem assembles_iff (c : AsmCmd) : (∃ w, assemble c = some w) ↔ c.wellFormed = true := by
  cases h : c.wellFormed with
  | true => simp [assemble_of_wellFormed h]
  | false => simp [assemble_of_not_wellFormed h]

/-- Settles O5: a well-formed line assembles to the encoding of its command, and its form is the range check of each
operand. -/
theorem assembledWordsDecode : Obligations.AssembledWordsDecode := by
  refine ⟨fun c hc => ⟨_, assemble_of_wellFormed hc, decode_encode _⟩, fun c => assemble_of_not_wellFormed,
    fun sym len hs hl => ?tableWriteWord, fun id => ?_, fun n => ?_, fun sym len => ?_, fun sym => ?_, fun sym => ?_⟩
  case tableWriteWord =>
    rw [assemble_of_wellFormed (by simp [AsmCmd.wellFormed, hs, hl]), asmInstr, encode_tableWrite hs hl]
  all_goals rw [assembles_iff]; simp only [AsmCmd.wellFormed, Bool.and_eq_true, decide_eq_true_eq]

/-! ### Pseudo-instructions -/

theorem packedWord_bit (bits : BitString) (k : Nat) {i : Nat} (h : i < 32) :
    (packedWord bits k).getLsbD i = bits.getD (32 * k + i) false := wordOfBits_getLsbD _ h

theorem chunksOf32_nil (fuel : Nat) : chunksOf32 fuel [] = [] := by cases fuel <;> rfl

theorem chunksOf32_flatten (fuel : Nat) (bits : BitString) (h : bits.length ≤ fuel) :
    (chunksOf32 fuel bits).flatten = bits := by
  fun_induction chunksOf32 fuel bits with
  | case1 bits => exact (List.length_eq_zero_iff.1 (by omega)).symm
  | case2 => rfl
  | case3 fuel b bits ih =>
    have hrest : ((b :: bits).drop 32).length ≤ fuel := by
      rw [List.length_drop]
      omega
    rw [List.flatten_cons, ih hrest, List.take_append_drop]

theorem chunksOf32_lengths (fuel : Nat) (bits : BitString) :
    ∀ c ∈ chunksOf32 fuel bits, 1 ≤ c.length ∧ c.length ≤ 32 := by
  fun_induction chunksOf32 fuel bits with
  | case1 | case2 => simp
  | case3 fuel b bits ih =>
    rw [List.forall_mem_cons]
    exact ⟨by simp [List.length_take], ih⟩

/-- Only the last chunk is shorter: a chunk with another after it left some bits over. -/
theorem chunksOf32_dropLast (fuel : Nat) (bits : BitString) : ∀ c ∈ (chunksOf32 fuel bits).dropLast, c.length = 32 := by
  fun_induction chunksOf32 fuel bits with
  | case1 | case2 => simp
  | case3 fuel b bits ih =>
    by_cases hrest : chunksOf32 fuel ((b :: bits).drop 32) = []
    · rw [hrest]
      simp
    · have hover : (b :: bits).drop 32 ≠ [] := fun e => hrest (by rw [e, chunksOf32_nil])
      have hlong : 32 < (b :: bits).length := by rwa [ne_eq, List.drop_eq_nil_iff, not_le] at hover
      rw [List.dropLast_cons_of_ne_nil hrest, List.forall_mem_cons]
      exact ⟨List.length_take_of_le hlong.le, ih⟩

/-- The statements of one chunk (30_encoding.md R87, R88). -/
theorem chunkStmts_eq {c : BitString} (h : c.length ≤ 32) :
    writeReg .arg0 (packedWord c 0) :: commandStmts (.bitbufAppend c.length) =
      [.write 0x010 (packedWord c 0), .write 0x00C (BitVec.ofNat 32 (0x31000000 + c.length)), .wait] := by
  rw [← encode_bitbufAppend (by omega)]
  rfl

/-- Settles O6: both lay bits out by `packedWord`, and `append` issues one BITBUF_APPEND per chunk of `chunksOf32`. -/
theorem pseudoInstructionsExpand : Obligations.PseudoInstructionsExpand := by
  refine ⟨fun bits _ => ⟨packedWord bits, rfl, fun k i _ => packedWord_bit bits k⟩, fun bits => ?append⟩
  have hlengths := chunksOf32_lengths bits.length bits
  refine ⟨chunksOf32 bits.length bits, chunksOf32_flatten _ bits le_rfl, hlengths, chunksOf32_dropLast _ bits,
    fun c => packedWord c 0, fun c i hi => ?bit, ?stmts⟩
  case bit => rw [packedWord_bit c 0 hi, Nat.mul_zero, Nat.zero_add]
  case stmts => exact List.flatMap_congr fun c hc => chunkStmts_eq (hlengths c hc).2

end Sys2Proof.Machine
end

section
/-! PROOFS. What each statement of a host program does in a host step (spec/30_encoding.md R90; log 11). -/

namespace Sys2Proof.Machine

variable {s : State} {rest : List HostStmt}

theorem hostStep_ended (h : s.prog = []) : s.hostStep = s := by rw [State.hostStep, h]

theorem hostStep_write {a : Addr} {v : Word} (h : s.prog = .write a v :: rest) :
    s.hostStep = { s with prog := rest }.memWrite a v := by
  rw [State.hostStep, h]

theorem hostStep_read {a : Addr} (h : s.prog = .read a :: rest) :
    s.hostStep = { (s.memRead a).2 with prog := rest, reads := (s.memRead a).1 :: s.reads } := by
  rw [State.hostStep, h]

/-- The bit a `wait` tests is BUSY. -/
theorem hostStep_wait (h : s.prog = .wait :: rest) :
    s.hostStep = if s.status.busy then s else { s with prog := rest } := by
  obtain ⟨hbusy, -⟩ := s.status.toWord_fields
  rw [State.hostStep, h]
  simp only [memRead_status (a := statusAddr) rfl, hbusy]

/-- Settles O14: the equation of `hostStep` for the statement at the head of the program, with BUSY put in. -/
theorem hostStatementsAreAccesses : Obligations.HostStatementsAreAccesses := by
  refine fun s rest a v => ⟨hostStep_write, fun h hb => ?read, fun h hb => ?stay, fun h hb => ?done, hostStep_ended⟩
  case read => rw [hostStep_read h, memRead_idle hb]
  case stay => rw [hostStep_wait h, hb, if_pos rfl]
  case done => rw [hostStep_wait h, if_neg (by simp [hb])]

end Sys2Proof.Machine
end

section
/-! PROOFS. Acceptance and the host's accesses while a command is pending: what a write and a read do then, and that the
completion does not see them (spec/40_command_control.md R101 to R105, R108). -/

namespace Sys2Proof.Machine

/-! ### Writes of CMD, and writes while BUSY = 1 -/

/-- Settles O8: with BUSY = 0 a write of the CMD word is `accept`. -/
theorem acceptanceEffects : Obligations.AcceptanceEffects := by
  intro s a w ha hb
  rw [memWrite_cmd ha, if_neg (by simp [hb])]
  rfl

theorem memWrite_cmd_busy {s : State} {a : Addr} (ha : wordAddress a = 0x00C) (hb : s.status.busy = true) (w : Word) :
    s.memWrite a w = s.loseCommand := by
  rw [memWrite_cmd ha, if_pos hb]

/-- Settles O10: by the word written, the write is `ignoreWrite`, `writeStatus` or `loseCommand`. -/
theorem writeWhileBusyIsIgnored : Obligations.WriteWhileBusyIsIgnored := by
  refine fun s a v hb => ⟨fun h1 h2 => ?other, fun ha => memWrite_status ha v, fun ha => memWrite_cmd_busy ha hb v⟩
  rw [memWrite_other h1 h2, if_pos hb]
  rfl

/-! ### Completion -/

/-- Settles O11: the completion law of a command, and that of a pending word. -/
theorem everyCommandCompletes : Obligations.EveryCommandCompletes := by
  refine ⟨exec_completes, fun s hb => ?pending⟩
  obtain ⟨t, ht, hstatus, -⟩ := engineStep_completes hb
  exact ⟨t, ht, hstatus⟩

/-- The completion does not see the flags, and carries over those it does not write (40_command_control.md R104, R108). -/
theorem engineStep_withStatus {s t : State} (hb : s.status.busy = true) (ht : engineStep s = .next t) {st : Status}
    (hst : st.busy = true) :
    engineStep { s with status := st } = .next { t with status := st.completed t.status.err } := by
  obtain ⟨t', ht', -, -, -, -, -, hpend, hprog, hreads, hturns, -, hdraws⟩ := engineStep_completes hb
  cases ht.symm.trans ht'
  refine (engineStep_withControl hb ht st hst s.prog s.reads s.turns s.draws).trans ?_
  rw [← hpend, ← hprog, ← hreads, ← hturns, ← hdraws]
  rfl

/-- Settles O9: `loseCommand` sets a flag that the completion carries over. -/
theorem commandWhileBusyIsLost : Obligations.CommandWhileBusyIsLost := by
  intro s a w ha hb
  obtain ⟨t, ht, hstatus, -⟩ := engineStep_completes hb
  have hflags : s.loseCommand.status.completed t.status.err = { t.status with cmdLost := true } := by rw [hstatus]; rfl
  refine ⟨memWrite_cmd_busy ha hb w, t, ht, ?_⟩
  rw [memWrite_cmd_busy ha hb w, ← hflags]
  exact engineStep_withStatus hb ht hb

/-! ### Host accesses while a command is pending -/

/-- However many accesses the host makes while a command is pending, they change the environment and flags alone, and
BUSY stays 1 (40_command_control.md R102 to R105). -/
theorem hostSteps_busy {s : State} (hb : s.status.busy = true) (n : Nat) :
    ∃ st pr rd dr, State.hostStep^[n] s = s.withControl st s.pend pr rd s.turns dr ∧ st.busy = true := by
  induction n with
  | zero => exact ⟨s.status, s.prog, s.reads, s.draws, rfl, hb⟩
  | succ n ih =>
    obtain ⟨st, pr, rd, dr, hn, hst⟩ := ih
    obtain ⟨st', pr', rd', dr', hstep, hst', -⟩ := hostStep_busy (s := s.withControl st s.pend pr rd s.turns dr) hst
    rw [Function.iterate_succ_apply', hn, hstep]
    exact ⟨st', pr', rd', dr', rfl, hst'⟩

/-- `blockOnly` sees neither the environment nor the sticky flags of a completed state. -/
theorem blockOnly_withControl {t : State} (hbusy : t.status.busy = false) (hdone : t.status.done = true) (st : Status)
    (pr : List HostStmt) (rd : List Word) (tu : List Turn) (dr : Nat) :
    (t.withControl (st.completed t.status.err) t.pend pr rd tu dr).blockOnly = t.blockOnly := by
  simp only [State.blockOnly, State.withControl, Status.completed, hbusy, hdone]

/-- Settles O12: the host's accesses end in the accepted state with another environment and other flags, and its completion
differs from that of the accepted state in no part that `blockOnly` keeps. -/
theorem resultIsFixedAtAcceptance : Obligations.ResultIsFixedAtAcceptance := by
  intro s w n
  have hb : (s.accept w).status.busy = true := rfl
  obtain ⟨st, pr, rd, dr, hn, hst⟩ := hostSteps_busy hb n
  obtain ⟨t, ht, hstatus, -, -, -, -, hpend, -⟩ := engineStep_completes hb
  refine ⟨t, _, ht, hn ▸ engineStep_withControl hb ht st hst pr rd _ dr, ?_⟩
  rw [← hpend]
  exact blockOnly_withControl (congrArg Status.busy hstatus) (congrArg Status.done hstatus) st pr rd _ dr

/-! ### Reads while BUSY = 1 -/

theorem memRead_stable_region {s : State} {a : Addr} {n : Nat} {r : Region} (ha : wordAddress a = n)
    (hr : regionAt s.params n = r) (h : r.stableWhileBusy = true) : s.memRead a = (s.valueAt r, s) := by
  rw [← regionOf_eq ha hr] at h ⊢
  exact memRead_stable h

/-- The words whose read is left open while BUSY = 1 (40_command_control.md R105). -/
theorem regionAt_open {p : Params} {n : Nat} (hp : p.legal = true) (h4 : n % 4 = 0)
    (h : (0x014 ≤ n ∧ n ≤ 0x02C) ∨ (0x060 ≤ n ∧ n ≤ 0x07C) ∨ (0x400 ≤ n ∧ n ≤ 0x7FC) ∨
      (0x1000 ≤ n ∧ n ≤ 0x1000 + p.bitbufBits / 8 - 4) ∨ (0x8000 ≤ n ∧ n ≤ 0x8000 + p.bitbufBits - 4)) :
    (regionAt p n).stableWhileBusy = false := by
  have hbounds := legal_bounds hp
  rcases h with hres | hcode | hweight | hbits | hout
  · obtain ⟨m, rfl⟩ := Nat.dvd_of_mod_eq_zero h4
    have hlow : 5 ≤ m := by omega
    have hhigh : m ≤ 11 := by omega
    interval_cases m <;> rfl
  · obtain ⟨k, rfl⟩ : ∃ k : Fin 8, n = 0x060 + 4 * k.val := ⟨⟨(n - 0x060) / 4, by omega⟩, by simp only; omega⟩
    rw [regionAt_codeOut]
    rfl
  · rw [regionAt_windows p (by omega), if_pos (by omega)]
    rfl
  · rw [regionAt_windows p (by omega), if_neg (by omega), if_pos (by omega)]
    rfl
  · rw [regionAt_windows p (by omega), if_neg (by omega), if_neg (by omega), if_pos (by omega)]
    rfl

/-- Settles O24: the listed words are stable, and the others draw an open value. -/
theorem readsWhileBusy : Obligations.ReadsWhileBusy := by
  refine fun s a hp hb => ⟨fun ha => memRead_stable_region ha rfl rfl, fun ha => memRead_stable_region ha rfl rfl,
    memRead_status, fun ha => memRead_stable_region ha rfl rfl, fun ha => memRead_stable_region ha rfl rfl,
    fun ha => memRead_stable_region ha rfl rfl, fun ha => memRead_stable_region ha rfl rfl,
    fun k ha => memRead_stable_region ha (regionAt_codeStage _ k) rfl, fun h => ?openWord⟩
  exact memRead_open hb (regionAt_open hp (wordAddress_aligned a) h)

end Sys2Proof.Machine
end

section
/-! PROOFS. The two control outcomes: NOP, and the illegal word (spec/40_command_control.md R106, R107). -/

namespace Sys2Proof.Machine

/-- The two causes of a rejection (30_encoding.md R84). -/
theorem decode_rejects_iff (w : Word) : (∃ r, Sys2Proof.decode w = .error r) ↔
    rsvField w ≠ 0 ∨ opField w ∉
      [(0x00 : BitVec 8), 0x10, 0x11, 0x12, 0x20, 0x21, 0x22, 0x23, 0x24, 0x30, 0x31, 0x32] := by
  constructor
  · rintro ⟨r, hr⟩
    by_contra hnot
    obtain ⟨hrsv, hop⟩ := not_or.1 hnot
    obtain ⟨i, hi⟩ := decode_total (not_not.1 hrsv) (not_not.1 hop)
    rw [hr] at hi
    cases hi
  · intro h
    by_cases hrsv : rsvField w = 0
    · exact ⟨_, decode_unassigned hrsv (h.resolve_left (not_not.2 hrsv))⟩
    · exact ⟨_, decode_reserved hrsv⟩

/-- The reason given is RSV exactly when RSV is not 0, since it is checked first (60_exceptions.md R202). -/
theorem decode_reserved_iff (w : Word) : Sys2Proof.decode w = .error .reservedNonzero ↔ rsvField w ≠ 0 := by
  refine ⟨fun h hrsv => ?_, decode_reserved⟩
  have hop := ((decode_rejects_iff w).1 ⟨_, h⟩).resolve_left (not_not.2 hrsv)
  rw [decode_unassigned hrsv hop] at h
  cases h

/-- The STATUS word after a completion with the sticky flags clear: ERR, and DONE alone below it (10_state.md R25). -/
theorem toWord_completed {t : Status} (hlost : t.cmdLost = false) (hign : t.wrIgnored = false) (code : ErrCode) :
    (t.completed code).toWord = (0 : BitVec 20) ++ code.number ++ (0x02 : BitVec 8) := by
  simp only [Status.toWord, completed_busy, completed_done, completed_cmdLost, completed_wrIgnored, completed_err,
    hlost, hign]
  cases code <;> rfl

/-- Settles O2: the decoder's two checks, and the completion of a word that fails one of them. -/
theorem illegalWordsAreRejected : Obligations.IllegalWordsAreRejected :=
  ⟨decode_reserved_iff, decode_rejects_iff, fun _ _ => engineStep_error,
    fun _ hlost hign => (toWord_completed hlost hign .illegalCommand).trans (by decide)⟩

/-- OP = 0 and RSV = 0 make the upper half of a NOP's word 0 (30_encoding.md R82). -/
theorem encode_nop (imm : BitVec 16) : encode (.nop imm) = (0 : BitVec 16) ++ imm :=
  congrArg (fun upper : BitVec 16 => upper ++ imm) (by decide : (0x00 : BitVec 8) ++ (0 : BitVec 8) = (0 : BitVec 16))

/-- Settles O26: such a word is the encoding of a NOP, and NOP is `finish` with the code NONE. -/
theorem nopChangesNothing : Obligations.NopChangesNothing := by
  refine ⟨fun imm => ?word, fun u s => rfl, fun u s hlost hign => ⟨s.finish .none, rfl, ?status⟩⟩
  case word => rw [← encode_nop, decode_encode]
  case status => exact (toWord_completed hlost hign .none).trans (by decide)

end Sys2Proof.Machine
end

section
/-! PROOFS. CLEAR_WEIGHTS and NODE_READ (spec/41_tree_builder.md R121, R125). -/

namespace Sys2Proof.Machine

/-! ### CLEAR_WEIGHTS -/

theorem weight_finish (s : State) (code : ErrCode) (x : Symbol) : (s.finish code).weight x = s.weight x := rfl

/-- An empty alphabet (41_tree_builder.md R122, step 2). -/
theorem buildTree_of_weights_zero {s : State} (h : ∀ x, s.weight x = 0) :
    s.buildTree = (s.snapshotWeights.dropTree, .emptyAlphabet) := by
  rw [State.buildTree, if_pos ((initialList_eq_nil_iff s).2 h)]

/-- Settles O27: the word is the encoding of CLEAR_WEIGHTS, which leaves only zero weights for the BUILD_TREE after it. -/
theorem clearWeightsZeroesWeights : Obligations.ClearWeightsZeroesWeights := by
  refine ⟨fun imm => decode_encode (.clearWeights imm),
    fun u s => ⟨_, rfl, rfl, weight_cleared s, fun v => ⟨_, rfl, ?err⟩⟩⟩
  case err =>
    rw [finish_status, completed_err,
      buildTree_of_weights_zero (fun x => (weight_finish _ _ x).trans (weight_cleared s x))]

/-! ### NODE_READ -/

section
variable {s : State} {id : BitVec 16}

theorem nodeRead_leaf {x : Symbol} (hv : s.tree.valid = true) (hid : id = x.setWidth 16) :
    s.nodeRead id = { s with res0 := s.leafWeight x, res1 := 0 }.finish .none := by
  have hx := x.isLt
  have hnat : id.toNat = x.toNat := by rw [hid, BitVec.toNat_setWidth]; omega
  have hsym : id.setWidth 8 = x := by rw [hid]; exact BitVec.setWidth_setWidth_of_le x (by decide)
  rw [State.nodeRead, if_neg (by simp [hv]), if_neg (by omega), if_pos (by omega), hsym]

theorem nodeRead_internal {k : Nat} (hv : s.tree.valid = true) (hk : k < s.tree.nodeCount.toNat) (hid : id.toNat = 256 + k) :
    s.nodeRead id = { s with res0 := nodeWordLow (s.node k), res1 := nodeWordHigh (s.node k) }.finish .none := by
  rw [State.nodeRead, if_neg (by simp [hv]), if_neg (by omega), if_neg (by omega), hid, Nat.add_sub_cancel_left]

end

/-- The fields of RES1 for an internal node (41_tree_builder.md R125). -/
theorem nodeWordHigh_fields (e : Node) :
    (nodeWordHigh e).getLsbD 31 = true ∧ (nodeWordHigh e).extractLsb' 26 5 = 0 ∧
      (nodeWordHigh e).extractLsb' 17 9 = e.right ∧ (nodeWordHigh e).extractLsb' 8 9 = e.left ∧
      (nodeWordHigh e).extractLsb' 0 8 = e.weight.extractLsb' 32 8 := by
  refine ⟨?_, ?_, ?_, ?_, BitVec.extractLsb'_append_eq_right⟩
  · simp only [nodeWordHigh, BitVec.getLsbD_append]
    rfl
  · exact (extractLsb'_append_add 18 _ _).trans ((extractLsb'_append_add 9 _ e.left).trans
      ((extractLsb'_append_add 0 _ e.right).trans BitVec.extractLsb'_append_eq_right))
  · exact (extractLsb'_append_add 9 _ _).trans
      ((extractLsb'_append_add 0 _ e.left).trans BitVec.extractLsb'_append_eq_right)
  · exact (extractLsb'_append_add 0 _ _).trans BitVec.extractLsb'_append_eq_right

/-- Settles O33: the two checks of `nodeRead` in their order, then its two kinds of node with the layout of RES1. -/
theorem nodeReadResults : Obligations.NodeReadResults := by
  refine ⟨fun id => decode_encode (.nodeRead id), fun id s => ⟨fun hv => ?noTree, fun hv hid => ?badOperand,
    fun x hv hid => ?leaf, fun k hv hk hid => ⟨_, congrArg Host.Outcome.next (nodeRead_internal hv hk hid), rfl, rfl,
      nodeWordHigh_fields (s.node k)⟩⟩⟩
  case noTree => exact congrArg Host.Outcome.next (if_pos hv)
  case badOperand => exact congrArg Host.Outcome.next ((if_neg (by simp [hv])).trans (if_pos hid))
  case leaf => exact congrArg Host.Outcome.next (nodeRead_leaf hv hid)

end Sys2Proof.Machine
end

section
/-! PROOFS. Candidate selection (spec/41_tree_builder.md R123). -/

namespace Sys2Proof.Machine

/-! ### A node more at the end of the working list -/

section
variable {wl : List NodeId}

theorem weightAt_append_left (s : State) (n : NodeId) {i : Nat} (hi : i < wl.length) :
    s.weightAt (wl ++ [n]) i = s.weightAt wl i := by
  rw [State.weightAt, List.getD_append _ _ _ _ hi, State.weightAt]

theorem weightAt_append_last (s : State) (wl : List NodeId) (n : NodeId) :
    s.weightAt (wl ++ [n]) wl.length = s.nodeWeight n := by
  rw [State.weightAt, List.getD_append_right _ _ _ _ le_rfl, Nat.sub_self, List.getD_cons_zero]

/-- The scan of positions of the shorter list does not see the added node. -/
theorem scan_append (s : State) (n : NodeId) {l : List Nat} {c : Nat × Nat} (hl : ∀ i ∈ l, i < wl.length)
    (h1 : c.1 < wl.length) (h2 : c.2 < wl.length) : l.foldl (s.scanStep (wl ++ [n])) c = l.foldl (s.scanStep wl) c := by
  induction l generalizing c with
  | nil => rfl
  | cons i l ih =>
    have hi : i < wl.length := hl i List.mem_cons_self
    have hstep : s.scanStep (wl ++ [n]) c i = s.scanStep wl c i := by
      simp only [State.scanStep, weightAt_append_left s n hi, weightAt_append_left s n h1, weightAt_append_left s n h2]
    have hrest := fun j hj => hl j (List.mem_cons_of_mem i hj)
    rw [List.foldl_cons, List.foldl_cons, hstep, State.scanStep]
    split_ifs
    · exact ih hrest hi h1
    · exact ih hrest h1 hi
    · exact ih hrest h1 h2

theorem seedPair_append (s : State) (n : NodeId) (h : 2 ≤ wl.length) : s.seedPair (wl ++ [n]) = s.seedPair wl := by
  rw [State.seedPair, weightAt_append_left s n (by omega), weightAt_append_left s n (by omega), State.seedPair]

theorem seedPair_lt (s : State) (h : 2 ≤ wl.length) : (s.seedPair wl).1 < wl.length ∧ (s.seedPair wl).2 < wl.length := by
  rw [State.seedPair]
  split <;> exact ⟨by omega, by omega⟩

/-- Selection is the seed of two nodes and one scan step for each node after them (41_tree_builder.md R123). -/
theorem select_append (s : State) (n : NodeId) (h : 2 ≤ wl.length) :
    s.select (wl ++ [n]) = s.scanStep (wl ++ [n]) (s.select wl) wl.length := by
  obtain ⟨h1, h2⟩ := seedPair_lt s h
  have hpositions : List.range' 2 ((wl ++ [n]).length - 2) = List.range' 2 (wl.length - 2) ++ [wl.length] := by
    rw [List.length_append, List.length_singleton, show wl.length + 1 - 2 = wl.length - 2 + 1 by omega, List.range'_concat,
      show 2 + 1 * (wl.length - 2) = wl.length by omega]
  have hbelow : ∀ i ∈ List.range' 2 (wl.length - 2), i < wl.length := by
    intro i hi
    have := (List.mem_range'_1.1 hi).2
    omega
  rw [State.select, hpositions, List.foldl_append, seedPair_append s n h, scan_append s n hbelow h1 h2,
    List.foldl_cons, List.foldl_nil, State.select]

end

/-! ### What the least weight says of the position selected -/

section
variable {w : Nat → Nat} {m : Nat} {c : Nat × Nat}

/-- No position of the scan after the one selected is as light. -/
theorem Scanned.le_of_least (h : Scanned w m c) {i : Nat} (h2 : 2 ≤ i) (hi : i < m) (hw : w i = w c.1) : i ≤ c.1 := by
  by_contra hlt
  by_cases hc : c.1 < 2
  · have := (h.seed hc).1 i h2 hi
    omega
  · have := h.last (by omega) i (by omega) hi
    omega

/-- When no position of the scan is as light, the seed decides. -/
theorem Scanned.eq_seed (h : Scanned w m c) (hnone : ∀ i, 2 ≤ i → i < m → w i ≠ w c.1) :
    c.1 = if w 0 = w c.1 then 0 else 1 := by
  have hc : c.1 < 2 := by
    by_contra hge
    exact hnone c.1 (by omega) h.smLt rfl
  rcases (by omega : c.1 = 0 ∨ c.1 = 1) with h0 | h1
  · rw [h0, if_pos rfl]
  · have := (h.seed hc).2 h1
    rw [h1, if_neg (by omega)]

end

/-- Settles O31: the seed, one scan step for a node more, and the properties that the scan keeps. -/
theorem candidateSelectionRule : Obligations.CandidateSelectionRule := by
  intro s wl h
  have hscan := select_scanned s wl h
  refine ⟨fun h2 => ?seed, fun n => ?step, hscan.smLt, hscan.ssLt, hscan.ne, hscan.least _ hscan.ssLt,
    fun j hj h1 _ => hscan.second j hj h1, fun i h2 hi hw => hscan.le_of_least h2 hi (congrArg BitVec.toNat hw),
    fun hnone => ?tie⟩
  case seed => rw [State.select, h2]; rfl
  case step =>
    rw [select_append s n h, State.scanStep, weightAt_append_last, weightAt_append_left s n hscan.smLt,
      weightAt_append_left s n hscan.ssLt]
    rfl
  case tie =>
    have := hscan.eq_seed (fun i h2 hi hw => hnone i h2 hi (BitVec.eq_of_toNat_eq hw))
    simpa only [BitVec.toNat_inj, State.weightAt] using this

end Sys2Proof.Machine
end

section
/-! PROOFS. BUILD_TREE: the alphabets it starts from, the loop of merges it runs, the tree it leaves, and that two blocks
with the same weights build the same tree (spec/41_tree_builder.md R122, R124, R127). -/

namespace Sys2Proof.Machine

/-! ### The alphabet -/

section
variable {s : State}

theorem initialList_ne_nil (h : ∃ x, s.weight x ≠ 0) : s.initialList ≠ [] := by
  obtain ⟨x, hx⟩ := h
  exact fun hnil => hx ((initialList_eq_nil_iff s).1 hnil x)

theorem initialList_length (s : State) :
    s.initialList.length = (allSymbols.filter (fun x => s.weight x != 0)).length := by
  rw [State.initialList, List.length_map]

/-- A single symbol of nonzero weight is the whole working list. -/
theorem initialList_eq_singleton {x : Symbol} (hx : s.weight x ≠ 0) (hrest : ∀ y, y ≠ x → s.weight y = 0) :
    s.initialList = [leafId x] := by
  have hmem : ∀ id, id ∈ s.initialList ↔ id ∈ [leafId x] := by
    intro id
    rw [mem_initialList, List.mem_singleton]
    constructor
    · rintro ⟨hleaf, hw⟩
      have hsym : leafSymbol id = x := not_not.1 (fun hne => hw (hrest _ hne))
      rw [← hsym, leafId_leafSymbol hleaf]
    · rintro rfl
      exact ⟨isLeaf_leafId x, by rwa [leafSymbol_leafId]⟩
  exact List.perm_singleton.1 ((List.perm_ext_iff_of_nodup (initialList_nodup s) (List.nodup_singleton _)).2 hmem)

/-- The working list by the numbers of the symbols. -/
theorem initialList_eq_range (s : State) : s.initialList =
    ((List.range 256).filter (fun n => s.weight (BitVec.ofNat 8 n) != 0)).map (BitVec.ofNat 9) := by
  rw [State.initialList, allSymbols, List.filter_map, List.map_map]
  refine List.map_congr_left (fun n hn => BitVec.eq_of_toNat_eq ?_)
  have hlt : n < 256 := List.mem_range.1 (List.mem_of_mem_filter hn)
  rw [Function.comp_apply, leafId_toNat, BitVec.toNat_ofNat, BitVec.toNat_ofNat]
  omega

end

/-! ### The loop -/

theorem mergeLoop_singleton (fuel : Nat) (s : State) (n : NodeId) (k : Nat) :
    State.mergeLoop fuel s [n] k = (s, [n], k) := by
  cases fuel with
  | zero => rfl
  | succ fuel => rw [State.mergeLoop, if_pos (by simp)]

theorem mergeLoop_succ {wl : List NodeId} (h : 2 ≤ wl.length) (fuel : Nat) (s : State) (k : Nat) :
    State.mergeLoop (fuel + 1) s wl k =
      State.mergeLoop fuel (s.mergeNode wl (s.select wl) k) (mergeList wl (s.select wl) k) (k + 1) := by
  rw [State.mergeLoop, if_neg (by omega)]

/-- Node by node, the working list after a merge: `i` counts the positions with the second-smaller's left out. -/
theorem mergeList_getD (wl : List NodeId) (c : Nat × Nat) (k : Nat) {i : Nat} (h1 : c.1 < wl.length) :
    (mergeList wl c k).getD i 0 =
      if (if i < c.2 then i else i + 1) = c.1 then internalId k else wl.getD (if i < c.2 then i else i + 1) 0 := by
  have hset : ∀ j, (wl.set c.1 (internalId k)).getD j 0 = if j = c.1 then internalId k else wl.getD j 0 := by
    intro j
    split_ifs with hj
    · rw [hj, List.getD_eq_getElem?_getD, List.getElem?_set_self h1, Option.getD_some]
    · rw [List.getD_eq_getElem?_getD, List.getElem?_set_ne (Ne.symm hj), List.getD_eq_getElem?_getD]
  rw [← hset, mergeList, List.getD_eq_getElem?_getD, List.getElem?_eraseIdx, List.getD_eq_getElem?_getD]
  split <;> rfl

theorem exec_buildTree {s t : State} {code : ErrCode} (u : BitVec 16) (h : s.buildTree = (t, code)) :
    exec (.buildTree u) s = .next (t.finish code) :=
  congrArg (fun r : State × ErrCode => Host.Outcome.next (r.1.finish r.2)) h

/-- BUILD_TREE is the loop on the snapshot, from the symbols of nonzero weight (41_tree_builder.md R122). -/
theorem buildTree_of_nonzero {s : State} (h : s.initialList ≠ []) :
    s.buildTree = (commitTree (State.mergeLoop s.initialList.length s.snapshotWeights s.initialList 0), .none) := by
  rw [State.buildTree, if_neg h]

/-- The loop BUILD_TREE runs ends with the root, n − 1 merges and a state in which IN alone has changed. -/
theorem mergeLoop_of_snapshot {s : State} (h : s.initialList ≠ []) {fuel : Nat} (hf : s.initialList.length ≤ fuel) :
    ∃ t root, State.mergeLoop fuel s.snapshotWeights s.initialList 0 = (t, [root], s.initialList.length - 1) ∧
      t = { s.snapshotWeights with nodes := t.nodes } := by
  obtain ⟨root, hinv, hres⟩ := (MergeInv.start s h).loop (initialList_length_le s) fuel (by omega)
  exact ⟨_, root, Prod.ext rfl hres, hinv.frame⟩

/-- Settles O32: the loop's end from its invariant, and one merge as `mergeNode` and `mergeList`. -/
theorem mergeStepEffects : Obligations.MergeStepEffects := by
  refine ⟨fun u s hex => ⟨s.snapshotWeights, s.initialList, rfl, leafWeight_snapshot s, initialList_eq_range s,
    fun fuel hfuel => ?loop⟩, mergeLoop_singleton, fun s wl k fuel h2 _ => ?turn⟩
  case loop =>
    have hne := initialList_ne_nil hex
    obtain ⟨t, root, hloop, hframe⟩ := mergeLoop_of_snapshot hne hfuel
    have hpos := List.length_pos_iff.2 hne
    refine ⟨t, root, s.initialList.length - 1, hloop, by omega, ?_⟩
    have hstatus : t.status = s.status := by rw [hframe, snapshotWeights_status]
    have hbuild : s.buildTree = (commitTree (t, [root], s.initialList.length - 1), .none) := by
      rw [buildTree_of_nonzero hne, mergeLoop_fuel s.initialList.length fuel _ _ _ (by omega) (by omega), hloop]
    rw [← hstatus]
    exact exec_buildTree u hbuild
  case turn =>
    have hscan := select_scanned s wl h2
    refine ⟨_, _, mergeLoop_succ h2 fuel s k, rfl, node_mergeNode_same s wl _ k,
      fun j hj => node_mergeNode_other s wl _ hj, ?_, fun i _ => mergeList_getD wl _ k hscan.smLt⟩
    rw [mergeList_length wl _ k hscan.ssLt]
    omega

/-! ### The tree -/

/-- Settles O28: an empty working list fails, any other one gives a tree, and one of a single leaf is that tree. -/
theorem buildTreeCornerCases : Obligations.BuildTreeCornerCases := by
  refine fun u s => ⟨fun hzero => ⟨s.snapshotWeights.dropTree.finish .emptyAlphabet, ?empty, rfl, fun x => ?leaves⟩,
    fun hex => ⟨_, rfl, ?built⟩, fun x hx hrest => ⟨_, rfl, ?single⟩⟩
  case empty => exact exec_buildTree u (buildTree_of_weights_zero hzero)
  case leaves => exact (leafWeight_snapshot s x).trans (hzero x)
  case built => rw [buildTree_of_nonzero (initialList_ne_nil hex)]; rfl
  case single =>
    have hlist := initialList_eq_singleton hx hrest
    rw [buildTree_of_nonzero (initialList_ne_nil ⟨x, hx⟩), hlist, mergeLoop_singleton]
    exact ⟨rfl, rfl⟩

/-- Settles O29: BUILD_TREE's law, with the flags of its completion. -/
theorem buildTreeBuildsATree : Obligations.BuildTreeBuildsATree := by
  intro u s hex
  obtain ⟨t, hbuild, hvalid, htree, hleaf, hframe, -, -, hcount⟩ := buildTree_spec s (initialList_ne_nil hex)
  refine ⟨t.finish .none, ?next, ?frame, hvalid, hleaf, htree.congr rfl rfl rfl rfl, hcount.trans (initialList_length s)⟩
  case next => exact exec_buildTree u hbuild
  case frame => exact congrArg (fun r : State => r.finish .none) hframe

/-! ### Two blocks with the same weights -/

/-- The same leaf weights and the same internal nodes below `k`. -/
structure SameNodes (s s' : State) (k : Nat) : Prop where
  leaves : ∀ x, s.leafWeight x = s'.leafWeight x
  nodes : ∀ j, j < k → s.node j = s'.node j

section
variable {s s' : State} {wl : List NodeId} {k : Nat}

theorem SameNodes.nodeWeight (h : SameNodes s s' k) {id : NodeId} (hid : isLeaf id = false → id.toNat < 256 + k) :
    s.nodeWeight id = s'.nodeWeight id := by
  cases hl : isLeaf id with
  | true => rw [State.nodeWeight, State.nodeWeight, if_pos hl, if_pos hl, h.leaves]
  | false =>
    have := (isLeaf_false_iff id).1 hl
    have := hid hl
    rw [State.nodeWeight, State.nodeWeight, if_neg (by simp [hl]), if_neg (by simp [hl]), h.nodes _ (by omega)]

/-- A position past the end stands for node 0, which is a leaf. -/
theorem SameNodes.weightAt (h : SameNodes s s' k) (hwl : ∀ id ∈ wl, isLeaf id = false → id.toNat < 256 + k) (i : Nat) :
    s.weightAt wl i = s'.weightAt wl i := by
  refine h.nodeWeight (fun hl => ?_)
  by_cases hi : i < wl.length
  · rw [List.getD_eq_getElem _ _ hi] at hl ⊢
    exact hwl _ (List.getElem_mem hi) hl
  · rw [List.getD_eq_default _ _ (by omega)] at hl
    exact absurd hl (by decide)

theorem select_congr (h : ∀ i, s.weightAt wl i = s'.weightAt wl i) : s.select wl = s'.select wl := by
  have hscan : s.scanStep wl = s'.scanStep wl := funext₂ (fun c i => by simp only [State.scanStep, h])
  rw [State.select, State.select, hscan, State.seedPair, State.seedPair, h, h]

theorem SameNodes.mergeNode (h : SameNodes s s' k) (hw : ∀ i, s.weightAt wl i = s'.weightAt wl i) (c : Nat × Nat) :
    SameNodes (s.mergeNode wl c k) (s'.mergeNode wl c k) (k + 1) := by
  refine ⟨h.leaves, fun j hj => ?_⟩
  by_cases hjk : j = k
  · rw [hjk, node_mergeNode_same, node_mergeNode_same, hw, hw]
  · rw [node_mergeNode_other s wl c hjk, node_mergeNode_other s' wl c hjk, h.nodes j (by omega)]

/-- The loop does the same merges in both states. -/
theorem SameNodes.mergeLoop {s₀ : State} {n : Nat} (h : SameNodes s s' k) (hinv : MergeInv s₀ n s wl k) (hn : n ≤ 256)
    (fuel : Nat) :
    (State.mergeLoop fuel s wl k).2 = (State.mergeLoop fuel s' wl k).2 ∧
      SameNodes (State.mergeLoop fuel s wl k).1 (State.mergeLoop fuel s' wl k).1 (State.mergeLoop fuel s wl k).2.2 := by
  induction fuel generalizing s s' wl k with
  | zero => exact ⟨rfl, h⟩
  | succ fuel ih =>
    by_cases h2 : 2 ≤ wl.length
    · have hwl : ∀ id ∈ wl, isLeaf id = false → id.toNat < 256 + k := by
        intro id hid hl
        have := hinv.inTree_of_mem hid
        rwa [State.inTreeAt, if_neg (by simp [hl])] at this
      have hw := h.weightAt hwl
      rw [mergeLoop_succ h2, mergeLoop_succ h2, ← select_congr hw]
      exact ih (h.mergeNode hw _) (hinv.step h2 hn)
    · rw [State.mergeLoop, State.mergeLoop, if_pos (by omega), if_pos (by omega)]
      exact ⟨rfl, h⟩

theorem initialList_congr (h : ∀ x, s.weight x = s'.weight x) : s.initialList = s'.initialList := by
  simp only [State.initialList, h]

theorem sameNodes_snapshot (h : ∀ x, s.weight x = s'.weight x) : SameNodes s.snapshotWeights s'.snapshotWeights 0 :=
  ⟨fun x => by rw [leafWeight_snapshot, leafWeight_snapshot, h], fun j hj => absurd hj (Nat.not_lt_zero j)⟩

/-- The same weights give the same TREE and code, and the same nodes below NODE_COUNT. -/
theorem buildTree_sameNodes (h : ∀ x, s.weight x = s'.weight x) : s.buildTree.1.tree = s'.buildTree.1.tree ∧
    s.buildTree.2 = s'.buildTree.2 ∧ SameNodes s.buildTree.1 s'.buildTree.1 s.buildTree.1.tree.nodeCount.toNat := by
  have hsnap := sameNodes_snapshot h
  have hlist := initialList_congr h
  by_cases hnil : s.initialList = []
  · have hzero := (initialList_eq_nil_iff s).1 hnil
    rw [buildTree_of_weights_zero hzero, buildTree_of_weights_zero (fun x => (h x).symm.trans (hzero x))]
    exact ⟨rfl, rfl, hsnap.leaves, hsnap.nodes⟩
  · obtain ⟨hres, hsame⟩ := hsnap.mergeLoop (MergeInv.start s hnil) (initialList_length_le s) s.initialList.length
    rw [buildTree_of_nonzero hnil, buildTree_of_nonzero (hlist ▸ hnil), ← hlist, commitTree, commitTree, hres]
    refine ⟨rfl, rfl, hsame.leaves, fun j hj => hsame.nodes j ?_⟩
    rw [hres]
    exact Nat.lt_of_lt_of_le hj ((BitVec.toNat_ofNat _ _).trans_le (Nat.mod_le _ _))

end

/-- Settles O30: the two runs of the loop do the same merges. -/
theorem treeDependsOnWeightsAlone : Obligations.TreeDependsOnWeightsAlone := by
  intro u v s s' h
  obtain ⟨htree, hcode, hnodes⟩ := buildTree_sameNodes h
  exact ⟨_, _, rfl, rfl, htree, hcode, hnodes.leaves, hnodes.nodes⟩

end Sys2Proof.Machine
end

section
/-! PROOFS. The code table's commands TABLE_CLEAR, TABLE_WRITE, TABLE_DELETE and TABLE_READ
(spec/42_code_table_rom.md R140, R144 to R146). -/

namespace Sys2Proof.Machine

/-! ### The entries after an update of the table -/

theorem code_setCode (s : State) (x y : Symbol) (c : BitString) :
    (s.setCode x c).code y = if x = y then some c else s.code y := by
  simp only [State.code, setCode_table, Memory.read_write, BitVec.toNat_inj]

theorem code_eraseCode (s : State) (x y : Symbol) :
    { s with table := s.table.erase x.toNat }.code y = if x = y then none else s.code y := by
  simp only [State.code, Memory.read_erase, BitVec.toNat_inj]

theorem code_finish (s : State) (code : ErrCode) (x : Symbol) : (s.finish code).code x = s.code x := rfl

/-- Fewer codes do not raise maxCodeLength (10_state.md R28). -/
theorem maxLen_mono {s t : State} (h : ∀ x c, t.code x = some c → s.code x = some c) : t.maxLen ≤ s.maxLen := by
  rcases maxLen_attained t with h0 | ⟨x, c, hc, hm⟩
  · omega
  · exact hm ▸ length_le_maxLen (h x c hc)

/-! ### TABLE_READ -/

/-- TABLE_READ of a symbol with a code (42_code_table_rom.md R146). -/
theorem tableRead_hit {s : State} {sym : Symbol} {c : BitString} (h : s.code sym = some c) :
    s.tableRead sym = { s with res0 := tableReadWord c, codeOut := packCode c }.finish .none := by
  rw [State.tableRead, h]

/-- TABLE_READ of a symbol without a code (42_code_table_rom.md R146). -/
theorem tableRead_miss {s : State} {sym : Symbol} (h : s.code sym = none) :
    s.tableRead sym = { s with res0 := 0, codeOut := Vector.replicate 8 0 }.finish .unknownSymbol := by
  rw [State.tableRead, h, raise_eq_finish]

theorem exec_tableRead_miss {s : State} {sym : Symbol} (h : s.code sym = none) (u : BitVec 8) :
    ∃ t, exec (.tableRead sym u) s = .next t ∧ t.status.err = .unknownSymbol :=
  ⟨s.tableRead sym, rfl, by rw [tableRead_miss h]; rfl⟩

/-- The fields of RES0 for an entry (42_code_table_rom.md R146). -/
theorem tableReadWord_fields {c : BitString} (h : c.length ≤ 255) :
    (tableReadWord c).getLsbD 31 = true ∧ (tableReadWord c).extractLsb' 8 23 = 0 ∧
      ((tableReadWord c).extractLsb' 0 8).toNat = c.length := by
  refine ⟨?flag, ?zeros, ?length⟩
  case flag =>
    simp only [tableReadWord, BitVec.getLsbD_append]
    rfl
  case zeros => exact (extractLsb'_append_add 0 _ _).trans BitVec.extractLsb'_append_eq_right
  case length =>
    have hlow : (tableReadWord c).extractLsb' 0 8 = BitVec.ofNat 8 c.length := BitVec.extractLsb'_append_eq_right
    rw [hlow, BitVec.toNat_ofNat, Nat.mod_eq_of_lt (by omega)]

/-- Bit i of a 256-bit register is bit i & 31 of its word i >> 5 (10_state.md R32, R33). -/
theorem word_and_bit_index (i : Nat) : i >>> 5 = i / 32 ∧ i &&& 31 = i % 32 :=
  ⟨Nat.shiftRight_eq_div_pow i 5, Nat.and_two_pow_sub_one_eq_mod i 5⟩

/-- CODE_OUT holds the code's bits, and zeros from its length on (10_state.md R33). -/
theorem codeOut_bit (c : BitString) {i : Nat} (h : i < 256) :
    ((packCode c).getD (i >>> 5) 0).getLsbD (i &&& 31) = if i < c.length then c.getD i false else false := by
  obtain ⟨hword, hbit⟩ := word_and_bit_index i
  rw [hword, hbit, packCode_bit c h]
  split
  · rfl
  · next hout => exact List.getD_eq_default _ _ (by omega)

/-- Settles O39: a hit answers the packed code with its length, a miss zeros. -/
theorem tableReadResults : Obligations.TableReadResults := by
  refine ⟨fun u sym => decode_encode (.tableRead sym u), fun sym u s => ⟨fun c hc hlen => ?hit, fun hc => ?miss⟩⟩
  case hit =>
    obtain ⟨hflag, hzeros, hlength⟩ := tableReadWord_fields hlen
    exact ⟨_, congrArg Host.Outcome.next (tableRead_hit hc), rfl, hflag, hzeros, hlength, fun i => codeOut_bit c⟩
  case miss =>
    exact ⟨_, congrArg Host.Outcome.next (tableRead_miss hc), rfl, fun k => Vector.getElem_replicate k.isLt⟩

/-! ### TABLE_WRITE and TABLE_DELETE -/

/-- The staged bits by their index (10_state.md R32). -/
theorem stagedCode_bit (s : State) {i len : Nat} (h : i < len) :
    (s.stagedCode len).getD i false = (s.codeStage.getD (i >>> 5) 0).getLsbD (i &&& 31) := by
  obtain ⟨hword, hbit⟩ := word_and_bit_index i
  rw [hword, hbit, List.getD_eq_getElem _ _ (by rwa [stagedCode_length])]
  simp only [State.stagedCode, List.getElem_map, List.getElem_range, State.stagedBit]

/-- Settles O37: the entry written is the staged code, and the write reaches no other entry. -/
theorem tableWriteLoadsStagedCode : Obligations.TableWriteLoadsStagedCode := by
  refine ⟨fun len sym => decode_encode (.tableWrite sym len), fun sym len s =>
    ⟨_, rfl, rfl, ⟨s.stagedCode len.toNat, ?entry, stagedCode_length s _, fun i => stagedCode_bit s⟩,
      fun y hy => ?others⟩⟩
  case entry => rw [code_finish, code_setCode, if_pos rfl]
  case others => rw [code_finish, code_setCode, if_neg hy.symm]

/-- Settles O38: the entry is erased and no other, so that maxCodeLength cannot rise and a read misses. -/
theorem tableDeleteRemovesEntry : Obligations.TableDeleteRemovesEntry := by
  refine ⟨fun u sym => decode_encode (.tableDelete sym u), fun sym u s => ?_⟩
  have hcode := code_eraseCode s sym
  have hgone := (hcode sym).trans (if_pos rfl)
  have hkept (y : Symbol) (hy : y ≠ sym) := (hcode y).trans (if_neg hy.symm)
  refine ⟨_, rfl, rfl, hgone, hkept, maxLen_mono fun y c hc => ?fewer, exec_tableRead_miss hgone⟩
  case fewer =>
    rw [code_finish] at hc
    by_cases hy : y = sym
    · rw [hy, hgone] at hc
      cases hc
    · rwa [hkept y hy] at hc

/-! ### TABLE_CLEAR and a DECODE without codes -/

/-- The search fails when it has dequeued every entry of the arena (43_decoder_fsm.md R162). -/
theorem search_at_end (s : State) (fuel : Nat) (A : List SearchState) :
    s.search fuel A.length A = { code := .decodeError, arena := A, bytes := [] } := by
  cases fuel with
  | zero => rfl
  | succ fuel => rw [State.search, List.getElem?_eq_none (Nat.le_refl _)]

/-- Without a code of at least one bit the seed is the only state of the search, and it succeeds on the empty input alone
(43_decoder_fsm.md R162). -/
theorem decodeSearch_of_maxLen_zero {s : State} (h : s.maxLen = 0) :
    s.decodeSearch.code = .none ↔ s.bitLen = 0 := by
  have hlens : s.prefixLengths seedState = [] := by rw [State.prefixLengths, h, Nat.zero_min]; rfl
  have hwhole : seedState.pos = s.bitLen.toNat ↔ s.bitLen = 0 := by
    rw [← BitVec.toNat_inj]
    exact eq_comm
  have hend := search_at_end s s.params.arenaDepth [seedState]
  rw [List.length_singleton] at hend
  rw [State.decodeSearch, State.search, ← hwhole]
  simp only [List.getElem?_cons_zero, hlens, State.expand]
  split
  · next he => simp [he]
  · next he => simp [he, hend]

/-- Settles O34: no symbol has a code, hence MAXLEN is 0, each read misses and a DECODE sees its seed alone. -/
theorem tableClearEmptiesTable : Obligations.TableClearEmptiesTable := by
  refine ⟨fun imm => decode_encode (.tableClear imm), fun u s _ => ?_⟩
  have hnone (x : Symbol) : ({ s with table := [] }.finish .none).code x = none := rfl
  have hmax := maxLen_eq_zero hnone
  exact ⟨_, rfl, rfl, hnone, hmax, fun x v => exec_tableRead_miss (hnone x) v,
    fun v => ⟨_, rfl, decodeSearch_of_maxLen_zero hmax⟩⟩

end Sys2Proof.Machine
end

section
/-! PROOFS. GEN_TABLE: root-to-leaf paths, the degenerate policy, and that no code begins another
(spec/42_code_table_rom.md R141 to R143). -/

namespace Sys2Proof.Machine

theorem exec_genTable {s : State} (u : BitVec 16) (hv : s.tree.valid = true) :
    exec (.genTable u) s = .next ({ s with table := s.generatedTable }.finish .none) :=
  congrArg Host.Outcome.next (if_neg (by simp [hv]))

/-- No edge leaves a leaf. -/
theorem walk_leaf (s : State) {n m : NodeId} (hl : isLeaf n = true) (c : BitString) :
    s.walk n c = some m ↔ m = n ∧ c = [] := by
  cases c with
  | nil => simp [State.walk, eq_comm]
  | cons b c => simp [State.walk, hl]

section
variable {s : State} (ok : s.TreeOk) (x : Symbol) (c : BitString)
include ok

/-- The codes of a tree with an internal node (42_code_table_rom.md R142). -/
theorem generatedTable_nondegenerate (h : s.tree.nodeCount ≠ 0) :
    s.generatedTable.read x.toNat = some c ↔ s.walk s.tree.root c = some (leafId x) := by
  rw [generatedTable_spec ok, if_neg (fun hd => h hd.1)]

/-- The one code of a tree that is a single leaf, by the policy bit (42_code_table_rom.md R142). -/
theorem generatedTable_degenerate (h : s.tree.nodeCount = 0) :
    s.generatedTable.read x.toNat = some c ↔
      leafId x = s.tree.root ∧ c = if s.ctrl.degen1bit = true then [false] else [] := by
  rw [generatedTable_spec ok, walk_leaf s (ok.root_leaf_iff.2 h)]
  by_cases hd : s.ctrl.degen1bit = true
  · rw [if_pos ⟨h, hd⟩, if_pos hd]
  · rw [if_neg (fun hh => hd hh.2), if_neg hd]

end

/-- Settles O35: without a tree GEN_TABLE raises NO_TREE; with one its table has the paths of the tree's leaves. -/
theorem genTableGivesRootToLeafPaths : Obligations.GenTableGivesRootToLeafPaths := by
  refine ⟨fun u s hv => congrArg Host.Outcome.next (if_pos hv), fun u s hinv hv => ?_⟩
  have ok := hinv.tree hv
  refine ⟨_, exec_genTable u hv, rfl, generatedTable_valid ok, fun hpos x c => ?paths, fun h0 => ?single⟩
  case paths =>
    have hpath := generatedTable_nondegenerate ok x c hpos
    refine ⟨hpath, fun hc => ?_⟩
    obtain ⟨hupper, hlower⟩ := ok.leaf_path_length (hpath.1 hc)
    exact ⟨hlower hpos, hupper, generatedTable_length ok hc⟩
  case single =>
    have hroot := leafId_leafSymbol (ok.root_leaf_iff.2 h0)
    exact ⟨leafSymbol s.tree.root, hroot.symm, (generatedTable_degenerate ok _ _ h0).2 ⟨hroot, rfl⟩⟩

/-- Settles O36: distinct leaves have paths of which none begins another, and a single leaf is the only one. -/
theorem generatedTablesArePrefixFree : Obligations.GeneratedTablesArePrefixFree := by
  intro u s hinv hv
  have ok := hinv.tree hv
  refine ⟨_, exec_genTable u hv, fun x y c d hc hd hne => ?distinct, fun h0 x y c d hc hd => ?oneEntry⟩
  case distinct =>
    have hprefix := generatedTable_prefixFree ok hc hd hne
    exact ⟨hprefix, fun hcd => hprefix (hcd ▸ List.prefix_refl c)⟩
  case oneEntry =>
    obtain ⟨hx, -⟩ := (generatedTable_degenerate ok x c h0).1 hc
    obtain ⟨hy, -⟩ := (generatedTable_degenerate ok y d h0).1 hd
    exact leafId_injective (hx.trans hy.symm)

end Sys2Proof.Machine
end

section
/-! PROOFS. The input bit buffer's commands BITBUF_CLEAR and BITBUF_APPEND (spec/43_decoder_fsm.md R160, R161). -/

namespace Sys2Proof.Machine

/-! ### BITBUF_CLEAR -/

/-- The window shows no bit of an empty buffer (20_memory.md R65). -/
theorem bitbufWord_of_empty {s : State} (h : s.bitLen = 0) (j : Nat) : s.bitbufWord j = 0 := by
  refine BitVec.eq_of_getLsbD_eq fun k hk => ?_
  have hout : ¬ 32 * j + k < s.bitLen.toNat := by rw [h]; exact Nat.not_lt_zero _
  rw [bitbufWord_bit s j hk, if_neg hout]
  exact BitVec.getLsbD_zero.symm

theorem memRead_bitbuf_of_empty {t : State} (hb : t.status.busy = false) (hempty : t.bitLen = 0) {a : Addr} {j : Nat}
    (hp : t.params.legal = true) (hj : j < t.params.bitbufBits / 32) (ha : wordAddress a = 0x1000 + 4 * j) :
    t.memRead a = (0, t) := by
  rw [memRead_region hb ha (regionAt_bitbuf hp hj), State.valueAt, bitbufWord_of_empty hempty]

/-- Settles O41: the word is the encoding of BITBUF_CLEAR, which leaves an empty buffer for the window to show. -/
theorem bitbufClearEmptiesBuffer : Obligations.BitbufClearEmptiesBuffer :=
  ⟨fun imm => decode_encode (.bitbufClear imm),
    fun _ s => ⟨_, rfl, rfl, fun _ _ => memRead_bitbuf_of_empty (t := { s with bitLen := 0 }.finish .none) rfl rfl⟩⟩

/-! ### BITBUF_APPEND -/

section
variable {s : State} {n : BitVec 16}

theorem bitbufAppend_badOperand (h : n.toNat < 1 ∨ 32 < n.toNat) : s.bitbufAppend n = s.finish .badOperand := if_pos h

theorem bitbufAppend_bufferFull (h1 : 1 ≤ n.toNat) (h32 : n.toNat ≤ 32)
    (hfull : s.params.bitbufBits < s.bitLen.toNat + n.toNat) : s.bitbufAppend n = s.finish .bufferFull := by
  rw [State.bitbufAppend, if_neg (by omega), if_pos hfull, raise_eq_finish]

variable (h1 : 1 ≤ n.toNat) (h32 : n.toNat ≤ 32) (hfit : s.bitLen.toNat + n.toNat ≤ s.params.bitbufBits)
include h1 h32 hfit

theorem bitbufAppend_fits : s.bitbufAppend n =
    { s with
      bits := s.bits.writeRun s.bitLen.toNat (s.argBits n.toNat)
      bitLen := BitVec.ofNat 16 (s.bitLen.toNat + n.toNat) }.finish .none := by
  rw [State.bitbufAppend, if_neg (by omega), if_neg (by omega)]

theorem bitbufAppend_bitLen (hp : s.params.legal = true) :
    (s.bitbufAppend n).bitLen.toNat = s.bitLen.toNat + n.toNat := by
  have hbounds := legal_bounds hp
  rw [bitbufAppend_fits h1 h32 hfit, finish_bitLen, BitVec.toNat_ofNat, Nat.mod_eq_of_lt (by omega)]

theorem bitbufAppend_bit (j : Nat) : (s.bitbufAppend n).bit j =
    if s.bitLen.toNat ≤ j ∧ j < s.bitLen.toNat + n.toNat then s.arg0.getLsbD (j - s.bitLen.toNat) else s.bit j := by
  have hlen : (s.argBits n.toNat).length = n.toNat := by simp [State.argBits]
  rw [bitbufAppend_fits h1 h32 hfit, State.bit, finish_bits, Memory.read_writeRun, hlen]
  split
  · next hin => simp [State.argBits, show j - s.bitLen.toNat < n.toNat by omega]
  · rfl

end

/-- Settles O42: the two checks in their order, and otherwise the run of bits written from BIT_LEN on. -/
theorem bitbufAppendAddsBits : Obligations.BitbufAppendAddsBits := by
  refine ⟨fun n => decode_encode (.bitbufAppend n), fun n s hp =>
    ⟨fun h => congrArg Host.Outcome.next (bitbufAppend_badOperand h),
      fun h1 h32 hfull => congrArg Host.Outcome.next (bitbufAppend_bufferFull h1 h32 hfull),
      fun h1 h32 hfit => ⟨s.bitbufAppend n, rfl, ?frame, bitbufAppend_bitLen h1 h32 hfit hp, fun j hj => ?new,
        fun j hj => ?old⟩⟩⟩
  case frame => rw [bitbufAppend_fits h1 h32 hfit]; rfl
  case new => rw [bitbufAppend_bit h1 h32 hfit, if_pos (by omega), Nat.add_sub_cancel_left]
  case old => rw [bitbufAppend_bit h1 h32 hfit, if_neg (by omega)]

end Sys2Proof.Machine
end

section
/-! PROOFS. The inverted-table match (spec/43_decoder_fsm.md R163). -/

namespace Sys2Proof.Machine

/-- A bit string is a stretch of the input exactly when it has its length and its bits. -/
theorem eq_bitsFrom_iff (s : State) (pos len : Nat) (c : BitString) :
    c = s.bitsFrom pos len ↔ c.length = len ∧ ∀ i, i < len → c.getD i false = s.bit (pos + i) := by
  constructor
  · rintro rfl
    refine ⟨bitsFrom_length s pos len, fun i hi => ?_⟩
    simp [State.bitsFrom, hi]
  · rintro ⟨rfl, hbits⟩
    refine List.ext_getElem (bitsFrom_length s pos c.length).symm fun i hi _ => ?_
    have hbit := hbits i hi
    rw [List.getD_eq_getElem _ _ hi] at hbit
    simp [State.bitsFrom, hbit]

/-- A symbol has the stretch of the input as its code. -/
theorem code_eq_bitsFrom_iff (s : State) (pos len : Nat) (x : Symbol) :
    s.code x = some (s.bitsFrom pos len) ↔
      ∃ c, s.code x = some c ∧ c.length = len ∧ ∀ i, i < len → c.getD i false = s.bit (pos + i) := by
  simp only [← eq_bitsFrom_iff, exists_eq_right]

/-- The inverted table holds the lowest symbol of a code (43_decoder_fsm.md R163). -/
theorem invert_eq_some_iff {s : State} {c : BitString} {x : Symbol} :
    s.invert c = some x ↔ s.code x = some c ∧ ∀ y : Symbol, y.toNat < x.toNat → s.code y ≠ some c := by
  constructor
  · intro h
    obtain ⟨hx, hlow⟩ := invert_eq_some h
    exact ⟨hx, fun y hlt hy => absurd (hlow y hy) (by omega)⟩
  · rintro ⟨hx, hlow⟩
    obtain ⟨y, hy⟩ := invert_exists hx
    obtain ⟨hcode, hle⟩ := invert_eq_some hy
    have hge : ¬ y.toNat < x.toNat := fun hlt => hlow y hlt hcode
    have hyx : y = x := BitVec.eq_of_toNat_eq (by have := hle x hx; omega)
    rw [hy, hyx]

/-- Settles O43: the match is the inverted table's entry for the stretch of the input. -/
theorem lowestSymbolMatches : Obligations.LowestSymbolMatches := by
  intro s pos len
  simp only [← code_eq_bitsFrom_iff, matchCode_eq_invert]
  exact ⟨fun x => invert_eq_some_iff, invert_eq_none⟩

end Sys2Proof.Machine
end

section
/-! PROOFS. DECODE: what it writes back, how its search ends, and the source's decoder (spec/43_decoder_fsm.md R162,
R164, R165, R168). -/

namespace Sys2Proof.Machine

/-! ### What DECODE leaves -/

/-- The state DECODE leaves (43_decoder_fsm.md R162). -/
def State.decoded (s : State) : State := s.commitSearch s.decodeSearch

theorem exec_decode (u : BitVec 16) (s : State) : exec (.decode u) s = .next s.decoded := rfl

@[simp] theorem decoded_err (s : State) : s.decoded.status.err = s.decodeSearch.code := rfl

/-- A search without bytes leaves the output empty and OUT as it was (43_decoder_fsm.md R162). -/
theorem decoded_no_bytes {s : State} (h : s.decodeSearch.bytes = []) :
    s.decoded.outLen = 0 ∧ s.decoded.out = s.out := by
  rw [State.decoded, State.commitSearch, h]
  exact ⟨rfl, rfl⟩

/-- What a search that ends with its seed alone leaves (43_decoder_fsm.md R162). -/
theorem decoded_of_seed {s : State} {code : ErrCode}
    (h : s.decodeSearch = { code := code, arena := [seedState], bytes := [] }) :
    s.decoded.status.err = code ∧ s.decoded.outLen = 0 ∧ s.decoded.arenaUsed = 1 := by
  rw [State.decoded, State.commitSearch, h]
  exact ⟨rfl, rfl, rfl⟩

namespace State.Inv

variable {s : State} (h : s.Inv)
include h

/-- The search's numbers fit the registers and the arena's fields (43_decoder_fsm.md R165; log 10). -/
theorem decode_fits : 1 ≤ s.decodeSearch.arena.length ∧ s.decodeSearch.arena.length ≤ s.params.arenaDepth ∧
    s.params.arenaDepth ≤ 2 ^ 20 ∧ s.decodeSearch.bytes.length ≤ s.bitLen.toNat ∧ s.bitLen.toNat ≤ 32768 := by
  obtain ⟨-, -, hbits, -, hdepth⟩ := h.legal
  obtain ⟨hseed, harena, hbytes⟩ := h.searchEnd.bounds
  exact ⟨hseed, harena, hdepth, hbytes, h.lengths.bitLen.trans hbits⟩

theorem decoded_outputBytes : s.decoded.outputBytes = s.decodeSearch.bytes := by
  obtain ⟨-, -, -, hbytes, hbits⟩ := h.decode_fits
  exact outputBytes_commit s _ (by omega)

theorem decoded_outLen : s.decoded.outLen.toNat = s.decodeSearch.bytes.length := by
  obtain ⟨-, -, -, hbytes, hbits⟩ := h.decode_fits
  rw [State.decoded, State.commitSearch, finish_outLen, BitVec.toNat_ofNat, Nat.mod_eq_of_lt (by omega)]

theorem decoded_arenaUsed : s.decoded.arenaUsed.toNat = s.decodeSearch.arena.length := by
  obtain ⟨-, harena, hdepth, -⟩ := h.decode_fits
  rw [State.decoded, State.commitSearch, finish_arenaUsed, BitVec.toNat_ofNat, Nat.mod_eq_of_lt (by omega)]

/-- An entry of the stored arena holds its search state's numbers uncut (log 10). -/
theorem decoded_arena {a : Nat} {e : SearchState} (he : s.decodeSearch.arena[a]? = some e) :
    s.decoded.arena.read a = some e.entry ∧ e.entry.pos.toNat = e.pos ∧ e.entry.parent.toNat = e.parent ∧
      e.entry.depth.toNat = e.depth := by
  obtain ⟨-, harena, hdepth, -, hbits⟩ := h.decode_fits
  have hA := h.searchEnd.arenaOk
  obtain ⟨ha, hget⟩ := List.getElem?_eq_some_iff.1 he
  obtain ⟨-, -, -, hde, hpos⟩ := hA.bytesAt_spec a he
  have hparent : e.parent < 2 ^ 20 := by
    rcases Nat.eq_zero_or_pos a with rfl | h0
    · rw [Option.some.inj (he.symm.trans hA.seed)]
      decide
    · obtain ⟨p, hlt, -⟩ := hA.entry a e h0 he
      omega
  refine ⟨by rw [State.decoded, arena_commit s _ ha, hget], ?_⟩
  simp only [SearchState.entry, BitVec.toNat_ofNat]
  omega

end State.Inv

/-! ### DECODE without a successor of the seed, and DECODE twice -/

/-- An empty suffix ends the search at once (43_decoder_fsm.md R162). -/
theorem decodeSearch_of_empty {s : State} (h : s.bitLen = 0) :
    s.decodeSearch = { code := .none, arena := [seedState], bytes := [] } := by
  have hwhole : seedState.pos = s.bitLen.toNat := by rw [h]; rfl
  rw [State.decodeSearch, State.search]
  simp only [List.getElem?_cons_zero, if_pos hwhole]
  rfl

/-- Without a code of at least one bit the seed has no successor (43_decoder_fsm.md R162). -/
theorem decodeSearch_of_no_code {s : State} (h : s.bitLen ≠ 0) (hmax : s.maxLen = 0) :
    s.decodeSearch = { code := .decodeError, arena := [seedState], bytes := [] } := by
  have hlens : s.prefixLengths seedState = [] := by rw [State.prefixLengths, hmax, Nat.zero_min]; rfl
  have hpart : seedState.pos ≠ s.bitLen.toNat := fun e => h (BitVec.eq_of_toNat_eq e.symm)
  rw [State.decodeSearch, State.search]
  simp only [List.getElem?_cons_zero, if_neg hpart, hlens, State.expand]
  exact search_at_end s _ [seedState]

theorem maxLen_of_no_code {s : State} (h : ∀ x c, s.code x = some c → c = []) : s.maxLen = 0 := by
  rcases maxLen_attained s with h0 | ⟨x, c, hc, hmax⟩
  · exact h0
  · rw [hmax, h x c hc, List.length_nil]

/-- Writing the same run a second time stores nothing new. -/
theorem Memory.writeRun_writeRun {α : Type} {m : Memory α} (h : m.wf) (a : Nat) (xs : List α) :
    Memory.writeRun (Memory.writeRun m a xs) a xs = Memory.writeRun m a xs := by
  refine Memory.ext_of_wf (Memory.wf_writeRun (Memory.wf_writeRun h a xs) a xs) (Memory.wf_writeRun h a xs) fun b => ?_
  simp only [Memory.read_writeRun]
  split <;> rfl

/-- A second DECODE searches the same bits with the same table and writes the same entries (43_decoder_fsm.md R162). -/
theorem State.Inv.decoded_decoded {s : State} (h : s.Inv) : s.decoded.decoded = s.decoded := by
  have hsearch : s.decoded.decodeSearch = s.decodeSearch :=
    search_code_congr (s := s) (s' := s.decoded) rfl rfl (fun _ => rfl) (fun _ => rfl) _ _ _
  have hout := Memory.writeRun_writeRun h.stores.out.1 0 s.decodeSearch.bytes
  have harena := Memory.writeRun_writeRun h.stores.arena.1 0 (s.decodeSearch.arena.map SearchState.entry)
  rw [State.decoded, hsearch]
  simp only [State.decoded, State.commitSearch, finish_out, finish_arena, hout, harena]
  rfl

/-- Settles O44: the search ends at its seed in the first two cases, and a second DECODE repeats the first. -/
theorem decodeCornerCases : Obligations.DecodeCornerCases := by
  refine fun u s _ => ⟨fun hempty => ⟨s.decoded, rfl, decoded_of_seed (decodeSearch_of_empty hempty)⟩,
    fun hbits hcodes => ⟨s.decoded, rfl, decoded_of_seed (decodeSearch_of_no_code hbits (maxLen_of_no_code hcodes))⟩,
    fun hinv v => ⟨s.decoded, rfl, ?again⟩⟩
  case again => rw [exec_decode, hinv.decoded_decoded]

/-! ### Bounds -/

/-- Each turn dequeues one of at most ARENA_DEPTH states, so that more turns change nothing (43_decoder_fsm.md R165). -/
theorem SearchInv.search_fuel {s : State} (f g : Nat) {h : Nat} {A : List SearchState} (hI : SearchInv s h A)
    (hf : s.params.arenaDepth + 1 ≤ f + h) (hg : s.params.arenaDepth + 1 ≤ g + h) :
    s.search f h A = s.search g h A := by
  have hhead := hI.headLe.trans hI.fits
  induction f generalizing g h A with
  | zero => omega
  | succ f ih =>
    obtain ⟨g, rfl⟩ : ∃ g', g = g' + 1 := ⟨g - 1, by omega⟩
    rw [State.search, State.search]
    cases hst : A[h]? with
    | none => rfl
    | some st =>
      by_cases hw : st.pos = s.bitLen.toNat
      · simp only [if_pos hw]
      · simp only [if_neg hw, expand_eq s h st _ A hI.fits]
        by_cases hfit : A.length + (s.newStates h st (s.prefixLengths st)).length ≤ s.params.arenaDepth
        · have hnext := hI.step hst hw hfit
          simp only [if_pos hfit]
          exact ih g hnext (by omega) (by omega) (hnext.headLe.trans hnext.fits)
        · simp only [if_neg hfit]

/-- Every stored entry but the seed extends an earlier one by at least one bit (43_decoder_fsm.md R165). -/
theorem State.Inv.decoded_parent {s : State} (h : s.Inv) {a : Nat} (h0 : 0 < a) (ha : a < s.decoded.arenaUsed.toNat) :
    ∃ e p, s.decoded.arena.read a = some e ∧ e.parent.toNat < a ∧ s.decoded.arena.read e.parent.toNat = some p ∧
      p.pos.toNat < e.pos.toNat ∧ e.pos.toNat ≤ s.bitLen.toNat ∧ e.depth.toNat = p.depth.toNat + 1 := by
  rw [h.decoded_arenaUsed] at ha
  have he := List.getElem?_eq_getElem ha
  obtain ⟨p, hlt, hp, hdepth, hpos, hend, -⟩ := h.searchEnd.arenaOk.entry a _ h0 he
  obtain ⟨hread, epos, eparent, edepth⟩ := h.decoded_arena he
  obtain ⟨preads, ppos, -, pdepth⟩ := h.decoded_arena hp
  refine ⟨_, _, hread, ?_, by rw [eparent, preads], ?_, ?_, ?_⟩ <;> omega

/-- A dequeue scans no more lengths than the longest code has bits (43_decoder_fsm.md R165). -/
theorem prefixLengths_length_le {s : State} (h : s.CodesFit) (st : SearchState) :
    (s.prefixLengths st).length ≤ min 255 s.bitLen.toNat := by
  have hmax := maxLen_le h
  rw [State.prefixLengths, List.length_range']
  omega

/-- Settles O45: the bounds of the search, whose numbers the registers and the arena hold uncut. -/
theorem decodeBounds : Obligations.DecodeBounds := by
  intro u s hinv
  obtain ⟨hseed, harena, -, hbytes, -⟩ := hinv.decode_fits
  have hstart := SearchInv.start s (hseed.trans harena)
  refine ⟨s.decoded, rfl, rfl, ?_, ?_, ?_, hinv.lengths.bitLen, fun a => hinv.decoded_parent,
    prefixLengths_length_le hinv.codes, fun fuel hfuel => hstart.search_fuel _ _ hfuel (Nat.le_refl _)⟩
  · rwa [hinv.decoded_arenaUsed]
  · rwa [hinv.decoded_arenaUsed]
  · rwa [hinv.decoded_outLen]

/-! ### Outcomes -/

/-- The three outcomes of DECODE's search (43_decoder_fsm.md R162, R164). -/
theorem State.Inv.decodeSearch_outcome {s : State} (h : s.Inv) :
    (s.decodeSearch.code = .none ∧ s.FullDecoding s.decodeSearch.bytes) ∨
      (s.decodeSearch.code = .decodeError ∧ s.decodeSearch.bytes = [] ∧ ∀ xs, ¬ s.FullDecoding xs) ∨
      (s.decodeSearch.code = .arenaOverflow ∧ s.decodeSearch.bytes = [] ∧
        s.decodeSearch.arena.length = s.params.arenaDepth) := by
  cases h.searchEnd with
  | success cur e inv get whole code bytes =>
    obtain ⟨-, hspell, hcodes, -⟩ := inv.bytesAt_spec cur get
    refine .inl ⟨code, ?_⟩
    rw [bytes]
    exact ⟨by rw [hspell, whole, State.inputBits], fun x hx => (hcodes x hx).1⟩
  | exhausted inv code bytes => exact .inr (.inl ⟨code, bytes, inv.no_decoding⟩)
  | overflow inv full code bytes => exact .inr (.inr ⟨code, bytes, full⟩)

/-- The source's worklist starts with the seed's state (43_decoder_fsm.md R162). -/
theorem sourceQueue_start (s : State) : sourceQueue s 0 [seedState] = [([], s.inputBits)] := rfl

/-- Settles O46: the three ends of the search, and the count of its states against the source's. -/
theorem decodeOutcomes : Obligations.DecodeOutcomes := by
  intro u s hinv
  obtain ⟨hseed, harena, -⟩ := hinv.decode_fits
  refine ⟨s.decoded, rfl, ?outcome, ?count⟩
  case outcome =>
    rcases hinv.decodeSearch_outcome with ⟨hcode, hfull⟩ | ⟨hcode, hbytes, hnone⟩ | ⟨hcode, hbytes, hused⟩
    · exact .inl ⟨hcode, by rwa [hinv.decoded_outputBytes]⟩
    · obtain ⟨hlen, hout⟩ := decoded_no_bytes hbytes
      exact .inr (.inl ⟨hcode, hlen, hout, hnone⟩)
    · obtain ⟨hlen, hout⟩ := decoded_no_bytes hbytes
      exact .inr (.inr ⟨hcode, hlen, hout, by rwa [hinv.decoded_arenaUsed]⟩)
  case count =>
    obtain ⟨fuel, n, hn, hover, hlen⟩ := (SearchInv.start s (hseed.trans harena)).created _ (Nat.le_refl _)
    rw [sourceQueue_start] at hn
    rw [List.length_singleton, Nat.add_comm 1 n] at hover hlen
    exact ⟨fuel, n, hn, hover, fun hno => by rw [hinv.decoded_arenaUsed]; exact hlen hno⟩

/-- A decoding that DECODE finds has the fewest symbols of all (43_decoder_fsm.md R164). -/
theorem State.Inv.decodeSearch_fewest {s : State} (h : s.Inv) (hcode : s.decodeSearch.code = .none) {xs : List Symbol}
    (hxs : s.FullDecoding xs) : s.decodeSearch.bytes.length ≤ xs.length := by
  cases h.searchEnd with
  | success cur e inv get whole code bytes =>
    obtain ⟨hlen, -⟩ := inv.bytesAt_spec cur get
    rw [bytes, hlen]
    exact inv.fewest get hxs
  | exhausted inv code bytes => rw [code] at hcode; cases hcode
  | overflow inv full code bytes => rw [code] at hcode; cases hcode

/-- Settles O47: the search and the source's worklist run in step, and the states come in the order of their depth. -/
theorem decodeIsTheSourcesDecoder : Obligations.DecodeIsTheSourcesDecoder := by
  intro u s hinv
  obtain ⟨hseed, harena, -⟩ := hinv.decode_fits
  refine ⟨s.decoded, rfl, fun hno => ?source, fun hcode xs hxs => ?fewest⟩
  case source =>
    have hsource := (SearchInv.start s (hseed.trans harena)).source _ (Nat.le_refl _) hno
    rw [sourceQueue_start] at hsource
    refine ⟨_, by rw [hinv.decoded_outputBytes]; exact hsource, fun herr => ?_⟩
    rcases hinv.decodeSearch_outcome with ⟨hcode, -⟩ | ⟨hcode, -⟩ | ⟨hcode, -⟩
    · exact absurd hcode herr
    · exact hcode
    · exact absurd hcode hno
  case fewest =>
    rw [hinv.decoded_outputBytes]
    exact hinv.decodeSearch_fewest hcode hxs

end Sys2Proof.Machine
end

section
/-! PROOFS. `PrefixFree` tables: one match at each position, one chain of states, and the greedy walk
(spec/43_decoder_fsm.md R166). -/

namespace Sys2Proof.Machine

/-! ### One match at each position -/

theorem bitsFrom_ne_nil (s : State) (pos : Nat) {len : Nat} (h : 1 ≤ len) : s.bitsFrom pos len ≠ [] :=
  List.length_pos_iff.1 (by rwa [bitsFrom_length])

/-- Of two codes that match at one position the shorter begins the longer. -/
theorem matchCode_length_le {s : State} (hp : s.PrefixFree) {pos a b : Nat} {x y : Symbol} (ha : 1 ≤ a)
    (hx : s.matchCode pos a = some x) (hy : s.matchCode pos b = some y) : b ≤ a := by
  by_contra hlt
  have hcx := (invert_eq_some (c := s.bitsFrom pos a) hx).1
  have hcy := (invert_eq_some (c := s.bitsFrom pos b) hy).1
  have hne : x ≠ y := fun hxy => by
    have hlen := congrArg List.length (Option.some.inj (hcx.symm.trans (hxy ▸ hcy)))
    simp only [bitsFrom_length] at hlen
    omega
  have hprefix : s.bitsFrom pos a <+: s.bitsFrom pos b := by
    rw [show b = a + (b - a) by omega, bitsFrom_add]
    exact List.prefix_append _ _
  exact hp x y _ _ hcx hcy (bitsFrom_ne_nil s pos ha) (bitsFrom_ne_nil s pos (by omega)) hne hprefix

theorem matchCode_length_unique {s : State} (hp : s.PrefixFree) {pos a b : Nat} {x y : Symbol} (ha : 1 ≤ a) (hb : 1 ≤ b)
    (hx : s.matchCode pos a = some x) (hy : s.matchCode pos b = some y) : a = b :=
  Nat.le_antisymm (matchCode_length_le hp hb hy hx) (matchCode_length_le hp ha hx hy)

/-! ### One chain of states -/

/-- A property of the search's head and arena that each expansion keeps holds where the search ends, but for an overflow
(43_decoder_fsm.md R162). -/
theorem SearchInv.ends_with {s : State} {P : Nat → List SearchState → Prop}
    (keeps : ∀ h A st, P h A → A[h]? = some st → P (h + 1) (A ++ s.newStates h st (s.prefixLengths st))) (fuel : Nat)
    {h : Nat} {A : List SearchState} (hI : SearchInv s h A) (hP : P h A)
    (hno : (s.search fuel h A).code ≠ .arenaOverflow) : ∃ h', P h' (s.search fuel h A).arena := by
  induction fuel generalizing h A with
  | zero => exact ⟨h, hP⟩
  | succ fuel ih =>
    rw [State.search] at hno ⊢
    cases hst : A[h]? with
    | none => exact ⟨h, hP⟩
    | some st =>
      simp only [hst] at hno ⊢
      by_cases hw : st.pos = s.bitLen.toNat
      · rw [if_pos hw]
        exact ⟨h, hP⟩
      · rw [if_neg hw, expand_eq s h st _ A hI.fits] at hno ⊢
        by_cases hfit : A.length + (s.newStates h st (s.prefixLengths st)).length ≤ s.params.arenaDepth
        · simp only [if_pos hfit] at hno ⊢
          exact ih (hI.step hst hw hfit) (keeps h A st hP hst) hno
        · simp only [if_neg hfit] at hno
          exact absurd rfl hno

section
variable {s : State} (h : s.Inv) (hp : s.PrefixFree)
include h hp

/-- DECODE with a `PrefixFree` table (43_decoder_fsm.md R166). -/
theorem State.Inv.decodeSearch_chain : s.decodeSearch.code ≠ .arenaOverflow ∧
    s.decodeSearch.arena.length ≤ s.bitLen.toNat + 1 ∧
      (s.decodeSearch.code = .none → s.decodeSearch.arena.length = s.decodeSearch.bytes.length + 1) := by
  obtain ⟨-, -, -, hdepth, -⟩ := h.legal
  have hbits := h.lengths.bitLen
  exact (SearchInv.start s (by omega)).chain hp (by omega) _ ChainInv.start (Nat.le_refl _)

/-- Depths count the states of the chain, so that a state's parent is the one before it (43_decoder_fsm.md R166). -/
theorem State.Inv.decoded_parent_pred {a : Nat} (h0 : 0 < a) (ha : a < s.decoded.arenaUsed.toNat) :
    ∃ e, s.decoded.arena.read a = some e ∧ e.parent.toNat = a - 1 := by
  obtain ⟨hseed, harena, -⟩ := h.decode_fits
  rw [h.decoded_arenaUsed] at ha
  have he := List.getElem?_eq_getElem ha
  obtain ⟨p, -, hpar, hdepth, -⟩ := h.searchEnd.arenaOk.entry a _ h0 he
  obtain ⟨_, hchain⟩ := (SearchInv.start s (hseed.trans harena)).ends_with (P := ChainInv)
    (fun _ _ _ hC hst => hC.step hst hp) _ ChainInv.start (h.decodeSearch_chain hp).1
  have hea := (hchain.index a _ he).1
  have hpa := (hchain.index _ p hpar).1
  obtain ⟨hread, -, eparent, -⟩ := h.decoded_arena he
  exact ⟨_, hread, by omega⟩

end

/-! ### The greedy walk -/

/-- The shortest match at a position, with its length (43_decoder_fsm.md R166). -/
def State.firstMatch (s : State) (pos : Nat) : Option (Nat × Symbol) :=
  (List.range' 1 (min s.maxLen (s.bitLen.toNat - pos))).findSome?
    (fun len => (s.matchCode pos len).map (fun x => (len, x)))

theorem firstMatch_range {s : State} {pos len : Nat} {x : Symbol} (h : s.firstMatch pos = some (len, x)) :
    1 ≤ len ∧ len ≤ s.bitLen.toNat - pos ∧ s.matchCode pos len = some x := by
  obtain ⟨len', hmem, hmap⟩ := List.exists_of_findSome?_eq_some h
  obtain ⟨y, hy, heq⟩ := Option.map_eq_some_iff.1 hmap
  cases heq
  have hrange := List.mem_range'_1.1 hmem
  exact ⟨by omega, by omega, hy⟩

/-- With a `PrefixFree` table the shortest match is the only one (43_decoder_fsm.md R166). -/
theorem firstMatch_eq_some_iff {s : State} (hp : s.PrefixFree) {pos len : Nat} {x : Symbol} :
    s.firstMatch pos = some (len, x) ↔ 1 ≤ len ∧ len ≤ s.bitLen.toNat - pos ∧ s.matchCode pos len = some x := by
  refine ⟨firstMatch_range, fun ⟨h1, hle, hx⟩ => ?_⟩
  have hmax := length_le_maxLen (invert_eq_some (c := s.bitsFrom pos len) hx).1
  rw [bitsFrom_length] at hmax
  cases hf : s.firstMatch pos with
  | none =>
    have hnone := List.findSome?_eq_none_iff.1 hf len (List.mem_range'_1.2 (by omega))
    rw [hx] at hnone
    cases hnone
  | some m =>
    obtain ⟨len', y⟩ := m
    obtain ⟨h1', -, hy⟩ := firstMatch_range hf
    obtain rfl := matchCode_length_unique hp h1' h1 hy hx
    rw [Option.some.inj (hy.symm.trans hx)]

theorem greedyWalk_end {s : State} (fuel : Nat) {pos : Nat} (h : pos = s.bitLen.toNat) :
    s.greedyWalk (fuel + 1) pos = some [] := by rw [State.greedyWalk, if_pos h]

/-- Before the end the walk takes the first match and goes on behind it (43_decoder_fsm.md R166). -/
theorem greedyWalk_succ_eq_some {s : State} (fuel : Nat) {pos : Nat} (h : pos ≠ s.bitLen.toNat) {xs : List Symbol} :
    s.greedyWalk (fuel + 1) pos = some xs ↔
      ∃ len x ys, s.firstMatch pos = some (len, x) ∧ s.greedyWalk fuel (pos + len) = some ys ∧ x :: ys = xs := by
  rw [State.greedyWalk, if_neg h, ← State.firstMatch]
  cases s.firstMatch pos with
  | none => simp
  | some m =>
    obtain ⟨len, x⟩ := m
    simp [and_assoc]

theorem encodeBytes_cons {s : State} {x : Symbol} {xs : List Symbol} {e : BitString} :
    s.encodeBytes (x :: xs) = some e ↔ ∃ c f, s.code x = some c ∧ s.encodeBytes xs = some f ∧ c ++ f = e := by
  rw [State.encodeBytes]
  cases s.code x <;> cases s.encodeBytes xs <;> simp

/-- The symbols decode the sequence from a position on, each by a code of at least one bit. -/
def State.DecodesFrom (s : State) (pos : Nat) (xs : List Symbol) : Prop :=
  s.encodeBytes xs = some (s.bitsFrom pos (s.bitLen.toNat - pos)) ∧ ∀ x ∈ xs, s.code x ≠ some []

theorem decodesFrom_zero (s : State) (xs : List Symbol) : s.DecodesFrom 0 xs ↔ s.FullDecoding xs := Iff.rfl

theorem decodesFrom_end {s : State} {pos : Nat} (h : pos = s.bitLen.toNat) (xs : List Symbol) :
    s.DecodesFrom pos xs ↔ xs = [] := by
  rw [State.DecodesFrom, h, Nat.sub_self]
  cases xs with
  | nil => simp [State.encodeBytes, State.bitsFrom]
  | cons x xs =>
    simp only [reduceCtorEq, iff_false]
    rintro ⟨henc, hne⟩
    obtain ⟨c, f, hc, -, hcf⟩ := encodeBytes_cons.1 henc
    have hnil : c = [] := (List.append_eq_nil_iff.1 hcf).1
    exact hne x List.mem_cons_self (hnil ▸ hc)

/-- A decoding takes the first match at its position, and its rest decodes from behind the match. -/
theorem decodesFrom_cons {s : State} (hp : s.PrefixFree) {pos : Nat} {x : Symbol} {xs : List Symbol} :
    s.DecodesFrom pos (x :: xs) ↔ ∃ len, s.firstMatch pos = some (len, x) ∧ s.DecodesFrom (pos + len) xs := by
  simp only [firstMatch_eq_some_iff hp]
  constructor
  · rintro ⟨henc, hne⟩
    obtain ⟨c, f, hc, hf, hcf⟩ := encodeBytes_cons.1 henc
    have hc0 : c ≠ [] := fun hnil => hne x List.mem_cons_self (hnil ▸ hc)
    have hlen : c.length + f.length = s.bitLen.toNat - pos := by
      rw [← List.length_append, hcf, bitsFrom_length]
    rw [← hlen, bitsFrom_add] at hcf
    obtain ⟨hcbits, hfbits⟩ := List.append_inj hcf (by rw [bitsFrom_length])
    obtain ⟨y, hy⟩ := invert_exists hc
    have hyx : y = x := by
      by_contra hyx
      exact hp y x c c (invert_eq_some hy).1 hc hc0 hc0 hyx (List.prefix_refl c)
    refine ⟨c.length, ⟨List.length_pos_iff.2 hc0, by omega, by rw [matchCode_eq_invert, ← hcbits, hy, hyx]⟩, ?_,
      fun z hz => hne z (List.mem_cons_of_mem x hz)⟩
    rw [hf, hfbits, show s.bitLen.toNat - (pos + c.length) = f.length by omega]
  · rintro ⟨len, ⟨h1, hle, hm⟩, henc, hne⟩
    have hcode := (invert_eq_some (c := s.bitsFrom pos len) hm).1
    refine ⟨encodeBytes_cons.2 ⟨_, _, hcode, henc, ?_⟩, fun z hz => ?_⟩
    · rw [← bitsFrom_add, show len + (s.bitLen.toNat - (pos + len)) = s.bitLen.toNat - pos by omega]
    · rcases List.mem_cons.1 hz with rfl | hz
      · rw [hcode]
        exact fun hnil => bitsFrom_ne_nil s pos h1 (Option.some.inj hnil)
      · exact hne z hz

/-- With a `PrefixFree` table the greedy walk finds the decoding from its position on, when there is one
(43_decoder_fsm.md R166). -/
theorem greedyWalk_eq_some_iff {s : State} (hp : s.PrefixFree) (fuel : Nat) {pos : Nat}
    (hpos : pos ≤ s.bitLen.toNat) (hfuel : s.bitLen.toNat - pos < fuel) (xs : List Symbol) :
    s.greedyWalk fuel pos = some xs ↔ s.DecodesFrom pos xs := by
  induction fuel generalizing pos xs with
  | zero => omega
  | succ fuel ih =>
    by_cases hend : pos = s.bitLen.toNat
    · rw [greedyWalk_end fuel hend, decodesFrom_end hend, Option.some.injEq, eq_comm]
    · rw [greedyWalk_succ_eq_some fuel hend]
      constructor
      · rintro ⟨len, x, ys, hm, hys, rfl⟩
        obtain ⟨h1, hle, -⟩ := firstMatch_range hm
        exact (decodesFrom_cons hp).2 ⟨len, hm, (ih (by omega) (by omega) ys).1 hys⟩
      · intro hd
        cases xs with
        | nil => exact absurd (Option.some.inj hd.1).symm (bitsFrom_ne_nil s pos (by omega))
        | cons x ys =>
          obtain ⟨len, hm, hrest⟩ := (decodesFrom_cons hp).1 hd
          obtain ⟨h1, hle, -⟩ := firstMatch_range hm
          exact ⟨len, x, ys, hm, (ih (by omega) (by omega) ys).2 hrest, rfl⟩

/-- With a `PrefixFree` table DECODE is the greedy walk (43_decoder_fsm.md R166). -/
theorem State.Inv.decodeSearch_eq_greedyWalk {s : State} (h : s.Inv) (hp : s.PrefixFree) :
    (if s.decodeSearch.code = .none then some s.decodeSearch.bytes else none) =
      s.greedyWalk (s.bitLen.toNat + 1) 0 := by
  have hwalk (xs : List Symbol) : s.greedyWalk (s.bitLen.toNat + 1) 0 = some xs ↔ s.FullDecoding xs :=
    (greedyWalk_eq_some_iff hp _ (Nat.zero_le _) (by omega) xs).trans (decodesFrom_zero s xs)
  rcases h.decodeSearch_outcome with ⟨hcode, hfull⟩ | ⟨hcode, -, hnone⟩ | ⟨hcode, -⟩
  · rw [if_pos hcode, (hwalk _).2 hfull]
  · rw [if_neg (by simp [hcode]), eq_comm, Option.eq_none_iff_forall_ne_some]
    exact fun xs hxs => hnone xs ((hwalk xs).1 hxs)
  · exact absurd hcode (h.decodeSearch_chain hp).1

/-- Settles O48: one match at each position makes the states a chain, which the greedy walk follows. -/
theorem prefixFreeTablesGiveASingleChain : Obligations.PrefixFreeTablesGiveASingleChain := by
  intro u s hinv hp
  obtain ⟨hno, hlen, hsuccess⟩ := hinv.decodeSearch_chain hp
  obtain ⟨-, -, -, hdepth, -⟩ := hinv.legal
  refine ⟨s.decoded, rfl, fun pos a b x y => matchCode_length_unique hp, fun a => hinv.decoded_parent_pred hp, ?_,
    Nat.succ_le_succ hinv.lengths.bitLen, hdepth, hno, ?_, fun hcode => ?_⟩
  · rwa [hinv.decoded_arenaUsed]
  · rw [hinv.decoded_outputBytes]
    exact hinv.decodeSearch_eq_greedyWalk hp
  · rw [hinv.decoded_arenaUsed, hinv.decoded_outLen]
    exact hsuccess hcode

end Sys2Proof.Machine
end

section
/-! PROOFS. Loading the input buffer in chunks, and the round trip (spec/30_encoding.md R88;
spec/43_decoder_fsm.md R161, R167). -/

namespace Sys2Proof.Machine

/-! ### Loading a bit string -/

/-- An append that fits puts the bits of ARG0 behind those already there (43_decoder_fsm.md R161). -/
theorem inputBits_bitbufAppend {s : State} (hp : s.params.legal = true) {n : BitVec 16} (h1 : 1 ≤ n.toNat)
    (h32 : n.toNat ≤ 32) (hfit : s.bitLen.toNat + n.toNat ≤ s.params.bitbufBits) :
    (s.bitbufAppend n).inputBits = s.inputBits ++ s.argBits n.toNat := by
  have hbit := bitbufAppend_bit h1 h32 hfit
  rw [State.inputBits, bitbufAppend_bitLen h1 h32 hfit hp, bitsFrom_add, Nat.zero_add]
  congr 1
  · refine List.map_congr_left fun i hi => ?_
    have hlt := List.mem_range.1 hi
    rw [hbit, if_neg (by omega)]
  · refine List.map_congr_left fun i hi => ?_
    have hlt := List.mem_range.1 hi
    rw [hbit, if_pos (by omega), Nat.add_sub_cancel_left]

/-- A chunk in ARG0 with its first bit at bit 0 is the bits appended (30_encoding.md R88). -/
theorem argBits_of_chunk {s : State} {c : BitString} (h : ∀ i, i < c.length → c.getD i false = s.arg0.getLsbD i) :
    s.argBits c.length = c := by
  refine List.ext_getElem (by simp [State.argBits]) fun i _ hi => ?_
  have hbit := h i hi
  rw [List.getD_eq_getElem _ _ hi] at hbit
  simp [State.argBits, hbit]

/-- Appending a chunk that fits (43_decoder_fsm.md R161). -/
theorem append_chunk {s : State} (hs : s.Inv) {w : Word} {c : BitString} (h1 : 1 ≤ c.length) (h32 : c.length ≤ 32)
    (hbits : ∀ i, i < c.length → c.getD i false = w.getLsbD i)
    (hfit : s.bitLen.toNat + c.length ≤ s.params.bitbufBits) {u : State}
    (hu : exec (.bitbufAppend (BitVec.ofNat 16 c.length)) { s with arg0 := w } = .next u) :
    u.Inv ∧ u.params = s.params ∧ u.table = s.table ∧ u.inputBits = s.inputBits ++ c := by
  have hw : { s with arg0 := w }.Inv :=
    hs.control s.ctrl s.status w s.res0 s.res1 s.codeStage s.codeOut s.pend s.prog s.reads s.turns s.draws
  have hn : (BitVec.ofNat 16 c.length).toNat = c.length := by rw [BitVec.toNat_ofNat, Nat.mod_eq_of_lt (by omega)]
  have hinput : u.inputBits = s.inputBits ++ State.argBits { s with arg0 := w } (BitVec.ofNat 16 c.length).toNat := by
    cases hu
    exact inputBits_bitbufAppend hw.params (by omega) (by omega) (by rwa [hn])
  rw [hn, argBits_of_chunk hbits] at hinput
  obtain ⟨bits, len, st, hframe⟩ := exec_writesOnly hu
  exact ⟨exec_keeps_inv hw hu, by rw [hframe], by rw [hframe], hinput⟩

/-- Loading a bit string that fits puts it behind the bits already there, in any chunks (43_decoder_fsm.md R161). -/
theorem Loads.appends {s t : State} {e : BitString} (h : Loads s e t) (hs : s.Inv)
    (hfit : s.bitLen.toNat + e.length ≤ s.params.bitbufBits) :
    t.Inv ∧ t.table = s.table ∧ t.inputBits = s.inputBits ++ e := by
  induction h with
  | done s => exact ⟨hs, rfl, (List.append_nil _).symm⟩
  | chunk s u t w c rest h1 h32 hbits hu _ ih =>
    rw [List.length_append] at hfit
    obtain ⟨hinv, hparams, htable, hinput⟩ := append_chunk hs h1 h32 hbits (by omega) hu
    have hlen := congrArg List.length hinput
    simp only [State.inputBits, List.length_append, bitsFrom_length] at hlen
    obtain ⟨hinv', htable', hinput'⟩ := ih hinv (by rw [hparams]; omega)
    exact ⟨hinv', htable'.trans htable, by rw [hinput', hinput, List.append_assoc]⟩

/-- Loading an empty buffer leaves the bit string as the whole input. -/
theorem Loads.fills {s t : State} {e : BitString} (h : Loads s e t) (hs : s.Inv) (hempty : s.bitLen = 0)
    (hfit : e.length ≤ s.params.bitbufBits) : t.Inv ∧ t.table = s.table ∧ t.inputBits = e := by
  obtain ⟨hinv, htable, hinput⟩ := h.appends hs (by rw [hempty]; exact (Nat.zero_add _).trans_le hfit)
  refine ⟨hinv, htable, ?_⟩
  rw [hinput, State.inputBits, hempty]
  rfl

theorem bitLen_eq_zero_of_inputBits {s : State} (h : s.inputBits = []) : s.bitLen = 0 :=
  BitVec.eq_of_toNat_eq ((bitsFrom_length s 0 _).symm.trans (congrArg List.length h))

/-- Every bit string can be loaded, 32 bits at a time (30_encoding.md R88). -/
theorem loads_exists (e : BitString) (s : State) : ∃ t, Loads s e t := by
  by_cases he : e = []
  · exact ⟨s, he ▸ .done s⟩
  · have hpos := List.length_pos_iff.2 he
    obtain ⟨t, ht⟩ := loads_exists (e.drop 32)
      ({ s with arg0 := packedWord e 0 }.bitbufAppend (BitVec.ofNat 16 (e.take 32).length))
    have hload := Loads.chunk s _ t (packedWord e 0) (e.take 32) (e.drop 32) (by rw [List.length_take]; omega)
      (List.length_take_le 32 e) (fun i hi => ?_) rfl ht
    · exact ⟨t, by rwa [List.take_append_drop] at hload⟩
    · have hi32 : i < 32 := hi.trans_le (List.length_take_le 32 e)
      rw [packedWord_bit e 0 hi32, Nat.mul_zero, Nat.zero_add, List.getD_eq_getElem?_getD,
        List.getElem?_take_of_lt hi32, List.getD_eq_getElem?_getD]
termination_by e.length
decreasing_by rw [List.length_drop]; omega

/-! ### The codes of a text -/

theorem encodeBytes_exists {s : State} {xs : List Symbol} (h : ∀ x ∈ xs, (s.code x).isSome = true) :
    ∃ e, s.encodeBytes xs = some e := by
  induction xs with
  | nil => exact ⟨[], rfl⟩
  | cons x xs ih =>
    obtain ⟨c, hc⟩ := Option.isSome_iff_exists.1 (h x List.mem_cons_self)
    obtain ⟨f, hf⟩ := ih fun y hy => h y (List.mem_cons_of_mem x hy)
    exact ⟨c ++ f, encodeBytes_cons.2 ⟨c, f, hc, hf, rfl⟩⟩

theorem encodeBytes_congr {s t : State} (h : t.table = s.table) (xs : List Symbol) :
    t.encodeBytes xs = s.encodeBytes xs := by
  induction xs with
  | nil => rfl
  | cons x xs ih => rw [State.encodeBytes, State.encodeBytes, code_congr h, ih]

/-- Empty codes spell nothing (90_conflicts.md C2). -/
theorem encodeBytes_of_empty_codes {s : State} (h : ∀ x c, s.code x = some c → c = []) {xs : List Symbol}
    {e : BitString} (he : s.encodeBytes xs = some e) : e = [] := by
  induction xs generalizing e with
  | nil => exact (Option.some.inj he).symm
  | cons x xs ih =>
    obtain ⟨c, f, hc, hf, rfl⟩ := encodeBytes_cons.1 he
    rw [h x c hc, ih hf]
    rfl

/-- DECODE of a text's codes under a `PrefixFree` table without the empty code gives the text (43_decoder_fsm.md R166,
R167). -/
theorem State.Inv.decoded_text {s : State} (h : s.Inv) (hp : s.PrefixFree) {text : List Symbol}
    (hfull : s.FullDecoding text) : s.decoded.status.err = .none ∧ s.decoded.outputBytes = text ∧
      s.decoded.outLen.toNat = text.length ∧ s.decoded.arenaUsed.toNat = text.length + 1 := by
  obtain ⟨hno, -, hused⟩ := h.decodeSearch_chain hp
  rcases h.decodeSearch_outcome with ⟨hcode, hbytes⟩ | ⟨-, -, hnone⟩ | ⟨hcode, -⟩
  · have htext := fullDecoding_unique hp hbytes.1 hfull.1 hbytes.2 hfull.2
    rw [h.decoded_outputBytes, h.decoded_outLen, h.decoded_arenaUsed, hused hcode, htext]
    exact ⟨hcode, rfl, rfl, rfl⟩
  · exact absurd hfull (hnone text)
  · exact absurd hcode hno

/-! ### The generated table -/

theorem genTable_of_valid {s : State} (hv : s.tree.valid = true) :
    s.genTable = { s with table := s.generatedTable }.finish .none := if_neg (by simp [hv])

section
variable {s : State} (ok : s.TreeOk)
include ok

/-- Only the literal degenerate policy gives an empty code (42_code_table_rom.md R142; 90_conflicts.md C2). -/
theorem generatedTable_ne_nil (h : s.tree.nodeCount ≠ 0 ∨ s.ctrl.degen1bit = true) (x : Symbol) :
    s.generatedTable.read x.toNat ≠ some [] := by
  intro hc
  by_cases h0 : s.tree.nodeCount = 0
  · have hnil := ((generatedTable_degenerate ok x [] h0).1 hc).2
    rw [if_pos (h.resolve_left (not_not.2 h0))] at hnil
    cases hnil
  · have hlen := (ok.leaf_path_length ((generatedTable_nondegenerate ok x [] h0).1 hc)).2 h0
    rw [List.length_nil] at hlen
    omega

theorem generatedTable_eq_nil (h0 : s.tree.nodeCount = 0) (hd : s.ctrl.degen1bit = false) (x : Symbol) (c : BitString)
    (hc : s.generatedTable.read x.toNat = some c) : c = [] := by
  have hval := ((generatedTable_degenerate ok x c h0).1 hc).2
  rwa [if_neg (by simp [hd])] at hval

theorem prefixFree_of_generatedTable {l : State} (hl : l.table = s.generatedTable) : l.PrefixFree := by
  intro x y c d hc hd _ _ hne
  rw [State.code, hl] at hc hd
  exact generatedTable_prefixFree ok hc hd hne

end

/-- Settles O49: the loaded buffer spells the text, whose only decoding under the generated table it is; the literal
degenerate table leaves the buffer empty. -/
theorem decodeInvertsEncoding : Obligations.DecodeInvertsEncoding := by
  intro u v d s text hinv hv htext
  have ok := hinv.tree hv
  have hgen := genTable_of_valid hv
  have htable : s.genTable.table = s.generatedTable := by rw [hgen]; rfl
  have hparams : s.genTable.params = s.params := by rw [hgen]; rfl
  obtain ⟨e, he⟩ := encodeBytes_exists (s := s.genTable) (xs := text) fun x hx => by
    rw [State.code, htable]
    exact (generatedTable_valid ok x).2 (htext x hx)
  refine ⟨s.genTable, _, e, rfl, rfl, he, fun hfit => ⟨loads_exists e _, fun l hl => ⟨l.decoded, rfl, ?_⟩⟩⟩
  obtain ⟨hlinv, hltable, hlinput⟩ := hl.fills (hinv.genTable.clearInput.finish .none) rfl (hparams ▸ hfit)
  have hlgen : l.table = s.generatedTable := hltable.trans htable
  refine ⟨fun hpolicy => ?roundTrip, fun h0 hd => ?literal⟩
  case roundTrip =>
    refine hlinv.decoded_text (prefixFree_of_generatedTable ok hlgen) ⟨?spells, fun x _ => ?nonempty⟩
    case spells => rw [encodeBytes_congr (hlgen.trans htable.symm) text, he, hlinput]
    case nonempty =>
      rw [State.code, hlgen]
      exact generatedTable_ne_nil ok hpolicy x
  case literal =>
    have hnil : e = [] := encodeBytes_of_empty_codes (fun x c hc => by
      rw [State.code, htable] at hc
      exact generatedTable_eq_nil ok h0 hd x c hc) he
    have hempty := bitLen_eq_zero_of_inputBits (hlinput.trans hnil)
    obtain ⟨-, hout, -⟩ := decoded_of_seed (decodeSearch_of_empty hempty)
    exact ⟨hnil, hout⟩

end Sys2Proof.Machine
end

section
/-! PROOFS. A host access and a completion on one edge, the effects of each error, and the interrupt level
(spec/60_exceptions.md R200 to R206). -/

namespace Sys2Proof.Machine

/-! ### A host access and a completion on one edge -/

section
variable {s : State} {a : Addr} {rest : List Turn} {prog : List HostStmt} (ht : s.turns = .host :: rest)
include ht

theorem step_host_write {v : Word} (hp : s.prog = .write a v :: prog) :
    step s = .next ({ s with turns := rest, prog := prog }.memWrite a v) := by
  rw [step_of_host_turn ht, hostStep_write (s := { s with turns := rest }) hp]

theorem step_host_read_status (hp : s.prog = .read a :: prog) (ha : wordAddress a = 0x008) :
    step s = .next { s with turns := rest, prog := prog, reads := s.status.toWord :: s.reads } := by
  rw [step_of_host_turn ht, hostStep_read (s := { s with turns := rest }) hp, memRead_status ha]

end

/-- The engine's turn completes a pending word: BUSY is cleared and DONE set, whatever DONE was
(60_exceptions.md R203). -/
theorem step_completes {s : State} {rest : List Turn} (ht : s.turns = .engine :: rest) (hb : s.status.busy = true) :
    ∃ t, step s = .next t ∧ t.status = s.status.completed t.status.err := by
  obtain ⟨t, hstep, hstatus, -⟩ := engineStep_completes (s := { s with turns := rest }) hb
  exact ⟨t, (step_of_engine_turn ht).trans hstep, hstatus⟩

/-- After a write made while BUSY = 1 the engine's turn completes the same word: whatever was written, BUSY is cleared and
DONE set, and a write of CMD has been lost (60_exceptions.md R203). -/
theorem step_memWrite_completes {s : State} {rest : List Turn} (ht : s.turns = .engine :: rest)
    (hb : s.status.busy = true) (a : Addr) (v : Word) :
    (s.memWrite a v).status.busy = true ∧ (s.memWrite a v).pend = s.pend ∧ ∃ u, step (s.memWrite a v) = .next u ∧
      u.status.busy = false ∧ u.status.done = true ∧ (wordAddress a = 0x00C → u.status.cmdLost = true) := by
  obtain ⟨st, hwrite, hst, -⟩ := memWrite_busy hb a v
  obtain ⟨u, hu, hstatus⟩ := step_completes (s := { s with status := st }) ht hst
  rw [hwrite]
  refine ⟨hst, rfl, u, hu, congrArg Status.busy hstatus, congrArg Status.done hstatus, fun ha => ?lost⟩
  case lost =>
    rw [memWrite_cmd_busy ha hb] at hwrite
    have hlost : st.cmdLost = true := (congrArg (fun t : State => t.status.cmdLost) hwrite).symm
    rw [hstatus, completed_cmdLost, hlost]

/-- Settles O13: the host's turn is the write, after which the engine's turn completes the pending word, or the read of
STATUS, whose bit 0 is BUSY. -/
theorem hostAccessBeforeCompletion : Obligations.HostAccessBeforeCompletion := by
  refine fun s a v prog rest hb hturns => ⟨fun hprog => ?write, fun hprog ha => ?read⟩
  case write =>
    obtain ⟨hbusy, hpend, u, hcompletes⟩ :=
      step_memWrite_completes (s := { s with turns := .engine :: rest, prog := prog }) rfl hb a v
    exact ⟨_, u, step_host_write hturns hprog, hbusy, hpend, hcompletes⟩
  case read =>
    obtain ⟨hbusy, -⟩ := s.status.toWord_fields
    exact ⟨_, step_host_read_status hturns hprog ha, s.status.toWord, rfl, hbusy.trans hb⟩

/-! ### The effects of an error -/

/-- What a command that has taken `s` to `t` may have written, by its code: an error has the effects its rule lists and no
other, and no command reports ILLEGAL_COMMAND (60_exceptions.md R200, R201). -/
def ErrorEffects (s t : State) : ErrCode → Prop
  | .none => True
  | .badOperand | .noTree | .bufferFull => t = s.finish t.status.err
  | .emptyAlphabet => (∀ x, t.leafWeight x = s.weight x) ∧
    t = { s with lw := t.lw, tree := { root := 0, nodeCount := 0, valid := false } }.finish t.status.err
  | .unknownSymbol => t = { s with res0 := 0, codeOut := Vector.replicate 8 0 }.finish t.status.err
  | .decodeError | .arenaOverflow =>
    t = { s with outLen := 0, arena := t.arena, arenaUsed := t.arenaUsed }.finish t.status.err
  | .illegalCommand => False

/-- The codes a command may report (60_exceptions.md R200). -/
def reportedCodes : Instr → List ErrCode
  | .nop _ | .clearWeights _ | .tableClear _ | .tableWrite _ _ | .tableDelete _ _ | .bitbufClear _ => [.none]
  | .buildTree _ => [.none, .emptyAlphabet]
  | .nodeRead _ => [.none, .noTree, .badOperand]
  | .genTable _ => [.none, .noTree]
  | .tableRead _ _ => [.none, .unknownSymbol]
  | .bitbufAppend _ => [.none, .badOperand, .bufferFull]
  | .decode _ => [.none, .decodeError, .arenaOverflow]

/-- A command that reports one of the given codes and has the effects of the code it reports. -/
structure EndsWithin (codes : List ErrCode) (s t : State) : Prop where
  reported : t.status.err ∈ codes
  effects : ErrorEffects s t t.status.err

theorem buildTree_endsWithin (s : State) :
    EndsWithin [.none, .emptyAlphabet] s (s.buildTree.1.finish s.buildTree.2) := by
  rw [State.buildTree]
  split
  · exact ⟨by simp, leafWeight_snapshot s, rfl⟩
  · exact ⟨by simp, trivial⟩

theorem nodeRead_endsWithin (s : State) (id : BitVec 16) :
    EndsWithin [.none, .noTree, .badOperand] s (s.nodeRead id) := by
  rw [State.nodeRead]
  split_ifs
  · exact ⟨by simp, rfl⟩
  · exact ⟨by simp, rfl⟩
  · exact ⟨by simp, trivial⟩
  · exact ⟨by simp, trivial⟩

theorem genTable_endsWithin (s : State) : EndsWithin [.none, .noTree] s s.genTable := by
  rw [State.genTable]
  split
  · exact ⟨by simp, rfl⟩
  · exact ⟨by simp, trivial⟩

theorem tableRead_endsWithin (s : State) (sym : Symbol) : EndsWithin [.none, .unknownSymbol] s (s.tableRead sym) := by
  cases hc : s.code sym with
  | some c =>
    rw [tableRead_hit hc]
    exact ⟨by simp, trivial⟩
  | none =>
    rw [tableRead_miss hc]
    exact ⟨by simp, rfl⟩

theorem bitbufAppend_endsWithin (s : State) (n : BitVec 16) :
    EndsWithin [.none, .badOperand, .bufferFull] s (s.bitbufAppend n) := by
  rw [State.bitbufAppend]
  split_ifs
  · exact ⟨by simp, rfl⟩
  · exact ⟨by simp, rfl⟩
  · exact ⟨by simp, trivial⟩

/-- A search without bytes is written back to OUT_LEN, ARENA and ARENA_USED alone (43_decoder_fsm.md R162). -/
theorem decoded_eq_of_no_bytes {s : State} (h : s.decodeSearch.bytes = []) : s.decoded =
    { s with outLen := 0, arena := s.decoded.arena, arenaUsed := s.decoded.arenaUsed }.finish s.decoded.status.err := by
  rw [State.decoded, State.commitSearch, h]
  rfl

theorem State.Inv.decode_endsWithin {s : State} (h : s.Inv) :
    EndsWithin [.none, .decodeError, .arenaOverflow] s s.decoded := by
  rcases h.decodeSearch_outcome with ⟨hcode, -⟩ | ⟨hcode, hbytes, -⟩ | ⟨hcode, hbytes, -⟩
  · exact ⟨by simp [hcode], by rw [decoded_err, hcode]; trivial⟩
  · exact ⟨by simp [hcode], by rw [decoded_err, hcode]; exact decoded_eq_of_no_bytes hbytes⟩
  · exact ⟨by simp [hcode], by rw [decoded_err, hcode]; exact decoded_eq_of_no_bytes hbytes⟩

/-- Every command reports one of its own codes and has the effects of that code alone (60_exceptions.md R200, R201). -/
theorem exec_endsWithin {i : Instr} {s t : State} (h : s.Inv) (ht : exec i s = .next t) :
    EndsWithin (reportedCodes i) s t := by
  cases i with
  | nop _ | clearWeights _ | tableClear _ | tableWrite _ _ | tableDelete _ _ | bitbufClear _ =>
    cases ht
    exact ⟨List.mem_singleton.2 rfl, trivial⟩
  | buildTree _ => cases ht; exact buildTree_endsWithin s
  | nodeRead id => cases ht; exact nodeRead_endsWithin s id
  | genTable _ => cases ht; exact genTable_endsWithin s
  | tableRead sym _ => cases ht; exact tableRead_endsWithin s sym
  | bitbufAppend n => cases ht; exact bitbufAppend_endsWithin s n
  | decode _ => cases ht; exact h.decode_endsWithin

/-- Settles O50: the completion of an illegal word is `finish`, and each clause is the effect of the codes it names. -/
theorem errorsWriteOnlyWhatTheyList : Obligations.ErrorsWriteOnlyWhatTheyList := by
  refine ⟨fun s r => engineStep_error, fun i s t hinv ht => ?_⟩
  obtain ⟨hcode, heffects⟩ := exec_endsWithin hinv ht
  have effects : ∀ {code}, t.status.err = code → ErrorEffects s t code := fun he => he ▸ heffects
  refine ⟨fun he => ?flags, effects, effects, fun he => ?noDecoding, ?codes⟩
  case flags => rcases he with he | he | he <;> exact effects he
  case noDecoding => rcases he with he | he <;> exact effects he
  case codes => cases i <;> exact hcode

/-! ### The interrupt level -/

theorem irq_eq_true_iff (s : State) : s.irq = true ↔ s.status.done = true ∧ s.ctrl.irqEn = true :=
  Bool.and_eq_true_iff

theorem irq_of_done_false {s : State} (h : s.status.done = false) : s.irq = false := by rw [State.irq, h, Bool.false_and]

/-- A completion raises irq exactly when IRQ_EN is 1 (60_exceptions.md R205). -/
theorem engineStep_irq {s : State} (hb : s.status.busy = true) : ∃ t, engineStep s = .next t ∧ t.irq = s.ctrl.irqEn := by
  obtain ⟨t, ht, hstatus, -, hctrl, -⟩ := engineStep_completes hb
  refine ⟨t, ht, ?_⟩
  rw [State.irq, hstatus, completed_done, hctrl, Bool.true_and]

/-- While BUSY = 1 a write of any word but STATUS is lost or ignored, and sets a flag that irq does not see
(60_exceptions.md R205). -/
theorem memWrite_busy_irq {s : State} {a : Addr} (hb : s.status.busy = true) (ha : wordAddress a ≠ 0x008) (v : Word) :
    (s.memWrite a v).irq = s.irq := by
  by_cases hcmd : wordAddress a = 0x00C
  · rw [memWrite_cmd_busy hcmd hb]
    rfl
  · rw [memWrite_other ha hcmd, if_pos hb]
    rfl

/-- Settles O51: what each event does to DONE and IRQ_EN. -/
theorem interruptLevel : Obligations.InterruptLevel := by
  refine fun s a v => ⟨irq_eq_true_iff s, engineStep_irq, fun ha hb => ?accept, fun ha hv => ?clear,
    fun hb ha => memWrite_busy_irq hb ha v, fun ha hb => ?ctrl⟩
  case accept => exact irq_of_done_false (by rw [acceptanceEffects s a v ha hb])
  case clear => exact irq_of_done_false (by rw [memWrite_status ha]; simp [Status.clearOnes, hv])
  case ctrl =>
    obtain ⟨hwrite, -⟩ := registerWrites s a v hb
    rw [hwrite ha]
    rfl

end Sys2Proof.Machine
end

section
/-! PROOFS. The late effect of CTRL and of host writes: no command but GEN_TABLE sees CTRL, and no host write reaches the
table, the tree or the output (spec/70_reset_and_hazards.md R237). -/

namespace Sys2Proof.Machine

/-! ### Every command but GEN_TABLE is blind to CTRL -/

section
variable (s : State) (c : Ctrl)

theorem mergeLoop_withCtrl (fuel : Nat) (wl : List NodeId) (k : Nat) :
    State.mergeLoop fuel { s with ctrl := c } wl k =
      ({ (State.mergeLoop fuel s wl k).1 with ctrl := c }, (State.mergeLoop fuel s wl k).2) := by
  induction fuel generalizing s wl k with
  | zero => rfl
  | succ fuel ih =>
    rw [State.mergeLoop, State.mergeLoop]
    split
    · rfl
    · exact ih (s.mergeNode wl (s.select wl) k) (mergeList wl (s.select wl) k) (k + 1)

theorem buildTree_withCtrl :
    { s with ctrl := c }.buildTree = ({ s.buildTree.1 with ctrl := c }, s.buildTree.2) := by
  by_cases h : s.initialList = []
  · rw [State.buildTree, State.buildTree, if_pos h]
    exact if_pos h
  · have hloop := mergeLoop_withCtrl s.snapshotWeights c s.initialList.length s.initialList 0
    rw [buildTree_of_nonzero h]
    exact (buildTree_of_nonzero (s := { s with ctrl := c }) h).trans
      (congrArg (fun r => (commitTree r, ErrCode.none)) hloop)

theorem nodeRead_withCtrl (id : BitVec 16) :
    { s with ctrl := c }.nodeRead id = { s.nodeRead id with ctrl := c } := by
  simp only [State.nodeRead]
  split_ifs <;> rfl

theorem tableRead_withCtrl (sym : Symbol) :
    { s with ctrl := c }.tableRead sym = { s.tableRead sym with ctrl := c } := by
  cases h : s.code sym with
  | some code => rw [tableRead_hit h, tableRead_hit (s := { s with ctrl := c }) h]; rfl
  | none => rw [tableRead_miss h, tableRead_miss (s := { s with ctrl := c }) h]; rfl

theorem bitbufAppend_withCtrl (n : BitVec 16) :
    { s with ctrl := c }.bitbufAppend n = { s.bitbufAppend n with ctrl := c } := by
  simp only [State.bitbufAppend]
  split_ifs <;> rfl

theorem decoded_withCtrl : { s with ctrl := c }.decoded = { s.decoded with ctrl := c } := by
  have hsearch : { s with ctrl := c }.decodeSearch = s.decodeSearch :=
    search_code_congr (s := s) (s' := { s with ctrl := c }) rfl rfl (fun _ => rfl) (fun _ => rfl) _ _ _
  rw [State.decoded, State.decoded, hsearch]
  rfl

/-- A command other than GEN_TABLE does not see CTRL and does not write it (70_reset_and_hazards.md R237). -/
theorem exec_withCtrl {i : Instr} (hi : ∀ u, i ≠ .genTable u) {t : State} (ht : exec i s = .next t) :
    exec i { s with ctrl := c } = .next { t with ctrl := c } := by
  cases i with
  | nop _ | clearWeights _ | tableClear _ | tableWrite _ _ | tableDelete _ _ | bitbufClear _ => cases ht; rfl
  | buildTree _ =>
    cases ht
    rw [exec, execBuildTree, buildTree_withCtrl]
    rfl
  | nodeRead id => cases ht; exact congrArg Host.Outcome.next (nodeRead_withCtrl s c id)
  | genTable u => exact absurd rfl (hi u)
  | tableRead sym _ => cases ht; exact congrArg Host.Outcome.next (tableRead_withCtrl s c sym)
  | bitbufAppend n => cases ht; exact congrArg Host.Outcome.next (bitbufAppend_withCtrl s c n)
  | decode _ => cases ht; exact congrArg Host.Outcome.next (decoded_withCtrl s c)

end

/-! ### What reaches the table, the tree and the output -/

/-- No command but DECODE writes OUT or OUT_LEN (70_reset_and_hazards.md R237). -/
theorem exec_output_kept {i : Instr} {s t : State} (ht : exec i s = .next t) (hi : ∀ u, i ≠ .decode u) :
    t.out = s.out ∧ t.outLen = s.outLen := by
  obtain ⟨-, -, -, -, -, -, hwriter, -⟩ := onlyTheseCommandsWrite i s t ht
  have hkept := mt hwriter fun ⟨u, hu⟩ => hi u hu
  simp only [not_or, ne_eq, not_not] at hkept
  obtain ⟨hout, hlen, -⟩ := hkept
  exact ⟨hout, hlen⟩

/-- Settles O59: the commands but GEN_TABLE are blind to CTRL, the frame of a host write leaves out the table, the tree and
the output, and OUT has no writer but DECODE. -/
theorem lateEffectHazards : Obligations.LateEffectHazards := by
  refine ⟨fun i s c hi => ?ctrl, fun s a v => ?write, fun i s t => exec_output_kept⟩
  case ctrl =>
    obtain ⟨t, ht, -⟩ := exec_completes i s
    exact ⟨t, ht, exec_withCtrl s c hi ht⟩
  case write =>
    obtain ⟨c, st, p, a0, cs, w, hframe, -⟩ := memWrite_frame s a v
    rw [hframe]
    exact ⟨rfl, rfl, fun _ => rfl, fun _ => rfl, rfl, rfl⟩

end Sys2Proof.Machine
end

section
/-! PROOFS. Reset: what a reset turn does with and without an access, the values it gives, and that no other step resets
the block (spec/70_reset_and_hazards.md R230 to R232). -/

namespace Sys2Proof.Machine

/-! ### The reset turn -/

section
variable {s : State} {prog : List HostStmt} {a : Addr}

/-- A write in a reset cycle is dropped (70_reset_and_hazards.md R230). -/
theorem resetStep_write {v : Word} (h : s.prog = .write a v :: prog) :
    s.resetStep true = { s with prog := prog }.resetEdge :=
  congrArg State.resetEdge (by rw [State.hostStepInReset, h])

/-- A read in a reset cycle returns 0 (70_reset_and_hazards.md R230). -/
theorem resetStep_read (h : s.prog = .read a :: prog) :
    s.resetStep true = { s with prog := prog, reads := 0 :: s.reads }.resetEdge :=
  congrArg State.resetEdge (by rw [State.hostStepInReset, h])

end

/-- An access in a reset cycle moves the host's program on and reaches nothing of the block
(70_reset_and_hazards.md R230). -/
theorem hostStepInReset_frame (s : State) : ∃ prog reads, s.hostStepInReset = { s with prog := prog, reads := reads } := by
  rw [State.hostStepInReset]
  split
  · exact ⟨s.prog, s.reads, rfl⟩
  · exact ⟨_, s.reads, rfl⟩
  · exact ⟨_, _, rfl⟩
  · exact ⟨_, s.reads, rfl⟩

/-- After a reset turn the block is in its reset state, and the schedule and the draws are as they were
(70_reset_and_hazards.md R230, R231). -/
theorem resetStep_eq (s : State) (access : Bool) : ∃ prog reads, s.resetStep access =
    { State.afterReset s.params (s.resets + 1) with prog := prog, reads := reads, turns := s.turns, draws := s.draws } := by
  cases access with
  | false => exact ⟨s.prog, s.reads, rfl⟩
  | true =>
    obtain ⟨prog, reads, hframe⟩ := hostStepInReset_frame s
    exact ⟨prog, reads, congrArg State.resetEdge hframe⟩

/-- Settles O53: each value is a field of the reset state, in which the engine is idle. -/
theorem resetValues : Obligations.ResetValues := by
  intro s access
  obtain ⟨prog, reads, heq⟩ := resetStep_eq s access
  have hzero : ∀ k : Fin 8, (Vector.replicate 8 (0 : Word))[k] = 0 := fun k => Vector.getElem_replicate k.isLt
  exact ⟨_, heq, rfl, rfl, rfl, rfl, rfl, rfl, hzero, hzero, rfl, fun _ => rfl, maxLen_eq_zero fun _ => rfl, rfl, rfl, rfl,
    rfl, rfl, engineStep_idle rfl⟩

/-- Settles O54: every item but the last is a field of the reset state, and with BUSY = 0 a CMD write is accepted. -/
theorem idleAfterReset : Obligations.IdleAfterReset := by
  rintro p n s rfl
  refine ⟨rfl, rfl, rfl, rfl, fun _ => rfl, rfl, rfl, fun w => ?accepted⟩
  rw [acceptanceEffects (State.afterReset p n) 0x00C w (by decide) rfl]
  exact ⟨rfl, rfl⟩

/-- Settles O55: the default parameters are legal, and reset with legal parameters meets the invariant. -/
theorem resetMeetsInvariant : Obligations.ResetMeetsInvariant :=
  ⟨State.Inv.afterReset (by decide) 0, fun _ n hp => State.Inv.afterReset hp n⟩

/-! ### Steps without a reset turn -/

theorem memWrite_resets (s : State) (a : Addr) (v : Word) : (s.memWrite a v).resets = s.resets := by
  obtain ⟨c, st, p, a0, cs, w, hframe, -⟩ := memWrite_frame s a v
  rw [hframe]

theorem memRead_resets (s : State) (a : Addr) : (s.memRead a).2.resets = s.resets := by
  obtain ⟨d, hframe⟩ := memRead_frame s a
  rw [hframe]

theorem hostStep_resets (s : State) : s.hostStep.resets = s.resets := by
  match hp : s.prog with
  | [] => rw [hostStep_ended hp]
  | .write a v :: rest => rw [hostStep_write hp, memWrite_resets]
  | .read a :: rest => rw [hostStep_read hp]; exact memRead_resets s a
  | .wait :: rest => rw [hostStep_wait hp]; split <;> rfl

theorem engineStep_resets {s t : State} (ht : engineStep s = .next t) : t.resets = s.resets := by
  cases hb : s.status.busy with
  | false =>
    rw [engineStep_idle hb] at ht
    cases ht
    rfl
  | true =>
    obtain ⟨u, hu, -, -, -, -, -, -, -, -, -, hresets, -⟩ := engineStep_completes hb
    rw [hu] at ht
    cases ht
    exact hresets

/-- A step that is not a reset turn resets nothing, whichever agent moves (70_reset_and_hazards.md R230). -/
theorem step_resets {s t : State} (hturn : ∀ access rest, s.turns ≠ .reset access :: rest) (ht : step s = .next t) :
    t.resets = s.resets := by
  match hs : s.turns with
  | .engine :: rest =>
    rw [step_of_engine_turn hs] at ht
    exact engineStep_resets (s := { s with turns := rest }) ht
  | .host :: rest =>
    rw [step_of_host_turn hs] at ht
    cases ht
    exact hostStep_resets { s with turns := rest }
  | .reset access :: rest => exact absurd hs (hturn access rest)
  | [] =>
    cases hb : s.status.busy with
    | true =>
      rw [step_of_busy hs hb] at ht
      exact engineStep_resets ht
    | false =>
      rw [step_of_idle hs hb] at ht
      cases ht
      exact hostStep_resets s

/-- Settles O52: the reset turn is `resetEdge` after the access, of which only the host's program and the value 0 remain,
and no other turn counts a reset. -/
theorem resetCycleEffects : Obligations.ResetCycleEffects := by
  refine ⟨fun s rest => step_of_reset_turn, fun s rest a v prog ht => ⟨fun hp => ?write, fun hp => ?read⟩,
    fun s t => step_resets⟩
  case write =>
    exact (step_of_reset_turn ht).trans (congrArg Host.Outcome.next (resetStep_write (s := { s with turns := rest }) hp))
  case read =>
    exact (step_of_reset_turn ht).trans (congrArg Host.Outcome.next (resetStep_read (s := { s with turns := rest }) hp))

end Sys2Proof.Machine
end
